-- ==== Sys2Proof/Word.lean ====
section
/-! DEFINITION. The data sizes of CCE: bytes, 64-bit register words and 128-bit Blocks
(spec/00_scope.md R9). -/

namespace Sys2Proof

/-- A byte, 8 bits (R9). -/
abbrev Byte := BitVec 8

/-- The contents of an operand register: an unsigned 64-bit integer (10_state R21). -/
abbrev Word64 := BitVec 64

/-- A Block: exactly 16 bytes `B[0]` to `B[15]`, "no internal structure beyond a byte sequence"
(R9, 20_memory R54). -/
abbrev Block := Vector Byte 16

end Sys2Proof
end

