-- ==== Sys2Proof/Config.lean ====
section
/-! DEFINITION. What an implementation fixes (spec/00_scope.md R8, table P), the four round
primitives as a configuration record (40_block_core R103), and the free values: results the spec
leaves open, opaque constants of which nothing can be proved. -/

namespace Sys2Proof.Config

/-- A contiguous range of byte addresses `[base, base + size)`. -/
structure Region where
  base : Nat
  size : Nat
deriving DecidableEq, Repr

/-- The number of rounds of each key class, `NR(0)`, `NR(1)`, `NR(2)` (00_scope R8): an open parameter
with the round primitives (92_eei_decisions D4, D31; 93 U18). -/
structure RoundCounts where
  k128 : Nat
  k192 : Nat
  k256 : Nat
deriving DecidableEq, Repr

/-- AES's round counts, the default of table P. PRESUMED (log entry 10). -/
def RoundCounts.aes : RoundCounts := ⟨10, 12, 14⟩

/-- The parameters of table P that a step depends on (00_scope R8). They are plain data carried in
State and never written, so that a statement about every state holds for every value of them;
log entry 5 says which values State.reset gives them. `backed` is the predicate Backed(a) as the
list of ranges it holds on; every set of addresses is such a list. -/
structure Params where
  nr            : RoundCounts
  aw            : Nat
  schedAlign    : Nat
  xtsDecPresent : Bool
  cceBase       : Nat
  backed        : List Region
deriving DecidableEq, Repr

/-- The size of the register window in bytes (30_encoding R85). -/
def windowBytes : Nat := 0x48

/-- The defaults of table P where it gives one (NR, AW, SCHED_ALIGN, XTS_DEC_PRESENT); CCE_BASE and
Backed are OPEN there and take the values of log entry 5. DESIGN CHOICE for those two. -/
def Params.default : Params where
  nr            := .aes
  aw            := 64
  schedAlign    := 16
  xtsDecPresent := false
  cceBase       := 0xFFFFFFFFFFFFF000
  backed        := [⟨0, 2 ^ 64⟩]

/-- The four round primitives: total functions of a state Block and a round-key Block
(40_block_core R103, decision D31). The chaining rules hold for any such record; the engine's own
is the AES record of Machine/Aes.lean, and Machine/Configured.lean is the machine over any record. -/
structure RoundPrims where
  round        : Block → Block → Block
  lastRound    : Block → Block → Block
  invRound     : Block → Block → Block
  invLastRound : Block → Block → Block

/-- FREE VALUE: what the n-th draw of a host read-back of an operand register that nothing has
written returns: "a value the spec does not constrain, possibly different at each read"
(10_state R38). Log entry 26. -/
opaque freeWord : Nat → Word64

/-- FREE VALUE: the read-back of CMD before any write (10_state R36, R38). Log entry 26. -/
opaque freeCommandWord : Nat → BitVec 32

/-- FREE VALUE: the byte that the n-th reset in flight leaves at address `a` of the abandoned
command's output range (70_reset_and_hazards R263). Log entry 11. -/
opaque freeByte : (n : Nat) → (a : Nat) → Byte

end Sys2Proof.Config
end

