-- ==== Sys2Proof/Syntax.lean ====
section
/-! DEFINITION. The syntax of CCE: its seven commands (spec/30_encoding.md R80, R82), the operand
registers they name (10_state R21), and what the surroundings can do to the engine
(30_encoding R86, R89; 60_exceptions R248). -/

namespace Sys2Proof

/-- Key size class KC: 128-, 192-, 256-bit keys (00_scope R8). -/
inductive KeyClass where
  | k128 | k192 | k256
deriving DecidableEq, Repr

/-- The chaining mode, field MODE of the command word (30_encoding R80). -/
inductive Mode where
  | ecb | cbc | ctr | xts
deriving DecidableEq, Repr

/-- The direction of the data path, field DIR of the command word (30_encoding R80). -/
inductive Dir where
  | encrypt | decrypt
deriving DecidableEq, Repr

/-- The seven operand registers `x[0]` to `x[6]` (10_state R21). -/
inductive OperandReg where
  | src | dst | len | key1 | key2 | seed | off
deriving DecidableEq, Repr

/-- The commands: one constructor per row of spec/opcode_table.json (30_encoding R82). A command
word carries no operand but the key class; all others are operand registers (R83). -/
inductive Instr where
  | ecbEnc (kc : KeyClass)
  | ecbDec (kc : KeyClass)
  | cbcEnc (kc : KeyClass)
  | cbcDec (kc : KeyClass)
  | ctr (kc : KeyClass)
  | xtsEnc (kc : KeyClass)
  | xtsDec (kc : KeyClass)
deriving DecidableEq, Repr

/-- A bus access of the host to the register window: a byte offset from CCE_BASE and an access
width in bits (30_encoding R85, R86). The value of a write is a bus word of which a narrower
access uses the low bits. -/
inductive WindowAccess where
  | write (offset width : Nat) (value : Word64)
  | read (offset width : Nat)
deriving DecidableEq, Repr

/-- One thing that happens next at or around the engine. State holds the list of them: which agent
moves next is plain data. Log entries 7 and 8. -/
inductive Event where
  /-- A host access to the register window. A write of a command word to CMD is the issue alone
  (10_state R27), and binds the host until a STATUS read returns 0 (60_exceptions R236). -/
  | window (access : WindowAccess)
  /-- The host's synchronous call (10_state R13): the command word is written to CMD, the engine runs
  the command to its completion and the host reads STATUS until BUSY = 0, all as one step
  (60_exceptions R237). -/
  | call (word : BitVec 32)
  /-- The engine takes one phase action (10_state R30). -/
  | tick
  /-- The host's `wait`: STATUS is read until it returns BUSY = 0 (30_encoding R89). -/
  | wait
  /-- An agent other than the engine stores bytes to memory, lowest address first (R89 `st`). -/
  | store (addr : Nat) (bytes : List Byte)
  /-- An agent other than the engine loads `count` bytes from memory. -/
  | load (addr count : Nat)
  /-- The platform's reset (70_reset_and_hazards R260, R263). -/
  | reset
deriving DecidableEq, Repr

end Sys2Proof
end

