-- ==== Sys2Proof/Machine/State.lean ====
section
/-! DEFINITION. The state of CCE as plain data (spec/10_state.md R20 to R38, 20_memory R50), the
reasons a step can stop (60_exceptions R231, R232), and the state after reset (10_state R36). -/

namespace Sys2Proof.Machine

/-- One value for each operand register, in the order of 10_state R21: the registers themselves,
their written marks, and the latch LAT are such files. -/
structure OperandFile (α : Type) where
  src  : α
  dst  : α
  len  : α
  key1 : α
  key2 : α
  seed : α
  off  : α
deriving DecidableEq, Repr

/-- The CTR counter in arithmetic format, held as two 64-bit segments: `lo` is bits 63:0 and `hi`
bits 127:64 (10_state R29, 41_arith_units R124). -/
structure Counter where
  hi : Word64
  lo : Word64
deriving DecidableEq, Repr

/-- PHASE, the sequencing phase (10_state R30). -/
inductive Phase where
  | idle | load | twkEnc | twkAdv | blk | tail
deriving DecidableEq, Repr

/-- KSEL, the multiplexor select: `tweak` is T (schedule at LAT.KEY2), `data` is D (schedule at
LAT.KEY1) (10_state R29, 40_block_core R108). -/
inductive KeySelect where
  | tweak | data
deriving DecidableEq, Repr

/-- The engine's working registers (10_state R29): none is visible to the host, and each is
written before it is read within every command that uses it. -/
structure Working where
  lat  : OperandFile Word64
  mode : Mode
  dir  : Dir
  kc   : KeyClass
  nb   : Word64
  rem  : BitVec 4
  s    : Block
  x    : Block
  y    : Block
  fb   : Block
  cnt  : Counter
  ksb  : Block
  pb   : Block
  tw   : Block
  ksel : KeySelect
  idx  : Word64
deriving DecidableEq, Repr

/-- Memory: the listed bytes, addresses strictly rising, no listed byte equal to what an unlisted
address reads as (20_memory R50; Memory.Wf in Machine/Ops.lean). -/
abbrev Memory := List Host.Cell

/-- What a host read returned: the model's own port, not state of the engine (log entry 7). -/
inductive Reply where
  | word (v : Word64)
  | command (w : BitVec 32)
  | bytes (bs : List Byte)
deriving DecidableEq, Repr

/-- The precondition violations of 60_exceptions R232 that a run of one engine can meet. PV6 is
never detected (40_block_core R110) and PV11 needs a second engine (log entry 9). -/
inductive Violation where
  /-- PV1: the word written to CMD is reserved. -/
  | pv1
  /-- PV2: LEN is not a multiple of 16 in ECB, CBC or XTS. -/
  | pv2
  /-- PV3: input and output overlap without being identical. -/
  | pv3
  /-- PV4: a range of the footprint wraps past 2^AW or is not wholly backed. -/
  | pv4
  /-- PV5: the output range shares a byte with a schedule the command reads. -/
  | pv5
  /-- PV7: the host touches an operand register or CMD while BUSY = 1, or before a STATUS read has
  returned BUSY = 0. -/
  | pv7
  /-- PV8: another agent writes the footprint or reads the output range, likewise. -/
  | pv8
  /-- PV9: the command lists an operand register that nothing has written since reset. -/
  | pv9
  /-- PV10: a schedule address is not a multiple of SCHED_ALIGN. -/
  | pv10
  /-- PV12: a window access that is none of the host transactions. -/
  | pv12
deriving DecidableEq, Repr

/-- Faults. The engine itself raises none (60_exceptions R230). -/
inductive Fault where
  /-- Raised by a store or load of an agent other than the engine whose range passes 2^AW, where
  20_memory R50 has no address. Safe: the model stops where the spec has no byte to speak of. -/
  | beyondMemory
deriving DecidableEq, Repr

/-- Refusals: the spec gives the situation no successor (60_exceptions R231). -/
inductive Refusal where
  /-- An instruction with no meaning yet, by its mnemonic; raised by exec's own arms alone. Safe. -/
  | notModelled (mnemonic : String)
  /-- A violated precondition, all that hold: raised by the issue of a command, by the host
  transactions and by memory accesses of other agents in the busy window. They carry no rank
  (60_exceptions R238): the second argument lists the others that hold beside the first. Safe: the
  spec calls the behaviour undefined and gives no effect. -/
  | violated (v : Violation) (others : List Violation)
  /-- Raised by a store or load of an agent other than the engine to bytes that are not ordinary
  memory (Backed false: a register window, a device, a hole), whose behaviour the spec does not
  give (20_memory R50). Safe. -/
  | notOrdinaryMemory
deriving DecidableEq, Repr

/-- The state of the machine: one engine, the memory it shares with the host, and what its
surroundings do next. `unread` is no state of the engine: a command has been issued by a write to CMD
and no STATUS read has returned BUSY = 0 since (60_exceptions R236; log entry 29). -/
structure State where
  params     : Config.Params
  regs       : OperandFile Word64
  written    : OperandFile Bool
  cmd        : BitVec 32
  cmdWritten : Bool
  busy       : Bool
  unread     : Bool
  phase      : Phase
  work       : Working
  mem        : Memory
  events     : List Event
  reply      : Option Reply
  free       : Nat
deriving DecidableEq, Repr

/-- Every register of a file at one value. -/
def OperandFile.fill {α : Type} (v : α) : OperandFile α := ⟨v, v, v, v, v, v, v⟩

/-- The Block of 16 zero bytes, `zeros(16)` (00_scope R9). -/
def zeroBlock : Block := Vector.replicate 16 0#8

/-- The working registers after reset: "unspecified; never read before written" (10_state R36).
DESIGN CHOICE: zeros (log entry 3). -/
def Working.reset : Working where
  lat  := .fill 0#64
  mode := .ecb
  dir  := .encrypt
  kc   := .k128
  nb   := 0#64
  rem  := 0#4
  s    := zeroBlock
  x    := zeroBlock
  y    := zeroBlock
  fb   := zeroBlock
  cnt  := ⟨0#64, 0#64⟩
  ksb  := zeroBlock
  pb   := zeroBlock
  tw   := zeroBlock
  ksel := .data
  idx  := 0#64

/-- The state after reset of an engine built with parameters `p` (10_state R36): BUSY = 0,
PHASE = IDLE, no operand register and no CMD word written. DESIGN CHOICE: the stored zeros behind
false written marks (log entries 1, 2) and what memory reads as before any store (log entry 4). -/
def State.resetWith (p : Config.Params) : State where
  params     := p
  regs       := .fill 0#64
  written    := .fill false
  cmd        := 0#32
  cmdWritten := false
  busy       := false
  unread     := false
  phase      := .idle
  work       := Working.reset
  mem        := []
  events     := []
  reply      := none
  free       := 0

/-- The machine right after reset, with the defaults of table P (00_scope R8). -/
def State.reset : State := State.resetWith Config.Params.default

end Sys2Proof.Machine
end

