-- ==== Sys2Proof/Machine/Arith.lean ====
section
/-! DEFINITION. The arithmetic units of CCE (spec/41_arith_units.md): XOR, byte swap, counter
increment and GF(2^128) doubling, with the Block and integer conversions of 00_scope R10. -/

namespace Sys2Proof.Machine

/-! ## Conversions between Blocks and integers -/

/-- A big-endian byte sequence as an integer. -/
def beNat (bs : List Byte) : Nat := bs.foldl (fun n b => n * 256 + b.toNat) 0

/-- A little-endian byte sequence as an integer. -/
def leNat (bs : List Byte) : Nat := bs.foldr (fun b n => b.toNat + 256 * n) 0

/-- `be128(B)`: the Block as a big-endian 128-bit integer (00_scope R10). -/
def be128 (b : Block) : Nat := beNat b.toList

/-- `le128(B)`: the Block as a little-endian 128-bit integer (00_scope R10). -/
def le128 (b : Block) : Nat := leNat b.toList

/-- `to_le128(v)`, the inverse of `le128` below 2^128 (00_scope R10). -/
def toLe128 (v : Nat) : Block := Vector.ofFn fun i => BitVec.ofNat 8 (v / 256 ^ i.val)

/-- `to_be128(v)`, the inverse of `be128` below 2^128 (00_scope R10). -/
def toBe128 (v : Nat) : Block := Vector.ofFn fun i => BitVec.ofNat 8 (v / 256 ^ (15 - i.val))

/-! ## XOR and byte swap -/

/-- `xor16(A, B)`: the bytewise exclusive-or of two Blocks (R120). -/
def xor16 (a b : Block) : Block := Vector.ofFn fun i => a[i] ^^^ b[i]

/-- `xorn(A, B, n)`: the first `n` bytes of the exclusive-or (R121). -/
def xorn (a b : Block) (n : Nat) : List Byte := (xor16 a b).toList.take n

/-- `rev16(B)`: the byte-swap unit, the only byte-order conversion in CCE (R122). -/
def rev16 (b : Block) : Block := Vector.ofFn fun i => b[15 - i.val]

/-! ## Counter increment -/

/-- The integer a counter in arithmetic format stands for: `hi * 2^64 + lo` (R124). -/
def Counter.value (c : Counter) : Nat := c.hi.toNat * 2 ^ 64 + c.lo.toNat

/-- The segments of an integer below 2^128 (R124). -/
def Counter.ofValue (v : Nat) : Counter := ⟨BitVec.ofNat 64 (v / 2 ^ 64), BitVec.ofNat 64 v⟩

/-- `to_arith(C) = le128(rev16(C))`: "on entry, swap byte order" (R123). -/
def toArith (c : Block) : Counter := Counter.ofValue (le128 (rev16 c))

/-- `to_wire(v) = rev16(to_le128(v))`: "before consuming the counter, swap byte order back"
(R123). -/
def toWire (c : Counter) : Block := rev16 (toLe128 c.value)

/-- The carry out of the low segment: 1 exactly when the incremented segment is 0 (R126). -/
def incCarry (lo' : Word64) : Word64 := if lo' = 0#64 then 1#64 else 0#64

/-- `inc128(v)`: the counter advanced by one, the carry crossing the 64-bit boundary and the carry
out of the high segment dropped (R125). -/
def inc128 (c : Counter) : Counter :=
  let lo' := c.lo + 1#64
  ⟨c.hi + incCarry lo', lo'⟩

/-! ## GF(2^128) doubling -/

/-- The carry out of the one-bit shift: the top bit of a 128-bit value (R129). -/
def dblCarry (t : Nat) : Nat := t / 2 ^ 127

/-- `dbl(T)`: the working tweak times x in GF(2^128), byte 0 the low byte, reduction constant 0x87
(R129). -/
def dbl (b : Block) : Block :=
  let t := le128 b
  let t' := (2 * t) % 2 ^ 128
  toLe128 (if dblCarry t = 1 then t' ^^^ 0x87 else t')

end Sys2Proof.Machine
end

