-- ==== Sys2Proof/Machine/Aes.lean ====
section
/-! DEFINITION. The AES record of the four round primitives (spec/46_aes_round_reference.md R205 to
R214), the default of the configuration of 40_block_core R103. PRESUMED by the spec itself, which
marks this file as general knowledge; log entry 10. -/

namespace Sys2Proof.Machine

/-! ## GF(2^8) arithmetic (R206) -/

/-- `xtime(a)`: multiplication by x modulo x^8 + x^4 + x^3 + x + 1. -/
def xtime (a : Byte) : Byte := if 0x80 ≤ a.toNat then (a <<< 1) ^^^ 0x1B#8 else a <<< 1

/-- The XOR over the low `n` bits of `b` that are set of `a` times the bit's power of x. -/
def gmulBits : Nat → Byte → Byte → Byte
  | 0, _, _ => 0#8
  | n + 1, a, b => (if b.toNat % 2 = 1 then a else 0#8) ^^^ gmulBits n (xtime a) (b >>> 1)

/-- `gmul(a, b)`: multiplication in GF(2^8). -/
def gmul (a b : Byte) : Byte := gmulBits 8 a b

/-- `ginv(a)`: the multiplicative inverse, 0 for 0, found by search. -/
def ginv (a : Byte) : Byte :=
  match (List.range 256).find? (fun n => gmul a (BitVec.ofNat 8 n) == 1#8) with
  | some n => BitVec.ofNat 8 n
  | none => 0#8

/-! ## The byte transformations (R207 to R209) -/

/-- The formula of the S-box (R207). -/
def sboxFormula (a : Byte) : Byte :=
  let b := ginv a
  b ^^^ b.rotateLeft 1 ^^^ b.rotateLeft 2 ^^^ b.rotateLeft 3 ^^^ b.rotateLeft 4 ^^^ 0x63#8

/-- Rows 0 to 7 of SBOX: entry `16 * h + l` in row `h`, column `l` (R207). -/
def sboxLow : List (List Nat) :=
  [ [0x63, 0x7c, 0x77, 0x7b, 0xf2, 0x6b, 0x6f, 0xc5, 0x30, 0x01, 0x67, 0x2b, 0xfe, 0xd7, 0xab, 0x76],
    [0xca, 0x82, 0xc9, 0x7d, 0xfa, 0x59, 0x47, 0xf0, 0xad, 0xd4, 0xa2, 0xaf, 0x9c, 0xa4, 0x72, 0xc0],
    [0xb7, 0xfd, 0x93, 0x26, 0x36, 0x3f, 0xf7, 0xcc, 0x34, 0xa5, 0xe5, 0xf1, 0x71, 0xd8, 0x31, 0x15],
    [0x04, 0xc7, 0x23, 0xc3, 0x18, 0x96, 0x05, 0x9a, 0x07, 0x12, 0x80, 0xe2, 0xeb, 0x27, 0xb2, 0x75],
    [0x09, 0x83, 0x2c, 0x1a, 0x1b, 0x6e, 0x5a, 0xa0, 0x52, 0x3b, 0xd6, 0xb3, 0x29, 0xe3, 0x2f, 0x84],
    [0x53, 0xd1, 0x00, 0xed, 0x20, 0xfc, 0xb1, 0x5b, 0x6a, 0xcb, 0xbe, 0x39, 0x4a, 0x4c, 0x58, 0xcf],
    [0xd0, 0xef, 0xaa, 0xfb, 0x43, 0x4d, 0x33, 0x85, 0x45, 0xf9, 0x02, 0x7f, 0x50, 0x3c, 0x9f, 0xa8],
    [0x51, 0xa3, 0x40, 0x8f, 0x92, 0x9d, 0x38, 0xf5, 0xbc, 0xb6, 0xda, 0x21, 0x10, 0xff, 0xf3, 0xd2] ]

/-- Rows 8 to 15 of SBOX (R207). -/
def sboxHigh : List (List Nat) :=
  [ [0xcd, 0x0c, 0x13, 0xec, 0x5f, 0x97, 0x44, 0x17, 0xc4, 0xa7, 0x7e, 0x3d, 0x64, 0x5d, 0x19, 0x73],
    [0x60, 0x81, 0x4f, 0xdc, 0x22, 0x2a, 0x90, 0x88, 0x46, 0xee, 0xb8, 0x14, 0xde, 0x5e, 0x0b, 0xdb],
    [0xe0, 0x32, 0x3a, 0x0a, 0x49, 0x06, 0x24, 0x5c, 0xc2, 0xd3, 0xac, 0x62, 0x91, 0x95, 0xe4, 0x79],
    [0xe7, 0xc8, 0x37, 0x6d, 0x8d, 0xd5, 0x4e, 0xa9, 0x6c, 0x56, 0xf4, 0xea, 0x65, 0x7a, 0xae, 0x08],
    [0xba, 0x78, 0x25, 0x2e, 0x1c, 0xa6, 0xb4, 0xc6, 0xe8, 0xdd, 0x74, 0x1f, 0x4b, 0xbd, 0x8b, 0x8a],
    [0x70, 0x3e, 0xb5, 0x66, 0x48, 0x03, 0xf6, 0x0e, 0x61, 0x35, 0x57, 0xb9, 0x86, 0xc1, 0x1d, 0x9e],
    [0xe1, 0xf8, 0x98, 0x11, 0x69, 0xd9, 0x8e, 0x94, 0x9b, 0x1e, 0x87, 0xe9, 0xce, 0x55, 0x28, 0xdf],
    [0x8c, 0xa1, 0x89, 0x0d, 0xbf, 0xe6, 0x42, 0x68, 0x41, 0x99, 0x2d, 0x0f, 0xb0, 0x54, 0xbb, 0x16] ]

/-- Rows 0 to 7 of INV_SBOX, the same layout (R208). -/
def invSboxLow : List (List Nat) :=
  [ [0x52, 0x09, 0x6a, 0xd5, 0x30, 0x36, 0xa5, 0x38, 0xbf, 0x40, 0xa3, 0x9e, 0x81, 0xf3, 0xd7, 0xfb],
    [0x7c, 0xe3, 0x39, 0x82, 0x9b, 0x2f, 0xff, 0x87, 0x34, 0x8e, 0x43, 0x44, 0xc4, 0xde, 0xe9, 0xcb],
    [0x54, 0x7b, 0x94, 0x32, 0xa6, 0xc2, 0x23, 0x3d, 0xee, 0x4c, 0x95, 0x0b, 0x42, 0xfa, 0xc3, 0x4e],
    [0x08, 0x2e, 0xa1, 0x66, 0x28, 0xd9, 0x24, 0xb2, 0x76, 0x5b, 0xa2, 0x49, 0x6d, 0x8b, 0xd1, 0x25],
    [0x72, 0xf8, 0xf6, 0x64, 0x86, 0x68, 0x98, 0x16, 0xd4, 0xa4, 0x5c, 0xcc, 0x5d, 0x65, 0xb6, 0x92],
    [0x6c, 0x70, 0x48, 0x50, 0xfd, 0xed, 0xb9, 0xda, 0x5e, 0x15, 0x46, 0x57, 0xa7, 0x8d, 0x9d, 0x84],
    [0x90, 0xd8, 0xab, 0x00, 0x8c, 0xbc, 0xd3, 0x0a, 0xf7, 0xe4, 0x58, 0x05, 0xb8, 0xb3, 0x45, 0x06],
    [0xd0, 0x2c, 0x1e, 0x8f, 0xca, 0x3f, 0x0f, 0x02, 0xc1, 0xaf, 0xbd, 0x03, 0x01, 0x13, 0x8a, 0x6b] ]

/-- Rows 8 to 15 of INV_SBOX (R208). -/
def invSboxHigh : List (List Nat) :=
  [ [0x3a, 0x91, 0x11, 0x41, 0x4f, 0x67, 0xdc, 0xea, 0x97, 0xf2, 0xcf, 0xce, 0xf0, 0xb4, 0xe6, 0x73],
    [0x96, 0xac, 0x74, 0x22, 0xe7, 0xad, 0x35, 0x85, 0xe2, 0xf9, 0x37, 0xe8, 0x1c, 0x75, 0xdf, 0x6e],
    [0x47, 0xf1, 0x1a, 0x71, 0x1d, 0x29, 0xc5, 0x89, 0x6f, 0xb7, 0x62, 0x0e, 0xaa, 0x18, 0xbe, 0x1b],
    [0xfc, 0x56, 0x3e, 0x4b, 0xc6, 0xd2, 0x79, 0x20, 0x9a, 0xdb, 0xc0, 0xfe, 0x78, 0xcd, 0x5a, 0xf4],
    [0x1f, 0xdd, 0xa8, 0x33, 0x88, 0x07, 0xc7, 0x31, 0xb1, 0x12, 0x10, 0x59, 0x27, 0x80, 0xec, 0x5f],
    [0x60, 0x51, 0x7f, 0xa9, 0x19, 0xb5, 0x4a, 0x0d, 0x2d, 0xe5, 0x7a, 0x9f, 0x93, 0xc9, 0x9c, 0xef],
    [0xa0, 0xe0, 0x3b, 0x4d, 0xae, 0x2a, 0xf5, 0xb0, 0xc8, 0xeb, 0xbb, 0x3c, 0x83, 0x53, 0x99, 0x61],
    [0x17, 0x2b, 0x04, 0x7e, 0xba, 0x77, 0xd6, 0x26, 0xe1, 0x69, 0x14, 0x63, 0x55, 0x21, 0x0c, 0x7d] ]

/-- The entry of a table of 16 rows of 16 at a byte. -/
def tableAt (rows : List (List Nat)) (a : Byte) : Byte :=
  BitVec.ofNat 8 ((rows.getD (a.toNat / 16) []).getD (a.toNat % 16) 0)

/-- `SBOX[a]` (R207). -/
def sbox (a : Byte) : Byte := tableAt (sboxLow ++ sboxHigh) a

/-- `INV_SBOX[a]` (R208). -/
def invSbox (a : Byte) : Byte := tableAt (invSboxLow ++ invSboxHigh) a

/-- `SubBytes` (R209). -/
def subBytes (b : Block) : Block := Vector.ofFn fun i => sbox b[i]

/-- `InvSubBytes` (R209). -/
def invSubBytes (b : Block) : Block := Vector.ofFn fun i => invSbox b[i]

/-! ## Rows and columns (R205, R210, R211) -/

/-- `ShiftRows(S)[r + 4c] = S[r + 4((c + r) mod 4)]`: row `r` rotated left by `r` columns; output
byte `i` has `r = i mod 4` and `c = i div 4` (R205, R210). -/
def shiftRows (b : Block) : Block :=
  Vector.ofFn fun i => b[i.val % 4 + 4 * ((i.val / 4 + i.val % 4) % 4)]'(by omega)

/-- `InvShiftRows(S)[r + 4c] = S[r + 4((c - r) mod 4)]` (R210). -/
def invShiftRows (b : Block) : Block :=
  Vector.ofFn fun i => b[i.val % 4 + 4 * ((i.val / 4 + (4 - i.val % 4)) % 4)]'(by omega)

/-- The byte of the column of output byte `i` that lies `k` rows below its own, wrapping. -/
def columnByte (b : Block) (i : Fin 16) (k : Nat) : Byte :=
  b[4 * (i.val / 4) + (i.val % 4 + k) % 4]'(by omega)

/-- `MixColumns` (R211): each row of the matrix is the first, 2 3 1 1, rotated right by its index,
so that row `r` multiplies the byte `k` rows below `r` by the `k`-th of 2, 3, 1, 1. -/
def mixColumns (b : Block) : Block := Vector.ofFn fun i =>
  gmul (columnByte b i 0) 2#8 ^^^ gmul (columnByte b i 1) 3#8 ^^^ columnByte b i 2
    ^^^ columnByte b i 3

/-- `InvMixColumns` (R211), the first row of the matrix 14 11 13 9. -/
def invMixColumns (b : Block) : Block := Vector.ofFn fun i =>
  gmul (columnByte b i 0) 14#8 ^^^ gmul (columnByte b i 1) 11#8 ^^^ gmul (columnByte b i 2) 13#8
    ^^^ gmul (columnByte b i 3) 9#8

/-! ## The round primitives (R212, R213) -/

/-- `Round(S, K)` (R212). -/
def aesRound (s k : Block) : Block := xor16 (mixColumns (subBytes (shiftRows s))) k

/-- `LastRound(S, K)`: no MixColumns (R212). -/
def aesLastRound (s k : Block) : Block := xor16 (subBytes (shiftRows s)) k

/-- `InvRound(S, K)`: the round key is added after InvMixColumns (R213). -/
def aesInvRound (s k : Block) : Block := xor16 (invMixColumns (invSubBytes (invShiftRows s))) k

/-- `InvLastRound(S, K)` (R213). -/
def aesInvLastRound (s k : Block) : Block := xor16 (invSubBytes (invShiftRows s)) k

/-- The inverse of `T = LastRound(S, K)`: the key is removed first (R214 (a)). -/
def undoLastRound (t k : Block) : Block := invShiftRows (invSubBytes (xor16 t k))

/-- The inverse round with the key of the encryption schedule, added before InvMixColumns: what
InvRound is under the transformed key (R214 (b)). -/
def straightInvRound (s k : Block) : Block :=
  invMixColumns (xor16 (invSubBytes (invShiftRows s)) k)

/-- The round primitives of this hardware (40_block_core R103). -/
def aes : Config.RoundPrims where
  round        := aesRound
  lastRound    := aesLastRound
  invRound     := aesInvRound
  invLastRound := aesInvLastRound

end Sys2Proof.Machine
end

