-- ==== Sys2Proof/Machine/Flags.lean ====
section
/-! DEFINITION. The flags of CCE: STATUS.BUSY is the only one (spec/10_state.md R26, R32). The two
carries of the arithmetic units are not readable (R32) and are in Machine/Arith.lean. -/

namespace Sys2Proof.Machine

/-- The value of STATUS: bit 0 is BUSY, bits 63:1 read as zero (R26). -/
def statusWord (s : State) : Word64 := if s.busy then 1#64 else 0#64

/-- BUSY is set by the write to CMD that issues a command (R26, R27). -/
def setBusy (s : State) : State := { s with busy := true }

/-- BUSY is cleared when the command has run to completion; the engine is idle again
(R26, R30 `-> IDLE : BUSY <- 0`). -/
def complete (s : State) : State := { s with busy := false, phase := .idle }

/-- The window of the host's duties: from the write to CMD that issues a command until a STATUS read
returns BUSY = 0 (60_exceptions R236, 20_memory R63). It outlasts BUSY. -/
def inBusyWindow (s : State) : Bool := s.busy || s.unread

end Sys2Proof.Machine
end

