-- ==== Sys2Proof/WellFormed.lean ====
section
/-! DEFINITION. Which commands exist in a build. The key class and the mode are already closed
types, so the one check left is that `xts.dec` exists only where the parameter XTS_DEC_PRESENT is
true (spec/45_xts.md R192, 30_encoding R84, 90_conflicts C1). -/

namespace Sys2Proof

/-- `i` is a command of a build whose parameter XTS_DEC_PRESENT is `xtsDec`. -/
def Instr.wf (xtsDec : Bool) : Instr → Bool
  | .ecbEnc _ => true
  | .ecbDec _ => true
  | .cbcEnc _ => true
  | .cbcDec _ => true
  | .ctr _ => true
  | .xtsEnc _ => true
  | .xtsDec _ => xtsDec

end Sys2Proof
end

