-- ==== Sys2Proof/Decode.lean ====
section
/-! DEFINITION. The decoder of the command word, total on 32-bit words and rejecting by name
(spec/30_encoding.md R80, R81, R84), the encoder (R80, R82), the opcode map as mask-and-pattern
rows (R81, R82), and the register window's layout (R85, R86). -/

namespace Sys2Proof

/-- Field MODE, bits 2:0 (R80). -/
def modeField (w : BitVec 32) : BitVec 3 := w.extractLsb' 0 3

/-- Field DIR, bit 3 (R80). -/
def dirField (w : BitVec 32) : BitVec 1 := w.extractLsb' 3 1

/-- Field KC, bits 5:4 (R80). -/
def kcField (w : BitVec 32) : BitVec 2 := w.extractLsb' 4 2

/-- Field ZERO, bits 31:6 (R80). -/
def zeroField (w : BitVec 32) : BitVec 26 := w.extractLsb' 6 26

/-- Why a word is reserved (R84). -/
inductive Reserved where
  | nonZeroBits   -- a non-zero bit in 31:6
  | keyClass      -- KC = 3
  | mode          -- MODE in 4 to 7
  | ctrDirection  -- MODE = 2 with DIR = 1
  | xtsDecAbsent  -- MODE = 3 with DIR = 1 in a build without xts.dec
deriving DecidableEq, Repr

/-- What a word decodes to. -/
inductive Decoded where
  | command (i : Instr)
  | reserved (why : Reserved)
deriving DecidableEq, Repr

/-- The key class of field KC; 3 is reserved (R80). -/
def keyClassOf (f : BitVec 2) : Option KeyClass :=
  match f.toNat with
  | 0 => some .k128
  | 1 => some .k192
  | 2 => some .k256
  | _ => none

/-- The command of (DIR, MODE), rule R81's case table. -/
def commandOf (xtsDec : Bool) (dir : Nat) (mode : Nat) (kc : KeyClass) : Decoded :=
  match dir, mode with
  | 0, 0 => .command (.ecbEnc kc)
  | _, 0 => .command (.ecbDec kc)
  | 0, 1 => .command (.cbcEnc kc)
  | _, 1 => .command (.cbcDec kc)
  | 0, 2 => .command (.ctr kc)
  | _, 2 => .reserved .ctrDirection
  | 0, 3 => .command (.xtsEnc kc)
  | _, 3 => if xtsDec then .command (.xtsDec kc) else .reserved .xtsDecAbsent
  | _, _ => .reserved .mode

/-- The decoder (R81), for a build whose XTS_DEC_PRESENT is `xtsDec`. -/
def decode (xtsDec : Bool) (w : BitVec 32) : Decoded :=
  if zeroField w ≠ 0 then .reserved .nonZeroBits
  else match keyClassOf (kcField w) with
    | none => .reserved .keyClass
    | some kc => commandOf xtsDec (dirField w).toNat (modeField w).toNat kc

/-- The command a word decodes to, if it is not reserved. -/
def Decoded.toOption : Decoded → Option Instr
  | .command i => some i
  | .reserved _ => none

/-! ## The encoder -/

/-- The value of field MODE (R80). -/
def Mode.code : Mode → Nat
  | .ecb => 0
  | .cbc => 1
  | .ctr => 2
  | .xts => 3

/-- The value of field DIR (R80). -/
def Dir.code : Dir → Nat
  | .encrypt => 0
  | .decrypt => 1

/-- The value of field KC (R80). -/
def KeyClass.code : KeyClass → Nat
  | .k128 => 0
  | .k192 => 1
  | .k256 => 2

/-- The mode of a command (R82). -/
def Instr.mode : Instr → Mode
  | .ecbEnc _ => .ecb
  | .ecbDec _ => .ecb
  | .cbcEnc _ => .cbc
  | .cbcDec _ => .cbc
  | .ctr _ => .ctr
  | .xtsEnc _ => .xts
  | .xtsDec _ => .xts

/-- The direction of a command (R82). -/
def Instr.dir : Instr → Dir
  | .ecbEnc _ => .encrypt
  | .ecbDec _ => .decrypt
  | .cbcEnc _ => .encrypt
  | .cbcDec _ => .decrypt
  | .ctr _ => .encrypt
  | .xtsEnc _ => .encrypt
  | .xtsDec _ => .decrypt

/-- The key class of a command (R82). -/
def Instr.keyClass : Instr → KeyClass
  | .ecbEnc kc => kc
  | .ecbDec kc => kc
  | .cbcEnc kc => kc
  | .cbcDec kc => kc
  | .ctr kc => kc
  | .xtsEnc kc => kc
  | .xtsDec kc => kc

/-- The command word of a command: MODE + 8 * DIR + 16 * KC, all other bits zero (R80, R82). -/
def encode (i : Instr) : BitVec 32 :=
  BitVec.ofNat 32 (i.mode.code + 8 * i.dir.code + 16 * i.keyClass.code)

/-! ## The opcode map as rows -/

/-- One row of spec/opcode_table.json: a word belongs to the row when `w AND mask = pattern`. -/
structure OpcodeRow where
  mnemonic : String
  pattern  : BitVec 32
  mask     : BitVec 32
deriving DecidableEq, Repr

/-- The seven rows of the opcode map, "mask = 0xFFFFFFCF for every row" (R81, R82). -/
def opcodeRows : List OpcodeRow :=
  [ ⟨"ecb.enc", 0x00000000#32, 0xFFFFFFCF#32⟩,
    ⟨"ecb.dec", 0x00000008#32, 0xFFFFFFCF#32⟩,
    ⟨"cbc.enc", 0x00000001#32, 0xFFFFFFCF#32⟩,
    ⟨"cbc.dec", 0x00000009#32, 0xFFFFFFCF#32⟩,
    ⟨"ctr",     0x00000002#32, 0xFFFFFFCF#32⟩,
    ⟨"xts.enc", 0x00000003#32, 0xFFFFFFCF#32⟩,
    ⟨"xts.dec", 0x0000000B#32, 0xFFFFFFCF#32⟩ ]

/-- The row a word selects, if any. -/
def opcodeRowOf (w : BitVec 32) : Option OpcodeRow :=
  opcodeRows.find? (fun r => w &&& r.mask == r.pattern)

/-- The mnemonic of a command (R82). -/
def Instr.mnemonic : Instr → String
  | .ecbEnc _ => "ecb.enc"
  | .ecbDec _ => "ecb.dec"
  | .cbcEnc _ => "cbc.enc"
  | .cbcDec _ => "cbc.dec"
  | .ctr _ => "ctr"
  | .xtsEnc _ => "xts.enc"
  | .xtsDec _ => "xts.dec"

/-- The command read from an opcode-table word of `nbits` bits, bits above them zero. The table
lists `xts.dec`, so the decoder of the build that has it is the one asked (log entry 6). -/
def decodeTableWord (nbits w : Nat) : Option Instr :=
  if w % 2 ^ nbits < 2 ^ 32 then (decode true (BitVec.ofNat 32 (w % 2 ^ nbits))).toOption
  else none

/-! ## The register window -/

/-- The offset of an operand register from CCE_BASE (10_state R21, 30_encoding R85). -/
def OperandReg.offset : OperandReg → Nat
  | .src => 0x00
  | .dst => 0x08
  | .len => 0x10
  | .key1 => 0x18
  | .key2 => 0x20
  | .seed => 0x28
  | .off => 0x30

/-- The offset of CMD (R85). -/
def cmdOffset : Nat := 0x38

/-- The offset of STATUS (R85). -/
def statusOffset : Nat := 0x40

/-- The operand register at an offset of the window, if one starts there (R85). -/
def operandAt (offset : Nat) : Option OperandReg :=
  match offset with
  | 0x00 => some .src
  | 0x08 => some .dst
  | 0x10 => some .len
  | 0x18 => some .key1
  | 0x20 => some .key2
  | 0x28 => some .seed
  | 0x30 => some .off
  | _ => none

/-- The host transactions: rule R86's three kinds, reads and writes told apart, and the write to
STATUS that is ignored (10_state R26). -/
inductive Transaction where
  | writeOperand (r : OperandReg) (v : Word64)
  | readOperand (r : OperandReg)
  | issue (w : BitVec 32)
  | readCommand
  | readStatus
  | writeStatus
deriving DecidableEq, Repr

/-- The transaction a window access is; `none` where R86 gives the access no meaning (PV12). -/
def WindowAccess.transaction : WindowAccess → Option Transaction
  | .write offset width value =>
    if width = 64 then
      if offset = statusOffset then some .writeStatus
      else (operandAt offset).map (fun r => .writeOperand r value)
    else if width = 32 then
      if offset = cmdOffset then some (.issue (value.setWidth 32)) else none
    else none
  | .read offset width =>
    if width = 64 then
      if offset = statusOffset then some .readStatus
      else (operandAt offset).map .readOperand
    else if width = 32 then
      if offset = cmdOffset then some .readCommand else none
    else none

end Sys2Proof
end

