-- ==== Sys2Proof/Machine/Operands.lean ====
section
/-! DEFINITION. The operands of the commands: which registers a command lists (spec/10_state.md
R21), its footprint (20_memory R56), and the preconditions checked at issue (60_exceptions R232).
Every operand form of CCE is a whole operand register (30_encoding R83). -/

namespace Sys2Proof.Machine

open Sys2Proof.Config (Region Params)

/-! ## Operand files -/

/-- The value of one register of a file. -/
def OperandFile.get {α : Type} (f : OperandFile α) : OperandReg → α
  | .src => f.src
  | .dst => f.dst
  | .len => f.len
  | .key1 => f.key1
  | .key2 => f.key2
  | .seed => f.seed
  | .off => f.off

/-- The file with one register replaced. -/
def OperandFile.set {α : Type} (f : OperandFile α) (r : OperandReg) (v : α) : OperandFile α :=
  match r with
  | .src => { f with src := v }
  | .dst => { f with dst := v }
  | .len => { f with len := v }
  | .key1 => { f with key1 := v }
  | .key2 => { f with key2 := v }
  | .seed => { f with seed := v }
  | .off => { f with off := v }

/-- The registers a mode's commands list (R21, column "read by commands"). -/
def modeOperands : Mode → List OperandReg
  | .ecb => [.src, .dst, .len, .key1]
  | .cbc => [.src, .dst, .len, .key1, .seed]
  | .ctr => [.src, .dst, .len, .key1, .seed]
  | .xts => [.src, .dst, .len, .key1, .key2, .seed, .off]

/-- The file after the command's latch: the listed registers copied, the others kept (R27). -/
def OperandFile.latchListed (rs : List OperandReg) (now latch : OperandFile Word64) :
    OperandFile Word64 :=
  rs.foldl (fun f r => f.set r (now.get r)) latch

/-! ## Key classes -/

/-- `NR(kc)`, the number of rounds, a parameter of the build (00_scope R8). -/
def rounds (p : Params) : KeyClass → Nat
  | .k128 => p.nr.k128
  | .k192 => p.nr.k192
  | .k256 => p.nr.k256

/-- `KS = 16 * (NR + 1)`, the size in bytes of a schedule of `nr` rounds (20_memory R56). -/
def scheduleBytes (nr : Nat) : Nat := 16 * (nr + 1)

/-! ## Regions of memory -/

/-- The address lies in the region. -/
def inRegion (g : Region) (a : Nat) : Bool := g.base ≤ a && a < g.base + g.size

/-- Two regions share a byte. -/
def regionsMeet (g h : Region) : Bool :=
  0 < g.size && 0 < h.size && g.base < h.base + h.size && h.base < g.base + g.size

/-- The register window's own addresses (30_encoding R85). -/
def windowRegion (p : Params) : Region := ⟨p.cceBase, Config.windowBytes⟩

/-- `Backed(a)`: ordinary memory the engine may access, false for the register window
(20_memory R50). -/
def backedAt (p : Params) (a : Nat) : Bool :=
  p.backed.any (inRegion · a) && !inRegion (windowRegion p) a

/-- The range does not pass the top of the address space and is wholly backed (20_memory R53). -/
def regionValid (p : Params) (g : Region) : Bool :=
  g.base + g.size ≤ 2 ^ p.aw && (List.range g.size).all (fun k => backedAt p (g.base + k))

/-! ## Footprints (20_memory R56) -/

/-- The input range. -/
def inputRegion (f : OperandFile Word64) : Region := ⟨f.src.toNat, f.len.toNat⟩

/-- The output range, the only bytes a command writes (R57). -/
def outputRegion (f : OperandFile Word64) : Region := ⟨f.dst.toNat, f.len.toNat⟩

/-- The schedules, of `nr` rounds, that a command reads. -/
def scheduleRegions (m : Mode) (nr : Nat) (f : OperandFile Word64) : List Region :=
  match m with
  | .xts => [⟨f.key1.toNat, scheduleBytes nr⟩, ⟨f.key2.toNat, scheduleBytes nr⟩]
  | _ => [⟨f.key1.toNat, scheduleBytes nr⟩]

/-- The seed a command reads; ECB has none (42_ecb R140). -/
def seedRegions (m : Mode) (f : OperandFile Word64) : List Region :=
  match m with
  | .ecb => []
  | _ => [⟨f.seed.toNat, 16⟩]

/-- Every range a command reads. -/
def readRegions (m : Mode) (nr : Nat) (f : OperandFile Word64) : List Region :=
  inputRegion f :: (scheduleRegions m nr f ++ seedRegions m f)

/-- Every range of a command's footprint. -/
def footprint (m : Mode) (nr : Nat) (f : OperandFile Word64) : List Region :=
  outputRegion f :: readRegions m nr f

/-! ## Preconditions checked at issue (60_exceptions R232) -/

/-- PV2: LEN not a multiple of 16 in ECB, CBC or XTS (20_memory R56). -/
def lengthBad (m : Mode) (f : OperandFile Word64) : Bool :=
  decide (m ≠ .ctr) && decide (f.len.toNat % 16 ≠ 0)

/-- PV3: input and output overlap without being identical (20_memory R59). -/
def overlapBad (f : OperandFile Word64) : Bool :=
  decide (f.dst ≠ f.src) && regionsMeet (inputRegion f) (outputRegion f)

/-- PV4: a latched address is `2^AW` or more (30_encoding R83, empty ranges included; log entry 30),
or a range of the footprint wraps or is not backed (20_memory R53). -/
def unbackedBad (p : Params) (m : Mode) (nr : Nat) (f : OperandFile Word64) : Bool :=
  (footprint m nr f).any (fun g => decide (2 ^ p.aw ≤ g.base) || !regionValid p g)

/-- PV5: the output range meets a schedule (20_memory R59). -/
def scheduleBad (m : Mode) (nr : Nat) (f : OperandFile Word64) : Bool :=
  (scheduleRegions m nr f).any (regionsMeet (outputRegion f))

/-- PV10: a schedule address is not a multiple of SCHED_ALIGN (20_memory R55). -/
def alignBad (p : Params) (m : Mode) (nr : Nat) (f : OperandFile Word64) : Bool :=
  (scheduleRegions m nr f).any (fun g => decide (g.base % p.schedAlign ≠ 0))

/-- The violations among PV2, PV3, PV4, PV5, PV10 for operands `f`. -/
def operandViolations (p : Params) (m : Mode) (kc : KeyClass) (f : OperandFile Word64) :
    List Violation :=
  (if lengthBad m f then [.pv2] else [])
    ++ (if overlapBad f then [.pv3] else [])
    ++ (if unbackedBad p m (rounds p kc) f then [.pv4] else [])
    ++ (if scheduleBad m (rounds p kc) f then [.pv5] else [])
    ++ (if alignBad p m (rounds p kc) f then [.pv10] else [])

/-- A register the command lists has not been written since reset (PV9, 10_state R28). -/
def unwrittenBad (m : Mode) (written : OperandFile Bool) : Bool :=
  (modeOperands m).any (fun r => !written.get r)

/-- Every precondition violated when command `i` is issued in state `s`. A busy engine issues
nothing (PV7); a word that is reserved in this build names no command (PV1); over a register that
holds no value (PV9) the other preconditions cannot be asked. Log entry 12. -/
def issueViolations (i : Instr) (s : State) : List Violation :=
  if s.busy then [.pv7]
  else if i.wf s.params.xtsDecPresent = false then [.pv1]
  else if unwrittenBad i.mode s.written then [.pv9]
  else operandViolations s.params i.mode i.keyClass s.regs

end Sys2Proof.Machine
end

