-- ==== Sys2Proof/Machine/Ops.lean ====
section
/-! DEFINITION. The named operations over memory and registers (spec/20_memory.md R50 to R53,
10_state.md R22 to R31), issue and completion of a command, and the engine's reset. CCE takes no
exception and has no return from one (60_exceptions R230, R239), so no such operation exists. -/

namespace Sys2Proof.Machine

open Sys2Proof.Config (Region Params)

/-! ## Memory -/

/-- What an address that no listed byte names reads as. DESIGN CHOICE 00 (log entry 4). -/
def unlistedByte : Byte := 0#8

/-- The byte at an address. -/
def Memory.get : Memory → Nat → Byte
  | [], _ => unlistedByte
  | (k, v) :: t, a => if a < k then unlistedByte else if a = k then v else Memory.get t a

/-- The memory with one byte replaced, in canonical form. -/
def Memory.set : Memory → Nat → Byte → Memory
  | [], a, b => if b = unlistedByte then [] else [(a, b)]
  | (k, v) :: t, a, b =>
    if a < k then (if b = unlistedByte then (k, v) :: t else (a, b) :: (k, v) :: t)
    else if a = k then (if b = unlistedByte then t else (a, b) :: t)
    else (k, v) :: Memory.set t a b

/-- The canonical form: addresses strictly rising, no byte listed that an unlisted one equals. -/
abbrev Memory.Wf (m : Memory) : Prop :=
  m.Pairwise (fun c d => c.1 < d.1) ∧ ∀ c ∈ m, c.2 ≠ unlistedByte

/-- `MemRead(addr, n)`: the bytes at `addr` to `addr + n - 1`, lowest address first (R51). -/
def memRead (m : Memory) (addr n : Nat) : List Byte := (List.range n).map (fun k => m.get (addr + k))

/-- `MemWrite(addr, len(v), v)`: byte `v[i]` at `addr + i`, no other byte changed (R52). -/
def memWrite (m : Memory) (addr : Nat) : List Byte → Memory
  | [] => m
  | b :: bs => memWrite (m.set addr b) (addr + 1) bs

/-- `MemRead(addr, 16)` as a Block: byte `B[i]` is the byte at `addr + i` (R51). -/
def readBlock (m : Memory) (addr : Nat) : Block := Vector.ofFn fun i => m.get (addr + i.val)

/-- `MemWrite(addr, 16, B)`. -/
def writeBlock (m : Memory) (addr : Nat) (b : Block) : Memory := memWrite m addr b.toList

/-- The Block whose first bytes are `bs` and whose others are zero: `bs || zeros(16 - len(bs))`
(44_ctr R167). -/
def padBlock (bs : List Byte) : Block := Vector.ofFn fun i => bs.getD i.val 0#8

/-- The address of block `idx` of a range: `base + 16 * idx`, exact (20_memory R53). -/
def blockAddr (base idx : Word64) : Nat := base.toNat + 16 * idx.toNat

/-! ## Host access to registers -/

/-- The host writes an operand register; it then holds a value (10_state R22, R23). -/
def writeOperand (r : OperandReg) (v : Word64) (s : State) : State :=
  { s with regs := s.regs.set r v, written := s.written.set r true }

/-- The host reads an operand register: the last value written, or a value the spec does not
constrain if nothing has written it (10_state R22, R38). -/
def readOperand (r : OperandReg) (s : State) : State :=
  if s.written.get r then { s with reply := some (.word (s.regs.get r)) }
  else { s with reply := some (.word (Config.freeWord s.free)), free := s.free + 1 }

/-- The host reads CMD: the last word written, or a value the spec does not constrain (10_state
R25, R36). -/
def readCommand (s : State) : State :=
  if s.cmdWritten then { s with reply := some (.command s.cmd) }
  else { s with reply := some (.command (Config.freeCommandWord s.free)), free := s.free + 1 }

/-- The host reads STATUS (10_state R26). A read that returns BUSY = 0 ends the window of the host's
duties (60_exceptions R236). -/
def readStatus (s : State) : State :=
  { s with reply := some (.word (statusWord s)), unread := s.unread && s.busy }

/-! ## Issue, load, completion -/

/-- The issue of a command, one action: CMD takes the word, the listed operands and the decoded
word are latched, BUSY is set, the command starts at LOAD (10_state R27). -/
def issue (i : Instr) (s : State) : State :=
  setBusy { s with
    cmd := encode i
    cmdWritten := true
    phase := .load
    work := { s.work with
      lat := .latchListed (modeOperands i.mode) s.regs s.work.lat
      mode := i.mode
      dir := i.dir
      kc := i.keyClass } }

/-- The seed read of phase LOAD, once and before any write (20_memory R58): the feedback value of
CBC, the counter of CTR, the raw tweak of XTS, which waits in X for TWK_ENC (log entry 15). -/
def loadSeed (s : State) : State :=
  let b := readBlock s.mem s.work.lat.seed.toNat
  match s.work.mode with
  | .ecb => s
  | .cbc => { s with work := { s.work with fb := b } }
  | .ctr => { s with work := { s.work with cnt := toArith b } }
  | .xts => { s with work := { s.work with x := b } }

/-- Phase LOAD: NB and REM from the latched length, IDX at 0, and the seed (10_state R30). -/
def loadPhase (s : State) : State :=
  loadSeed { s with work := { s.work with
    nb := BitVec.ofNat 64 (s.work.lat.len.toNat / 16)
    rem := BitVec.ofNat 4 (s.work.lat.len.toNat % 16)
    idx := 0#64 } }

/-- The issue of command `i` leads to `t`, or is refused because preconditions are violated, all of
them named (60_exceptions R231, R232, R238). -/
def ifDefined (i : Instr) (s t : State) : Host.Outcome State Fault Refusal :=
  match issueViolations i s with
  | [] => .next t
  | v :: others => .refused (.violated v others)

/-- A whole command as one step (60_exceptions R237): issued, loaded, its body run, and completed. -/
def runCommand (i : Instr) (body : State → State) (s : State) :
    Host.Outcome State Fault Refusal :=
  ifDefined i s (complete (body (loadPhase (issue i s))))

/-! ## The data moves of one block -/

/-- X takes the input block at IDX (20_memory R58). -/
def fetchBlock (s : State) : State :=
  { s with work := { s.work with x := readBlock s.mem (blockAddr s.work.lat.src s.work.idx) } }

/-- Y takes the output block, computed from the working registers, and is written at IDX
(20_memory R57). -/
def emitBlock (out : Working → Block) (s : State) : State :=
  { s with
    work := { s.work with y := out s.work }
    mem := writeBlock s.mem (blockAddr s.work.lat.dst s.work.idx) (out s.work) }

/-- `IDX <- IDX + 1` (10_state R30). -/
def nextIndex (s : State) : State := { s with work := { s.work with idx := s.work.idx + 1#64 } }

/-! ## Reset -/

/-- The bytes of a range after a reset in flight: each a value the spec does not constrain
(70_reset_and_hazards R263). -/
def clobber (n : Nat) (g : Region) (m : Memory) : Memory :=
  memWrite m g.base ((List.range g.size).map (fun k => Config.freeByte n (g.base + k)))

/-- The engine's reset (10_state R36, 70 R260 to R264). Memory is untouched but for the output
range of a command in flight (R261, R263); the surroundings (events, reply) are not the engine's. -/
def engineReset (s : State) : State :=
  { State.resetWith s.params with
    mem := if s.busy then clobber s.free (outputRegion s.work.lat) s.mem else s.mem
    events := s.events
    reply := s.reply
    free := if s.busy then s.free + 1 else s.free }

end Sys2Proof.Machine
end

