-- ==== Sys2Proof/Machine/BlockCore.lean ====
section
/-! DEFINITION. The Block Core and the round-pipeline multiplexor (spec/40_block_core.md): E and D
over any record of round primitives, and the state-level invocation the drivers use. -/

namespace Sys2Proof.Machine

open Sys2Proof.Config (RoundPrims)

/-- `rk(ka, r) = MemRead(ka + 16*r, 16)`: round key `r` of the schedule at `ka` (R100). -/
def roundKey (m : Memory) (ka r : Nat) : Block := readBlock m (ka + 16 * r)

/-- The intermediate rounds 1 to `n`, each with its round key (R101, R102). -/
def roundsUpTo (f : Block → Block → Block) (m : Memory) (ka : Nat) : Nat → Block → Block
  | 0, s => s
  | n + 1, s => f (roundsUpTo f m ka n s) (roundKey m ka (n + 1))

/-- `E(ka, kc, X)`: encryptBlock over the `nr = NR(kc)` rounds of the class (R101, R107). Total on
every schedule content (R110). -/
def blockE (P : RoundPrims) (m : Memory) (ka nr : Nat) (x : Block) : Block :=
  P.lastRound (roundsUpTo P.round m ka (nr - 1) (xor16 x (roundKey m ka 0))) (roundKey m ka nr)

/-- `D(ka, kc, X)`: decryptBlock, the same shape with the inverse primitives (R102). -/
def blockD (P : RoundPrims) (m : Memory) (ka nr : Nat) (x : Block) : Block :=
  P.invLastRound (roundsUpTo P.invRound m ka (nr - 1) (xor16 x (roundKey m ka 0)))
    (roundKey m ka nr)

/-- The schedule address a select chooses (R108). -/
def selectedSchedule (sel : KeySelect) (s : State) : Nat :=
  match sel with
  | .tweak => s.work.lat.key2.toNat
  | .data => s.work.lat.key1.toNat

/-- The Block Core under a schedule address, in a direction. -/
def blockOp (P : RoundPrims) (d : Dir) (m : Memory) (ka nr : Nat) (x : Block) : Block :=
  match d with
  | .encrypt => blockE P m ka nr x
  | .decrypt => blockD P m ka nr x

/-- One invocation of the round pipeline with its two selects, on an input computed from the
working registers: S ends as the result, KSEL as the select used (R101, R108). -/
def runCore (P : RoundPrims) (sel : KeySelect) (d : Dir) (input : Working → Block) (s : State) :
    State :=
  { s with work := { s.work with
    ksel := sel
    s := blockOp P d s.mem (selectedSchedule sel s) (rounds s.params s.work.kc) (input s.work) } }

end Sys2Proof.Machine
end

