-- ==== Sys2Proof/Machine/Cbc.lean ====
section
/-! DEFINITION. The CBC driver (spec/43_cbc.md): `cbc.enc`, `cbc.dec`. FB holds the seed after
phase LOAD (Machine/Ops.lean `loadSeed`). -/

namespace Sys2Proof.Machine

open Sys2Proof.Config (RoundPrims)

/-- FB takes a value computed from the working registers (R151, R153). -/
def setFeedback (value : Working → Block) (s : State) : State :=
  { s with work := { s.work with fb := value s.work } }

/-- One block of `cbc.enc`: `Y <- E(KEY1, KC, X xor FB)`, then `FB <- Y`, the value held in the
engine (R151). -/
def cbcEncBlock (P : RoundPrims) (s : State) : State :=
  fetchBlock s
    |> runCore P .data .encrypt (fun w => xor16 w.x w.fb)
    |> emitBlock (fun w => w.s)
    |> setFeedback (fun w => w.y)
    |> nextIndex

/-- One block of `cbc.dec`: `Y <- D(KEY1, KC, X) xor FB`, then `FB <- X`, the ciphertext block
captured before the write (R153, R154). -/
def cbcDecBlock (P : RoundPrims) (s : State) : State :=
  fetchBlock s
    |> runCore P .data .decrypt (fun w => w.x)
    |> emitBlock (fun w => xor16 w.s w.fb)
    |> setFeedback (fun w => w.x)
    |> nextIndex

/-- The blocks of `cbc.enc`, in increasing IDX (R151, R152): `C[i] = E(KEY1, KC, P[i] xor C[i-1])`
with `C[-1]` the IV (R155; Safety.lean `cbcChain`). -/
def cbcEncBody (P : RoundPrims) (s : State) : State := (cbcEncBlock P)^[s.work.nb.toNat] s

/-- The blocks of `cbc.dec` (R153): `P[i] = D(KEY1, KC, C[i]) xor C[i-1]` with `C[-1]` the IV (R155;
Safety.lean `previousBlock`). -/
def cbcDecBody (P : RoundPrims) (s : State) : State := (cbcDecBlock P)^[s.work.nb.toNat] s

/-- `cbc.enc` over any record of round primitives (R151). -/
def runCbcEnc (P : RoundPrims) (kc : KeyClass) (s : State) : Host.Outcome State Fault Refusal :=
  runCommand (.cbcEnc kc) (cbcEncBody P) s

/-- `cbc.enc` (R151). -/
def execCbcEnc (kc : KeyClass) (s : State) : Host.Outcome State Fault Refusal := runCbcEnc aes kc s

/-- `cbc.dec` over any record of round primitives (R153). -/
def runCbcDec (P : RoundPrims) (kc : KeyClass) (s : State) : Host.Outcome State Fault Refusal :=
  runCommand (.cbcDec kc) (cbcDecBody P) s

/-- `cbc.dec` (R153). -/
def execCbcDec (kc : KeyClass) (s : State) : Host.Outcome State Fault Refusal := runCbcDec aes kc s

end Sys2Proof.Machine
end

