-- ==== Sys2Proof/Machine/Ctr.lean ====
section
/-! DEFINITION. The CTR driver (spec/44_ctr.md): `ctr`, with its partial final block. CNT holds the
seed in arithmetic format after phase LOAD. -/

namespace Sys2Proof.Machine

open Sys2Proof.Config (RoundPrims)

/-- KSB takes the keystream block just computed (R167). -/
def takeKeystream (s : State) : State := { s with work := { s.work with ksb := s.work.s } }

/-- KSB takes the keystream block of the current counter in wire format (R167, R168). -/
def keystream (P : RoundPrims) (s : State) : State :=
  takeKeystream (runCore P .data .encrypt (fun w => toWire w.cnt) s)

/-- The counter is advanced by one (R167). -/
def advanceCounter (s : State) : State :=
  { s with work := { s.work with cnt := inc128 s.work.cnt } }

/-- One full block of `ctr`: keystream, input, XOR, output, then the counter (R168). -/
def ctrBlock (P : RoundPrims) (s : State) : State :=
  keystream P s
    |> fetchBlock
    |> emitBlock (fun w => xor16 w.x w.ksb)
    |> advanceCounter
    |> nextIndex

/-- The address of the partial block of a range: `base + 16 * NB` (R169). -/
def tailAddr (base nb : Word64) : Nat := base.toNat + 16 * nb.toNat

/-- PB takes the REM bytes of the partial block, zero-padded (R169). -/
def fetchTail (s : State) : State :=
  { s with work := { s.work with
    pb := padBlock (memRead s.mem (tailAddr s.work.lat.src s.work.nb) s.work.rem.toNat) } }

/-- `PB <- xor16(PB, KSB)` (R167). -/
def maskTail (s : State) : State :=
  { s with work := { s.work with pb := xor16 s.work.pb s.work.ksb } }

/-- The first REM bytes of PB are written, the padding discarded (R169). -/
def emitTail (s : State) : State :=
  { s with
    mem := memWrite s.mem (tailAddr s.work.lat.dst s.work.nb)
      (s.work.pb.toList.take s.work.rem.toNat) }

/-- The partial block, phase TAIL: exactly REM bytes read into a zero-padded buffer, one more
keystream block from the counter as it stands, exactly REM bytes written, the counter not
advanced (R169). -/
def ctrTail (P : RoundPrims) (s : State) : State :=
  fetchTail s
    |> keystream P
    |> maskTail
    |> emitTail

/-- The tail if there is a remainder (R167). -/
def ctrRemainder (P : RoundPrims) (s : State) : State :=
  if s.work.rem ≠ 0#4 then ctrTail P s else s

/-- The whole of `ctr` after LOAD: the full blocks, then the tail if REM > 0 (R167). -/
def ctrBody (P : RoundPrims) (s : State) : State :=
  ctrRemainder P ((ctrBlock P)^[s.work.nb.toNat] s)

/-- `ctr` over any record of round primitives (R167). -/
def runCtr (P : RoundPrims) (kc : KeyClass) (s : State) : Host.Outcome State Fault Refusal :=
  runCommand (.ctr kc) (ctrBody P) s

/-- `ctr` (R167). -/
def execCtr (kc : KeyClass) (s : State) : Host.Outcome State Fault Refusal := runCtr aes kc s

end Sys2Proof.Machine
end

