-- ==== Sys2Proof/Machine/Ecb.lean ====
section
/-! DEFINITION. The ECB driver (spec/42_ecb.md): `ecb.enc`, `ecb.dec`. -/

namespace Sys2Proof.Machine

open Sys2Proof.Config (RoundPrims)

/-- One block of `ecb.enc`: `Y <- E(KEY1, KC, X)` (R141, R142). -/
def ecbEncBlock (P : RoundPrims) (s : State) : State :=
  fetchBlock s
    |> runCore P .data .encrypt (fun w => w.x)
    |> emitBlock (fun w => w.s)
    |> nextIndex

/-- One block of `ecb.dec`: `Y <- D(KEY1, KC, X)` (R143, R142). -/
def ecbDecBlock (P : RoundPrims) (s : State) : State :=
  fetchBlock s
    |> runCore P .data .decrypt (fun w => w.x)
    |> emitBlock (fun w => w.s)
    |> nextIndex

/-- The blocks of `ecb.enc`, IDX from 0 to NB - 1 (R141). -/
def ecbEncBody (P : RoundPrims) (s : State) : State := (ecbEncBlock P)^[s.work.nb.toNat] s

/-- The blocks of `ecb.dec` (R143). -/
def ecbDecBody (P : RoundPrims) (s : State) : State := (ecbDecBlock P)^[s.work.nb.toNat] s

/-- `ecb.enc` over any record of round primitives (R141). -/
def runEcbEnc (P : RoundPrims) (kc : KeyClass) (s : State) : Host.Outcome State Fault Refusal :=
  runCommand (.ecbEnc kc) (ecbEncBody P) s

/-- `ecb.enc` (R141). -/
def execEcbEnc (kc : KeyClass) (s : State) : Host.Outcome State Fault Refusal := runEcbEnc aes kc s

/-- `ecb.dec` over any record of round primitives (R143). -/
def runEcbDec (P : RoundPrims) (kc : KeyClass) (s : State) : Host.Outcome State Fault Refusal :=
  runCommand (.ecbDec kc) (ecbDecBody P) s

/-- `ecb.dec` (R143). -/
def execEcbDec (kc : KeyClass) (s : State) : Host.Outcome State Fault Refusal := runEcbDec aes kc s

end Sys2Proof.Machine
end

