-- ==== Sys2Proof/Machine/Xts.lean ====
section
/-! DEFINITION. The XTS driver (spec/45_xts.md): `xts.enc`, and `xts.dec` of a build that has it.
X holds the raw tweak after phase LOAD (log entry 15). -/

namespace Sys2Proof.Machine

open Sys2Proof.Config (RoundPrims)

/-- TW takes a value computed from the working registers (R187). -/
def setTweak (value : Working → Block) (s : State) : State :=
  { s with work := { s.work with tw := value s.work } }

/-- `IDX <- 0` (10_state R30). -/
def clearIndex (s : State) : State := { s with work := { s.work with idx := 0#64 } }

/-- Step 1, phase TWK_ENC: the raw tweak encrypted once under the tweak key, the encrypt direction
whatever DIR is (R188, 40_block_core R108). -/
def tweakEncrypt (P : RoundPrims) (s : State) : State :=
  runCore P .tweak .encrypt (fun w => w.x) s
    |> setTweak (fun w => w.s)
    |> clearIndex

/-- One doubling step of phase TWK_ADV (R189, 10_state R30). -/
def tweakAdvance (s : State) : State := setTweak (fun w => dbl w.tw) s |> nextIndex

/-- Step 2: OFF doublings, then IDX back to 0 (R189). -/
def tweakOffset (s : State) : State := clearIndex (tweakAdvance^[s.work.lat.off.toNat] s)

/-- Steps 1 and 2: the working tweak of block 0 (R187). -/
def tweakPhases (P : RoundPrims) (s : State) : State := tweakOffset (tweakEncrypt P s)

/-- One block of `xts.enc`: both XORs with the same tweak, the doubling after the write
(R187, R190). -/
def xtsEncBlock (P : RoundPrims) (s : State) : State :=
  fetchBlock s
    |> runCore P .data .encrypt (fun w => xor16 w.x w.tw)
    |> emitBlock (fun w => xor16 w.s w.tw)
    |> setTweak (fun w => dbl w.tw)
    |> nextIndex

/-- One block of `xts.dec`: D in place of E for the data key, nothing else changed (R192). -/
def xtsDecBlock (P : RoundPrims) (s : State) : State :=
  fetchBlock s
    |> runCore P .data .decrypt (fun w => xor16 w.x w.tw)
    |> emitBlock (fun w => xor16 w.s w.tw)
    |> setTweak (fun w => dbl w.tw)
    |> nextIndex

/-- The data blocks of `xts.enc`, step 3 (R187). -/
def xtsEncBlocks (P : RoundPrims) (s : State) : State := (xtsEncBlock P)^[s.work.nb.toNat] s

/-- The data blocks of `xts.dec` (R192). -/
def xtsDecBlocks (P : RoundPrims) (s : State) : State := (xtsDecBlock P)^[s.work.nb.toNat] s

/-- The whole of `xts.enc` after LOAD (R187). -/
def xtsEncBody (P : RoundPrims) (s : State) : State := xtsEncBlocks P (tweakPhases P s)

/-- The whole of `xts.dec` after LOAD (R192). -/
def xtsDecBody (P : RoundPrims) (s : State) : State := xtsDecBlocks P (tweakPhases P s)

/-- `xts.enc` over any record of round primitives (R187). -/
def runXtsEnc (P : RoundPrims) (kc : KeyClass) (s : State) : Host.Outcome State Fault Refusal :=
  runCommand (.xtsEnc kc) (xtsEncBody P) s

/-- `xts.enc` (R187). -/
def execXtsEnc (kc : KeyClass) (s : State) : Host.Outcome State Fault Refusal := runXtsEnc aes kc s

/-- `xts.dec` over any record of round primitives (R192). -/
def runXtsDec (P : RoundPrims) (kc : KeyClass) (s : State) : Host.Outcome State Fault Refusal :=
  runCommand (.xtsDec kc) (xtsDecBody P) s

/-- `xts.dec` (R192). -/
def execXtsDec (kc : KeyClass) (s : State) : Host.Outcome State Fault Refusal := runXtsDec aes kc s

end Sys2Proof.Machine
end

