-- ==== Sys2Proof/Machine/Dispatch.lean ====
section
/-! DEFINITION. One arm per command (spec/30_encoding.md R82). -/

namespace Sys2Proof.Machine

def exec (i : Instr) (s : State) : Host.Outcome State Fault Refusal :=
  match i with
  | .ecbEnc kc => Sys2Proof.Machine.execEcbEnc kc s
  | .ecbDec kc => Sys2Proof.Machine.execEcbDec kc s
  | .cbcEnc kc => Sys2Proof.Machine.execCbcEnc kc s
  | .cbcDec kc => Sys2Proof.Machine.execCbcDec kc s
  | .ctr kc => Sys2Proof.Machine.execCtr kc s
  | .xtsEnc kc => Sys2Proof.Machine.execXtsEnc kc s
  | .xtsDec kc => Sys2Proof.Machine.execXtsDec kc s

end Sys2Proof.Machine
end

