-- ==== Sys2Proof/Machine/Phases.lean ====
section
/-! DEFINITION. The engine's phase machine (spec/10_state.md R30): one phase action of a command in
flight. Over whole commands it computes what exec does in one step. -/

namespace Sys2Proof.Machine

open Sys2Proof.Config (RoundPrims)

/-- The phase after the last full block: TAIL for a `ctr` with a remainder, else IDLE with BUSY
cleared (R30). -/
def enterTail (s : State) : State :=
  if s.work.mode = .ctr ∧ s.work.rem ≠ 0#4 then { s with phase := .tail } else complete s

/-- The phase before the first full block: BLK if there is one (R30). -/
def enterBlocks (s : State) : State :=
  if s.work.nb ≠ 0#64 then { s with phase := .blk } else enterTail s

/-- The block step of the command in flight, by its latched mode and direction (R30 `BLK`). -/
def blockStep (P : RoundPrims) (s : State) : State :=
  match s.work.mode, s.work.dir with
  | .ecb, .encrypt => ecbEncBlock P s
  | .ecb, .decrypt => ecbDecBlock P s
  | .cbc, .encrypt => cbcEncBlock P s
  | .cbc, .decrypt => cbcDecBlock P s
  | .ctr, _ => ctrBlock P s
  | .xts, .encrypt => xtsEncBlock P s
  | .xts, .decrypt => xtsDecBlock P s

/-- What follows LOAD (R30). -/
def afterLoad (s : State) : State :=
  if s.work.mode = .xts then { s with phase := .twkEnc } else enterBlocks s

/-- The action of phase TWK_ENC (R30). -/
def tweakEncryptPhase (P : RoundPrims) (s : State) : State :=
  { tweakEncrypt P s with phase := .twkAdv }

/-- The action of phase TWK_ADV: one doubling while IDX < LAT.OFF, else on to the blocks (R30). -/
def tweakAdvancePhase (s : State) : State :=
  if s.work.idx < s.work.lat.off then tweakAdvance s else enterBlocks (clearIndex s)

/-- What follows a block: the next one while IDX < NB (R30). -/
def afterBlock (s : State) : State := if s.work.idx < s.work.nb then s else enterTail s

/-- One phase action (R30). An idle engine does nothing. -/
def phaseAction (P : RoundPrims) (s : State) : State :=
  match s.phase with
  | .idle => s
  | .load => afterLoad (loadPhase s)
  | .twkEnc => tweakEncryptPhase P s
  | .twkAdv => tweakAdvancePhase s
  | .blk => afterBlock (blockStep P s)
  | .tail => complete (ctrTail P s)

/-- One phase action of this hardware's engine. -/
def engineTick (s : State) : State := phaseAction aes s

end Sys2Proof.Machine
end

