-- ==== Sys2Proof/Machine/Configured.lean ====
section
/-! DEFINITION. The engine over any record of round primitives (spec/40_block_core.md R103, 10_state
R35, 93_implementation_defined U18), and the engine of this hardware, its default instance. The round
counts are a parameter in State. -/

namespace Sys2Proof.Machine

open Sys2Proof.Config (RoundPrims)

/-- What the configuration decides of an engine: a command run whole, and one phase action. -/
structure Engine where
  run  : Instr → State → Host.Outcome State Fault Refusal
  tick : State → State

/-- A command over any record of round primitives. -/
def runWith (P : RoundPrims) (i : Instr) (s : State) : Host.Outcome State Fault Refusal :=
  match i with
  | .ecbEnc kc => runEcbEnc P kc s
  | .ecbDec kc => runEcbDec P kc s
  | .cbcEnc kc => runCbcEnc P kc s
  | .cbcDec kc => runCbcDec P kc s
  | .ctr kc => runCtr P kc s
  | .xtsEnc kc => runXtsEnc P kc s
  | .xtsDec kc => runXtsDec P kc s

/-- The engine configured with a record of round primitives. -/
def configured (P : RoundPrims) : Engine := ⟨runWith P, phaseAction P⟩

/-- The engine of this hardware: the AES instance. -/
def hardware : Engine := ⟨exec, engineTick⟩

end Sys2Proof.Machine
end

