-- ==== Sys2Proof/Machine/HostPort.lean ====
section
/-! DEFINITION. What crosses the boundary of the engine (spec/60_exceptions.md R236, R248): window
accesses (30_encoding R86), memory accesses of other agents, `wait`, reset, the free-running engine,
and one step of all of them. The engine `G` is the configured one (Machine/Configured.lean). -/

namespace Sys2Proof.Machine

open Sys2Proof.Config (Region)

/-- A refusal with one violated precondition. -/
def refuse (v : Violation) : Host.Outcome State Fault Refusal := .refused (.violated v [])

/-- A host access to an operand register or CMD: PV7 while BUSY = 1 (R236, 10_state R22, R25),
otherwise its effect. -/
def whenIdle (s : State) (t : State) : Host.Outcome State Fault Refusal :=
  if s.busy then refuse .pv7 else .next t

/-- The write of a word to CMD: refused while BUSY = 1 (R236), a reserved word refused as PV1 (10_state
R27, 30_encoding R84), otherwise what `run` makes of the command. -/
def writeCommand (run : Instr → State → Host.Outcome State Fault Refusal) (w : BitVec 32)
    (s : State) : Host.Outcome State Fault Refusal :=
  if s.busy then refuse .pv7
  else match decode s.params.xtsDecPresent w with
    | .reserved _ => refuse .pv1
    | .command i => run i s

/-- The issue action of a command (10_state R27), the command then in flight and the host bound until it
has read BUSY = 0 (60_exceptions R236). -/
def issueAction (i : Instr) (s : State) : Host.Outcome State Fault Refusal :=
  ifDefined i s { issue i s with unread := true }

/-- The host transactions (30_encoding R86). A write to STATUS has no effect, whatever BUSY is (10_state
R26; log entry 13). -/
def transact (t : Transaction) (s : State) : Host.Outcome State Fault Refusal :=
  match t with
  | .writeOperand r v => whenIdle s (writeOperand r v s)
  | .readOperand r => whenIdle s (readOperand r s)
  | .issue w => writeCommand issueAction w s
  | .readCommand => whenIdle s (readCommand s)
  | .readStatus => .next (readStatus s)
  | .writeStatus => .next s

/-- A window access; one that is no host transaction is PV12 (30_encoding R86). -/
def windowAccess (a : WindowAccess) (s : State) : Host.Outcome State Fault Refusal :=
  match a.transaction with
  | none => refuse .pv12
  | some t => transact t s

/-- The transaction reads or writes an operand register or CMD. -/
def Transaction.touchesRegisters : Transaction → Bool
  | .writeOperand _ _ | .readOperand _ | .issue _ | .readCommand => true
  | .readStatus | .writeStatus => false

/-- The host's duty as to the window: none of its registers but STATUS may be touched from the issue of
a command until a STATUS read has returned BUSY = 0, though the engine would answer once BUSY = 0
(60_exceptions R236, R238; log entry 29). -/
def hostAccess (a : WindowAccess) (s : State) : Host.Outcome State Fault Refusal :=
  if inBusyWindow s && a.transaction.any Transaction.touchesRegisters then refuse .pv7
  else windowAccess a s

/-- The host's synchronous call (00_scope R13, 60_exceptions R237), under the same duty. -/
def hostCallWord (G : Engine) (w : BitVec 32) (s : State) : Host.Outcome State Fault Refusal :=
  if inBusyWindow s then refuse .pv7 else writeCommand G.run w s

/-- The ranges no other agent may write in the busy window of the latched command (R236). -/
def flightFootprint (s : State) : List Region :=
  footprint s.work.mode (rounds s.params s.work.kc) s.work.lat

/-- A memory access of another agent: to addresses that exist, to ordinary memory (log entry 17),
and in the busy window clear of `forbidden` (PV8). -/
def agentAccess (g : Region) (forbidden : List Region) (s t : State) :
    Host.Outcome State Fault Refusal :=
  if 2 ^ s.params.aw < g.base + g.size then .fault .beyondMemory
  else if !regionValid s.params g then .refused .notOrdinaryMemory
  else if inBusyWindow s && forbidden.any (regionsMeet g) then refuse .pv8
  else .next t

/-- An agent stores bytes (R236: in the busy window not into the command's footprint). -/
def agentStore (a : Nat) (bs : List Byte) (s : State) : Host.Outcome State Fault Refusal :=
  agentAccess ⟨a, bs.length⟩ (flightFootprint s) s { s with mem := memWrite s.mem a bs }

/-- An agent loads bytes (R236: in the busy window not from the command's output range). -/
def agentLoad (a n : Nat) (s : State) : Host.Outcome State Fault Refusal :=
  agentAccess ⟨a, n⟩ [outputRegion s.work.lat] s
    { s with reply := some (.bytes (memRead s.mem a n)) }

/-- The host's `wait`: a STATUS read that returns BUSY = 1 is followed by one phase action of the
engine and another read; one that returns BUSY = 0 ends it (30_encoding R89, log entry 19). -/
def hostWait (G : Engine) (s : State) : State :=
  if s.busy then { G.tick (readStatus s) with events := .wait :: s.events } else readStatus s

/-- The effect of one event, already taken from the list. -/
def runEvent (G : Engine) (e : Event) (s : State) : Host.Outcome State Fault Refusal :=
  match e with
  | .window a => hostAccess a s
  | .call w => hostCallWord G w s
  | .tick => .next (G.tick s)
  | .wait => .next (hostWait G s)
  | .store a bs => agentStore a bs s
  | .load a n => agentLoad a n s
  | .reset => .next (engineReset s)

/-- One step: the next event happens; with none listed a busy engine goes on and an idle one stays as
it is (60_exceptions R235, R247; log entry 18). -/
def stepOf (G : Engine) (s : State) : Host.Outcome State Fault Refusal :=
  match s.events with
  | [] => .next (G.tick s)
  | e :: rest => runEvent G e { s with events := rest }

/-- The window access that writes a command word to CMD (the issue alone). -/
def commandWrite (w : BitVec 32) : Event := .window (.write cmdOffset 32 (w.setWidth 64))

/-- The written marks with those of a list set. -/
def markWritten (rs : List OperandReg) (f : OperandFile Bool) : OperandFile Bool :=
  rs.foldl (fun f r => f.set r true) f

/-- An idle engine of a build that has the command, whose host has no duty open, has written every
operand register the command lists (with the values they hold) and next calls the command (log
entries 6 and 7). -/
def placeCommand (nbits w : Nat) (s : State) : State :=
  let i := decodeTableWord nbits w
  { s with
    params := { s.params with xtsDecPresent := s.params.xtsDecPresent ||
      (match i with | some (.xtsDec _) => true | _ => false) }
    written := markWritten (match i with | some c => modeOperands c.mode | none => []) s.written
    busy := false
    unread := false
    phase := .idle
    events := .call (BitVec.ofNat 32 (w % 2 ^ nbits)) :: s.events }

end Sys2Proof.Machine
end

