-- ==== Sys2Proof/Machine/Step.lean ====
section
/-! DEFINITION. One step of the machine (Machine/HostPort.lean `stepOf`), and the placing of a command
word. -/

namespace Sys2Proof.Machine

open Sys2Proof.Config (RoundPrims)

/-- One step of this hardware. -/
def step (s : State) : Host.Outcome State Fault Refusal := stepOf hardware s

/-- One step of the machine configured with a record of round primitives (10_state R35). -/
def stepWith (P : RoundPrims) (s : State) : Host.Outcome State Fault Refusal :=
  stepOf (configured P) s

/-- `s` with the command word `w` as the host's next call (log entry 7). -/
def State.withFetchWord (s : State) (nbits w : Nat) : State := placeCommand nbits w s

end Sys2Proof.Machine
end

