-- ==== Sys2Proof/Machine/KeySchedule.lean ====
section
/-! DEFINITION. The reference Key Schedule Generator (spec/46_aes_round_reference.md R215, R216):
NOT part of the engine. No command reaches it (R218); it serves the hypothesis SchedulePair
(40_block_core R106) and is general knowledge by the spec's own mark (log entry 10). -/

namespace Sys2Proof.Machine

/-- `Nk`, the number of 4-byte words of a raw key (R215). -/
def keyWords : KeyClass → Nat
  | .k128 => 4
  | .k192 => 6
  | .k256 => 8

/-- The round constant `RC[j] = xtime^(j-1)(01)` (R215). -/
def roundConstant (j : Nat) : Byte := xtime^[j - 1] 0x01#8

/-- A word of the schedule, 4 bytes (R215). -/
abbrev KeyWord := Vector Byte 4

/-- Bytewise exclusive-or of two words. -/
def xorWord (a b : KeyWord) : KeyWord := Vector.ofFn fun i => a[i] ^^^ b[i]

/-- SBOX on each byte of a word. -/
def subWord (t : KeyWord) : KeyWord := Vector.ofFn fun i => sbox t[i]

/-- The word rotated left one byte. -/
def rotWord (t : KeyWord) : KeyWord := #v[t[1], t[2], t[3], t[0]]

/-- Word 0 with the round constant added to its first byte. -/
def addConstant (j : Nat) (t : KeyWord) : KeyWord := t.set 0 (t[0] ^^^ roundConstant j)

/-- The value `t` of R215 for word `i`, from word `i - 1`. -/
def scheduleMix (kc : KeyClass) (i : Nat) (t : KeyWord) : KeyWord :=
  if i % keyWords kc = 0 then addConstant (i / keyWords kc) (subWord (rotWord t))
  else if keyWords kc = 8 ∧ i % keyWords kc = 4 then subWord t
  else t

/-- Word `i` of the raw key. -/
def rawWord (key : List Byte) (i : Nat) : KeyWord := Vector.ofFn fun k => key.getD (4 * i + k.val) 0#8

/-- The first `n` words of the schedule, latest first (R215). -/
def expandWords (kc : KeyClass) (key : List Byte) : Nat → List KeyWord
  | 0 => []
  | n + 1 =>
    let ws := expandWords kc key n
    let w := if n < keyWords kc then rawWord key n
      else xorWord (ws.getD (keyWords kc - 1) (rawWord [] 0))
        (scheduleMix kc n (ws.getD 0 (rawWord [] 0)))
    w :: ws

/-- Word `w[i]` of the schedule (R215). -/
def scheduleWord (kc : KeyClass) (key : List Byte) (i : Nat) : KeyWord :=
  (expandWords kc key (i + 1)).getD 0 (rawWord [] 0)

/-- `ek[r]`, round key `r` of the encryption schedule (R215). -/
def encryptionKey (kc : KeyClass) (key : List Byte) (r : Nat) : Block := Vector.ofFn fun i =>
  (scheduleWord kc key (4 * r + i.val / 4))[i.val % 4]

/-- `dk[r]`, round key `r` of the decryption schedule of `nr` rounds (R216). -/
def decryptionKey (kc : KeyClass) (nr : Nat) (key : List Byte) (r : Nat) : Block :=
  if r = 0 then encryptionKey kc key nr
  else if r < nr then invMixColumns (encryptionKey kc key (nr - r))
  else encryptionKey kc key 0

/-- The `nr + 1` round keys of a schedule in memory, `16 * (NR + 1)` bytes (40_block_core R100). -/
def storeSchedule (nr ka : Nat) (key : Nat → Block) (m : Memory) : Memory :=
  (List.range (nr + 1)).foldl (fun m r => writeBlock m (ka + 16 * r) (key r)) m

end Sys2Proof.Machine
end

