-- ==== Sys2Proof/Safety.lean ====
section
/-! DEFINITION. What the claims speak of: the preconditions in the spec's own words
(spec/60_exceptions.md R232), the hypotheses a command needs to be defined, the invariant of the
machine, and safe runs. -/

namespace Sys2Proof.Safety

open Sys2Proof.Config (Region Params RoundPrims)
open Sys2Proof.Machine

/-! ## Ranges -/

/-- The address is one of the range's bytes. -/
def Inside (g : Region) (a : Nat) : Prop := g.base ≤ a ∧ a < g.base + g.size

/-- Two ranges share a byte. -/
def ShareByte (g h : Region) : Prop := ∃ a, Inside g a ∧ Inside h a

/-- The range lies within the address space and every byte of it is backed (20_memory R53). -/
def Valid (p : Params) (g : Region) : Prop :=
  g.base + g.size ≤ 2 ^ p.aw ∧ ∀ a, Inside g a → backedAt p a = true

/-! ## When a command is defined -/

/-- The preconditions on the operands of a command (20_memory R53, R55, R56, R59). -/
structure OperandsLegal (p : Params) (m : Mode) (kc : KeyClass) (f : OperandFile Word64) :
    Prop where
  /-- Not PV2. -/
  length    : m ≠ .ctr → f.len.toNat % 16 = 0
  /-- Not PV3. -/
  overlap   : f.len = 0#64 ∨ f.dst = f.src ∨ ¬ ShareByte (inputRegion f) (outputRegion f)
  /-- Not PV4: no latched address is past the address space, even of an empty range (30_encoding
  R83). -/
  inSpace   : ∀ g ∈ footprint m (rounds p kc) f, g.base < 2 ^ p.aw
  /-- Not PV4 (20_memory R53). -/
  valid     : ∀ g ∈ footprint m (rounds p kc) f, Valid p g
  /-- Not PV5. -/
  schedules : ∀ g ∈ scheduleRegions m (rounds p kc) f, ¬ ShareByte (outputRegion f) g
  /-- Not PV10. -/
  aligned   : ∀ g ∈ scheduleRegions m (rounds p kc) f, g.base % p.schedAlign = 0

/-- The command is defined when issued in this state: no precondition of 60_exceptions R232 that is
checked at issue is violated. -/
structure Ready (i : Instr) (s : State) : Prop where
  /-- The engine is idle (10_state R27, not PV7). -/
  idle     : s.busy = false
  /-- The build has the command (not PV1). -/
  present  : i.wf s.params.xtsDecPresent = true
  /-- Every listed register has been written (not PV9). -/
  written  : ∀ r ∈ modeOperands i.mode, s.written.get r = true
  /-- The operands keep PV2, PV3, PV4, PV5, PV10 off. -/
  operands : OperandsLegal s.params i.mode i.keyClass s.regs

/-! ## Blocks of the input and output ranges -/

/-- Block `j` of the input range, as memory `m` holds it. -/
def inputBlock (f : OperandFile Word64) (m : Memory) (j : Nat) : Block :=
  readBlock m (f.src.toNat + 16 * j)

/-- Block `j` of the output range, as memory `m` holds it. -/
def outputBlock (f : OperandFile Word64) (m : Memory) (j : Nat) : Block :=
  readBlock m (f.dst.toNat + 16 * j)

/-- The seed Block: the 16 bytes at SEED. -/
def seedBlock (f : OperandFile Word64) (m : Memory) : Block := readBlock m f.seed.toNat

/-- The number of full blocks, `LEN div 16`. -/
def blockCount (f : OperandFile Word64) : Nat := f.len.toNat / 16

/-- Keystream block `i` of a `ctr` command: the counter Block `C0 + i`, encrypted (44_ctr R173). -/
def keystreamBlock (P : RoundPrims) (nr : Nat) (f : OperandFile Word64) (m : Memory)
    (i : Nat) : Block :=
  blockE P m f.key1.toNat nr (toBe128 ((be128 (seedBlock f m) + i) % 2 ^ 128))

/-- The closed form of CBC encryption (43_cbc R155), counted from the IV: `cbcChain (j + 1)` is
`C[j] = E(KEY1, KC, P[j] xor C[j-1])`, and `cbcChain 0` is `C[-1]`, the IV. -/
def cbcChain (P : RoundPrims) (nr : Nat) (f : OperandFile Word64) (m : Memory) (iv : Block) :
    Nat → Block
  | 0 => iv
  | k + 1 => blockE P m f.key1.toNat nr (xor16 (inputBlock f m k) (cbcChain P nr f m iv k))

/-- The ciphertext block `C[j-1]` that `cbc.dec` XORs to `D(KEY1, KC, C[j])`: the IV before block 0, then
the input block before block `j` (43_cbc R155). -/
def previousBlock (f : OperandFile Word64) (m : Memory) (iv : Block) : Nat → Block
  | 0 => iv
  | k + 1 => inputBlock f m k

/-- The working tweak of data block `j` of an XTS command (45_xts R191). -/
def tweakOf (P : RoundPrims) (nr : Nat) (f : OperandFile Word64) (m : Memory) (j : Nat) :
    Block :=
  dbl^[f.off.toNat + j] (blockE P m f.key2.toNat nr (seedBlock f m))

/-- The hypothesis `SchedulePair(ek, dk, kc)` of 40_block_core R106 at `nr = NR(kc)`, for an encryption
schedule at `ek` in memory `m` and a decryption schedule at `dk` in memory `m'`. -/
def SchedulePair (P : RoundPrims) (nr : Nat) (m : Memory) (ek : Nat) (m' : Memory)
    (dk : Nat) : Prop :=
  (∀ x, blockD P m' dk nr (blockE P m ek nr x) = x) ∧
  (∀ x, blockE P m ek nr (blockD P m' dk nr x) = x)

/-! ## Commands over parts of a range -/

/-- The operands `g` cover `bytes` bytes of the ranges of operands `f`, from block `first` on, under
the same data schedule (42_ecb R144, 43_cbc R157, 44_ctr R177, 45_xts R193). -/
structure Portion (f g : OperandFile Word64) (first bytes : Nat) : Prop where
  src  : g.src.toNat = f.src.toNat + 16 * first
  dst  : g.dst.toNat = f.dst.toNat + 16 * first
  len  : g.len.toNat = bytes
  key1 : g.key1 = f.key1

/-- The operands of the one-block `cbc.dec` command for block `j` of operands `f`: SRC and DST at
block `j`, LEN 16, SEED at the ciphertext block before it, the IV's address for block 0
(43_cbc R156). -/
def cbcDecBlockOperands (f : OperandFile Word64) (j : Nat) : OperandFile Word64 :=
  { f with
    src  := f.src + BitVec.ofNat 64 (16 * j)
    dst  := f.dst + BitVec.ofNat 64 (16 * j)
    len  := 16#64
    seed := if j = 0 then f.seed else f.src + BitVec.ofNat 64 (16 * (j - 1)) }

/-- The commands `i` with the operands of a list issued one after the other. -/
def runEach (run : State → Host.Outcome State Fault Refusal) :
    List (OperandFile Word64) → State → Host.Outcome State Fault Refusal
  | [], s => .next s
  | f :: rest, s =>
    match run { s with regs := f } with
    | .next t => runEach run rest t
    | .fault r => .fault r
    | .refused r => .refused r

/-- How many phase actions a command takes: LOAD, for XTS the tweak encryption, OFF doublings and
the action that ends them, one per full block, and TAIL for a `ctr` with a remainder
(10_state R30). -/
def phaseActions (m : Mode) (f : OperandFile Word64) : Nat :=
  1 + (if m = .xts then f.off.toNat + 2 else 0) + blockCount f
    + (if m = .ctr ∧ f.len.toNat % 16 ≠ 0 then 1 else 0)

/-! ## The invariant -/

/-- What holds of a command in flight: its latched operands are legal, and past LOAD its counts
fit its phase (10_state R30). -/
structure InFlight (s : State) : Prop where
  operands : OperandsLegal s.params s.work.mode s.work.kc s.work.lat
  direction : s.work.mode = .ctr → s.work.dir = .encrypt
  present : s.work.mode = .xts → s.work.dir = .decrypt → s.params.xtsDecPresent = true
  counts : s.phase ≠ .load →
    s.work.nb.toNat = s.work.lat.len.toNat / 16 ∧ s.work.rem.toNat = s.work.lat.len.toNat % 16
  tweaking : s.phase = .twkEnc ∨ s.phase = .twkAdv → s.work.mode = .xts
  advancing : s.phase = .twkAdv → s.work.idx.toNat ≤ s.work.lat.off.toNat
  blocks : s.phase = .blk → s.work.idx.toNat < s.work.nb.toNat
  tail : s.phase = .tail → s.work.mode = .ctr ∧ s.work.rem ≠ 0#4

/-- The invariant of the machine: memory in canonical form and within the address space, BUSY set
exactly while PHASE is not IDLE, the host bound while BUSY is set, and a command in flight legal and
within its bounds. -/
structure Inv (s : State) : Prop where
  memory  : s.mem.Wf
  inSpace : ∀ c ∈ s.mem, c.1 < 2 ^ s.params.aw
  idle    : s.busy = false ↔ s.phase = .idle
  bound   : s.busy = true → s.unread = true
  flight  : s.busy = true → InFlight s

/-! ## Safe runs -/

/-- The step stops neither by a fault nor by a refusal. -/
def Goes (s : State) : Prop := ∃ t, step s = .next t

/-- `n` steps of the machine all go on. -/
def SafeFor (n : Nat) (s : State) : Prop := ∃ t, core.run n s = .next t

end Sys2Proof.Safety
end

