-- ==== Sys2Proof/Certificates/Slice0/Obligations.lean ====
section
/-! DEFINITION. The statements for the provers, from the numbered rules of spec/. `Ready i s` says that
no precondition of 60_exceptions R232 is violated when command `i` is issued in state `s`; `s.mem.Wf`
is the canonical form of memory, which every step keeps (StepKeepsTheInvariant). -/

section Statements

open Sys2Proof Sys2Proof.Machine Sys2Proof.Safety
open Sys2Proof.Config (Params RoundPrims Region)

/-! ## Encoding (spec/30_encoding.md) -/

/-- R80, R81, R82. A word decodes to a command exactly when the build has the command and the word
is its encoding: no bit of a word is dropped, and no command has two words. -/
def Obligations.LegalWordsAreTheEncodings : Prop :=
  ∀ (xtsDec : Bool) (w : BitVec 32) (i : Instr),
    decode xtsDec w = .command i ↔ (i.wf xtsDec = true ∧ w = encode i)

/-- 30_encoding R84. The reserved words, and what a write of one to CMD, where the host may write it,
does: it is refused as PV1, never run as a no-op (that PV1 is named alone is the model's choice, log entry
12). -/
def Obligations.ReservedWordsAreRefused : Prop :=
  (∀ (xtsDec : Bool) (w : BitVec 32),
    (∃ why, decode xtsDec w = .reserved why) ↔
      (w.toNat / 64 ≠ 0 ∨ w.toNat / 16 % 4 = 3 ∨ 4 ≤ w.toNat % 8 ∨
        (w.toNat % 8 = 2 ∧ w.toNat / 8 % 2 = 1) ∨
        (w.toNat % 8 = 3 ∧ w.toNat / 8 % 2 = 1 ∧ xtsDec = false))) ∧
  (∀ (s : State) (w : BitVec 32) (why : Reserved), s.busy = false →
    decode s.params.xtsDecPresent w = .reserved why →
    windowAccess (.write cmdOffset 32 (w.setWidth 64)) s = .refused (.violated .pv1 []))

/-- R81, the second form of the decoder: a legal word selects the row of the opcode table whose
pattern it has under the mask, KC is bits 5:4, and every other word is reserved. -/
def Obligations.DecoderSelectsTheOpcodeRow : Prop :=
  ∀ (xtsDec : Bool) (w : BitVec 32),
    (∀ i, decode xtsDec w = .command i →
      i.keyClass.code = w.toNat / 16 % 4 ∧
      ∃ r ∈ opcodeRows, r.mnemonic = i.mnemonic ∧ w &&& r.mask = r.pattern) ∧
    ((∃ why, decode xtsDec w = .reserved why) ↔
      ((∀ r ∈ opcodeRows, w &&& r.mask ≠ r.pattern) ∨ w.toNat / 16 % 4 = 3 ∨
        (w &&& 0xFFFFFFCF#32 = 0x0000000B#32 ∧ xtsDec = false)))

/-- R82. The 21 words of the opcode map, written out, decode to their commands, and those of
`xts.dec` only in a build that has it. -/
def Obligations.OpcodeMapWordsDecode : Prop :=
  (∀ p ∈ [(0x00000000#32, Instr.ecbEnc .k128), (0x00000010#32, .ecbEnc .k192),
      (0x00000020#32, .ecbEnc .k256), (0x00000008#32, .ecbDec .k128),
      (0x00000018#32, .ecbDec .k192), (0x00000028#32, .ecbDec .k256),
      (0x00000001#32, .cbcEnc .k128), (0x00000011#32, .cbcEnc .k192),
      (0x00000021#32, .cbcEnc .k256), (0x00000009#32, .cbcDec .k128),
      (0x00000019#32, .cbcDec .k192), (0x00000029#32, .cbcDec .k256),
      (0x00000002#32, .ctr .k128), (0x00000012#32, .ctr .k192), (0x00000022#32, .ctr .k256),
      (0x00000003#32, .xtsEnc .k128), (0x00000013#32, .xtsEnc .k192),
      (0x00000023#32, .xtsEnc .k256)],
    ∀ xtsDec, decode xtsDec p.1 = .command p.2) ∧
  (∀ p ∈ [(0x0000000B#32, Instr.xtsDec .k128), (0x0000001B#32, .xtsDec .k192),
      (0x0000002B#32, .xtsDec .k256)],
    decode true p.1 = .command p.2 ∧ decode false p.1 = .reserved .xtsDecAbsent)

/-- 60_exceptions R237: a step whose next event is the host's call of a command word, BUSY clear and no
duty of R236 open, is exec of the decoded command on the state with that event taken: the whole command
as one step (log entry 8). -/
def Obligations.StepRunsTheDecodedCommand : Prop :=
  ∀ (s : State) (w : BitVec 32) (i : Instr) (rest : List Event),
    s.events = .call w :: rest → s.busy = false → s.unread = false →
    decode s.params.xtsDecPresent w = .command i →
    step s = exec i { s with events := rest }

/-- The model's own placing of a command word (log entries 6, 7): the next step after it is exec of
the command the opcode-table word stands for, and memory and the operand registers are those of
before. -/
def Obligations.FetchWordStepRunsTheCommand : Prop :=
  ∀ (s : State) (w : Nat) (i : Instr), decodeTableWord 32 w = some i →
    step (s.withFetchWord 32 w) = exec i { s.withFetchWord 32 w with events := s.events } ∧
    (s.withFetchWord 32 w).mem = s.mem ∧ (s.withFetchWord 32 w).regs = s.regs

/-! ## What each command computes, and that it completes -/

/-- 42_ecb R141: `ecb.enc` completes, output block `j` being `E(KEY1, KC, input block j)`. -/
def Obligations.EcbEncComputes : Prop :=
  ∀ (kc : KeyClass) (s : State), s.mem.Wf → Ready (.ecbEnc kc) s →
    ∃ t, exec (.ecbEnc kc) s = .next t ∧
      ∀ j, j < blockCount s.regs → outputBlock s.regs t.mem j =
        blockE aes s.mem s.regs.key1.toNat (rounds s.params kc) (inputBlock s.regs s.mem j)

/-- 42_ecb R143: `ecb.dec` completes, output block `j` being `D(KEY1, KC, input block j)`. -/
def Obligations.EcbDecComputes : Prop :=
  ∀ (kc : KeyClass) (s : State), s.mem.Wf → Ready (.ecbDec kc) s →
    ∃ t, exec (.ecbDec kc) s = .next t ∧
      ∀ j, j < blockCount s.regs → outputBlock s.regs t.mem j =
        blockD aes s.mem s.regs.key1.toNat (rounds s.params kc) (inputBlock s.regs s.mem j)

/-- 43_cbc R155, the closed form of both commands: `cbc.enc` completes with
`C[i] = E(KEY1, KC, P[i] xor C[i-1])`, and `cbc.dec` with `P[i] = D(KEY1, KC, C[i]) xor C[i-1]`,
`C[-1]` being the IV. -/
def Obligations.CbcClosedForm : Prop :=
  ∀ (kc : KeyClass) (s : State), s.mem.Wf →
    (Ready (.cbcEnc kc) s → ∃ t, exec (.cbcEnc kc) s = .next t ∧
      ∀ j, j < blockCount s.regs → outputBlock s.regs t.mem j =
        blockE aes s.mem s.regs.key1.toNat (rounds s.params kc) (xor16 (inputBlock s.regs s.mem j)
          (if j = 0 then seedBlock s.regs s.mem else outputBlock s.regs t.mem (j - 1)))) ∧
    (Ready (.cbcDec kc) s → ∃ t, exec (.cbcDec kc) s = .next t ∧
      ∀ j, j < blockCount s.regs → outputBlock s.regs t.mem j =
        xor16 (blockD aes s.mem s.regs.key1.toNat (rounds s.params kc) (inputBlock s.regs s.mem j))
          (if j = 0 then seedBlock s.regs s.mem else inputBlock s.regs s.mem (j - 1)))

/-- 44_ctr R173: `ctr` completes, and for every byte `k` of the range, partial block included, the
output byte is the input byte XOR byte `k mod 16` of keystream block `k div 16`, the counter of
block `i` being the big-endian seed plus `i` modulo 2^128. -/
def Obligations.CtrComputes : Prop :=
  ∀ (kc : KeyClass) (s : State), s.mem.Wf → Ready (.ctr kc) s →
    ∃ t, exec (.ctr kc) s = .next t ∧
      ∀ k, k < s.regs.len.toNat → t.mem.get (s.regs.dst.toNat + k) =
        s.mem.get (s.regs.src.toNat + k) ^^^
          (keystreamBlock aes (rounds s.params kc) s.regs s.mem (k / 16))[k % 16]'(Nat.mod_lt _ (by decide))

/-- 45_xts R187, R191: `xts.enc` completes, output block `j` being
`E(KEY1, KC, in[j] xor T[j]) xor T[j]` with `T[j] = dbl^(OFF + j)(E(KEY2, KC, raw tweak))`. -/
def Obligations.XtsEncComputes : Prop :=
  ∀ (kc : KeyClass) (s : State), s.mem.Wf → Ready (.xtsEnc kc) s →
    ∃ t, exec (.xtsEnc kc) s = .next t ∧
      ∀ j, j < blockCount s.regs → outputBlock s.regs t.mem j =
        xor16 (blockE aes s.mem s.regs.key1.toNat (rounds s.params kc)
          (xor16 (inputBlock s.regs s.mem j) (tweakOf aes (rounds s.params kc) s.regs s.mem j)))
          (tweakOf aes (rounds s.params kc) s.regs s.mem j)

/-- 45_xts R192: `xts.dec`, in a build that has it, completes, with D for the data key and the tweak
still encrypted by E under the tweak key. -/
def Obligations.XtsDecComputes : Prop :=
  ∀ (kc : KeyClass) (s : State), s.mem.Wf → Ready (.xtsDec kc) s →
    ∃ t, exec (.xtsDec kc) s = .next t ∧
      ∀ j, j < blockCount s.regs → outputBlock s.regs t.mem j =
        xor16 (blockD aes s.mem s.regs.key1.toNat (rounds s.params kc)
          (xor16 (inputBlock s.regs s.mem j) (tweakOf aes (rounds s.params kc) s.regs s.mem j)))
          (tweakOf aes (rounds s.params kc) s.regs s.mem j)

/-! ## Frames -/

/-- 20_memory R57: no command writes a byte outside `[DST, DST + LEN)`. -/
def Obligations.CommandsWriteOnlyTheOutputRange : Prop :=
  ∀ (i : Instr) (s t : State), s.mem.Wf → exec i s = .next t →
    ∀ a, ¬ (s.regs.dst.toNat ≤ a ∧ a < s.regs.dst.toNat + s.regs.len.toNat) →
      t.mem.get a = s.mem.get a

/-- 10_state R22 to R26, R30: a command that completes leaves every operand register and every written
mark as it was, CMD at its own word, BUSY clear and the engine idle; nothing of the surroundings
changes (events, reply, the free-value counter and the host's duty `unread` are the model's own
fields). -/
def Obligations.CommandsKeepRegistersAndEndIdle : Prop :=
  ∀ (i : Instr) (s t : State), exec i s = .next t →
    t.regs = s.regs ∧ t.written = s.written ∧ t.cmd = encode i ∧ t.cmdWritten = true ∧
    t.busy = false ∧ t.unread = s.unread ∧ t.phase = .idle ∧ t.params = s.params ∧
    t.events = s.events ∧ t.reply = s.reply ∧ t.free = s.free

/-- 10_state R27, R29: a completed command has latched exactly the operands it lists and its decoded
word, counted its blocks and remainder, and left alone the working registers that the rule's table
gives to other modes only: FB outside CBC, CNT, KSB and PB outside CTR, TW outside XTS. No rule
promises what a working register holds after a command (93 U16): that they keep their values is the
model's choice, log entry 3. -/
def Obligations.CommandsUseOnlyTheirWorkingRegisters : Prop :=
  ∀ (i : Instr) (s t : State), exec i s = .next t →
    (∀ r, t.work.lat.get r =
      if r ∈ modeOperands i.mode then s.regs.get r else s.work.lat.get r) ∧
    t.work.mode = i.mode ∧ t.work.dir = i.dir ∧ t.work.kc = i.keyClass ∧
    t.work.nb.toNat = s.regs.len.toNat / 16 ∧ t.work.rem.toNat = s.regs.len.toNat % 16 ∧
    (i.mode ≠ .cbc → t.work.fb = s.work.fb) ∧
    (i.mode ≠ .ctr → t.work.cnt = s.work.cnt ∧ t.work.ksb = s.work.ksb ∧
      t.work.pb = s.work.pb) ∧
    (i.mode ≠ .xts → t.work.tw = s.work.tw)

/-! ## Preconditions (spec/60_exceptions.md) -/

/-- R231, R232, R233: a command goes on exactly when no precondition checked at issue is violated. That
an address past the address space is PV4 even of an empty range is 30_encoding R83, taken over
20_memory R53 in log entry 30. -/
def Obligations.ReadyCommandsAndOnlyTheyComplete : Prop :=
  ∀ (i : Instr) (s : State), (∃ t, exec i s = .next t) ↔ Ready i s

/-- R232, R231: a command over written registers of an idle engine that has it, with an illegal
operand, is refused, and the refusal names exactly the preconditions violated among PV2, PV3, PV4,
PV5 and PV10, each in the spec's words; with a register not written it is refused as PV9, absent
from the build as PV1, on a busy engine as PV7 (that these three are named alone is log entry 12;
that an address past the address space is PV4 even of an empty range is log entry 30). -/
def Obligations.RefusalNamesTheViolatedPreconditions : Prop :=
  ∀ (i : Instr) (s : State),
    (s.busy = true → exec i s = .refused (.violated .pv7 [])) ∧
    (s.busy = false → i.wf s.params.xtsDecPresent = false →
      exec i s = .refused (.violated .pv1 [])) ∧
    (s.busy = false → i.wf s.params.xtsDecPresent = true →
      (∃ r ∈ modeOperands i.mode, s.written.get r = false) →
      exec i s = .refused (.violated .pv9 [])) ∧
    (s.busy = false → i.wf s.params.xtsDecPresent = true →
      (∀ r ∈ modeOperands i.mode, s.written.get r = true) →
      ¬ OperandsLegal s.params i.mode i.keyClass s.regs →
      ∃ v others, exec i s = .refused (.violated v others) ∧
        (.pv2 ∈ v :: others ↔ i.mode ≠ .ctr ∧ s.regs.len.toNat % 16 ≠ 0) ∧
        (.pv3 ∈ v :: others ↔ s.regs.len ≠ 0#64 ∧ s.regs.dst ≠ s.regs.src ∧
          ShareByte (inputRegion s.regs) (outputRegion s.regs)) ∧
        (.pv4 ∈ v :: others ↔ ∃ g ∈ footprint i.mode (rounds s.params i.keyClass) s.regs,
          2 ^ s.params.aw ≤ g.base ∨ ¬ Valid s.params g) ∧
        (.pv5 ∈ v :: others ↔ ∃ g ∈ scheduleRegions i.mode (rounds s.params i.keyClass) s.regs,
          ShareByte (outputRegion s.regs) g) ∧
        (.pv10 ∈ v :: others ↔ ∃ g ∈ scheduleRegions i.mode (rounds s.params i.keyClass) s.regs,
          g.base % s.params.schedAlign ≠ 0) ∧
        ∀ u ∈ v :: others, u ∈ [Violation.pv2, .pv3, .pv4, .pv5, .pv10])

/-- R230: the engine raises no fault, whatever its state and operands. The one fault of the model is
another agent's access to an address that does not exist (log entry 17). -/
def Obligations.OnlyAgentsFault : Prop :=
  (∀ (i : Instr) (s : State) (r : Fault), exec i s ≠ .fault r) ∧
  (∀ (s : State) (r : Fault), step s = .fault r →
    ∃ e rest, s.events = e :: rest ∧
      ((∃ a bs, e = .store a bs ∧ 2 ^ s.params.aw < a + bs.length) ∨
        (∃ a n, e = .load a n ∧ 2 ^ s.params.aw < a + n)))

/-- 42_ecb R145, 43_cbc R158, 44_ctr R171, 45_xts R194: with LEN = 0 every command completes and
changes no byte of memory, whatever OFF. -/
def Obligations.ZeroLengthCommandsChangeNoMemory : Prop :=
  ∀ (i : Instr) (s : State), Ready i s → s.regs.len = 0#64 →
    ∃ t, exec i s = .next t ∧ t.mem = s.mem

/-! ## Laws of the drivers -/

/-- 42_ecb R146: a one-block ECB command is exactly one Block Core operation on memory. -/
def Obligations.OneBlockEcbIsOneBlockOperation : Prop :=
  ∀ (kc : KeyClass) (s : State), s.regs.len = 16#64 →
    (Ready (.ecbEnc kc) s → ∃ t, exec (.ecbEnc kc) s = .next t ∧
      t.mem = writeBlock s.mem s.regs.dst.toNat
        (blockE aes s.mem s.regs.key1.toNat (rounds s.params kc) (readBlock s.mem s.regs.src.toNat))) ∧
    (Ready (.ecbDec kc) s → ∃ t, exec (.ecbDec kc) s = .next t ∧
      t.mem = writeBlock s.mem s.regs.dst.toNat
        (blockD aes s.mem s.regs.key1.toNat (rounds s.params kc) (readBlock s.mem s.regs.src.toNat)))

/-- 42_ecb R144: an ECB command has the result of its split into two commands over sub-ranges, run
in either order. -/
def Obligations.EcbSplitsInEitherOrder : Prop :=
  ∀ (i : Instr) (s u w : State) (a b : Nat), i.mode = .ecb → s.mem.Wf →
    s.regs.len.toNat = 16 * (a + b) →
    u.params.nr = s.params.nr → w.params.nr = s.params.nr →
    Portion s.regs u.regs 0 (16 * a) → Portion s.regs w.regs a (16 * b) →
    Ready i s → Ready i u → Ready i w →
    ∃ t, exec i s = .next t ∧
      (∃ t1 t2, exec i { u with mem := s.mem } = .next t1 ∧
        exec i { w with mem := t1.mem } = .next t2 ∧ t2.mem = t.mem) ∧
      (∃ t1 t2, exec i { w with mem := s.mem } = .next t1 ∧
        exec i { u with mem := t1.mem } = .next t2 ∧ t2.mem = t.mem)

/-- 43_cbc R157: a CBC command over `a + b` blocks is the command over the first `a` and then the
one over the next `b` whose seed is ciphertext block `a - 1`: for `cbc.enc` the last output block of
the first, for `cbc.dec` its last input block, as it was before the first command. -/
def Obligations.CbcContinuesFromTheLastCiphertextBlock : Prop :=
  ∀ (i : Instr) (s u w t1 : State) (a b : Nat), i.mode = .cbc → s.mem.Wf → 0 < a →
    s.regs.len.toNat = 16 * (a + b) →
    u.params.nr = s.params.nr → w.params.nr = s.params.nr →
    Portion s.regs u.regs 0 (16 * a) → Portion s.regs w.regs a (16 * b) →
    Ready i s → Ready i u → Ready i w →
    seedBlock u.regs s.mem = seedBlock s.regs s.mem →
    exec i { u with mem := s.mem } = .next t1 →
    seedBlock w.regs t1.mem = (match i.dir with
      | .encrypt => outputBlock s.regs t1.mem (a - 1)
      | .decrypt => inputBlock s.regs s.mem (a - 1)) →
    ∃ t t2, exec i s = .next t ∧ exec i { w with mem := t1.mem } = .next t2 ∧ t2.mem = t.mem

/-- 44_ctr R177: a `ctr` command over LEN bytes is one over its first `16 * a` bytes and one over the
rest whose seed is the counter `C0 + a` modulo 2^128, in either order. -/
def Obligations.CtrSplitsInEitherOrder : Prop :=
  ∀ (kc : KeyClass) (s u w : State) (a n : Nat), s.mem.Wf →
    s.regs.len.toNat = 16 * a + n →
    u.params.nr = s.params.nr → w.params.nr = s.params.nr →
    Portion s.regs u.regs 0 (16 * a) → Portion s.regs w.regs a n →
    Ready (.ctr kc) s → Ready (.ctr kc) u → Ready (.ctr kc) w →
    ∃ t, exec (.ctr kc) s = .next t ∧
      (seedBlock u.regs s.mem = seedBlock s.regs s.mem →
        ∃ t1, exec (.ctr kc) { u with mem := s.mem } = .next t1 ∧
          (seedBlock w.regs t1.mem = toBe128 ((be128 (seedBlock s.regs s.mem) + a) % 2 ^ 128) →
            ∃ t2, exec (.ctr kc) { w with mem := t1.mem } = .next t2 ∧ t2.mem = t.mem)) ∧
      (seedBlock w.regs s.mem = toBe128 ((be128 (seedBlock s.regs s.mem) + a) % 2 ^ 128) →
        ∃ t1, exec (.ctr kc) { w with mem := s.mem } = .next t1 ∧
          (seedBlock u.regs t1.mem = seedBlock s.regs s.mem →
            ∃ t2, exec (.ctr kc) { u with mem := t1.mem } = .next t2 ∧ t2.mem = t.mem))

/-- 45_xts R193: an XTS command over `a + b` blocks with offset OFF writes the bytes of the command
over the first `a` blocks with OFF and the one over the next `b` with `OFF + a`, the same raw tweak
and schedules, in either order. -/
def Obligations.XtsSplitsInEitherOrder : Prop :=
  ∀ (i : Instr) (s u w : State) (a b : Nat), i.mode = .xts → s.mem.Wf →
    s.regs.len.toNat = 16 * (a + b) →
    u.params.nr = s.params.nr → w.params.nr = s.params.nr →
    Portion s.regs u.regs 0 (16 * a) → Portion s.regs w.regs a (16 * b) →
    u.regs.key2 = s.regs.key2 → w.regs.key2 = s.regs.key2 →
    u.regs.off = s.regs.off → w.regs.off.toNat = s.regs.off.toNat + a →
    Ready i s → Ready i u → Ready i w →
    ∃ t, exec i s = .next t ∧
      (seedBlock u.regs s.mem = seedBlock s.regs s.mem →
        ∃ t1, exec i { u with mem := s.mem } = .next t1 ∧
          (seedBlock w.regs t1.mem = seedBlock s.regs s.mem →
            ∃ t2, exec i { w with mem := t1.mem } = .next t2 ∧ t2.mem = t.mem)) ∧
      (seedBlock w.regs s.mem = seedBlock s.regs s.mem →
        ∃ t1, exec i { w with mem := s.mem } = .next t1 ∧
          (seedBlock u.regs t1.mem = seedBlock s.regs s.mem →
            ∃ t2, exec i { u with mem := t1.mem } = .next t2 ∧ t2.mem = t.mem))

/-- 43_cbc R156, for any record of round primitives: one `cbc.dec` over NB blocks gives the memory of
NB one-block commands in any order, each seeded with the ciphertext block before its own, provided
the output range is disjoint from the input range and (the rule's provision for block 0) from the
IV. The one-block commands all complete. AW is at most 64, so that block addresses fit the
registers. -/
def Obligations.CbcDecryptionIsOrderIndependent : Prop :=
  ∀ (P : RoundPrims) (kc : KeyClass) (s : State) (order : List Nat), s.mem.Wf →
    s.params.aw ≤ 64 → Ready (.cbcDec kc) s →
    ¬ ShareByte (inputRegion s.regs) (outputRegion s.regs) →
    ¬ ShareByte ⟨s.regs.seed.toNat, 16⟩ (outputRegion s.regs) →
    order.Perm (List.range (blockCount s.regs)) →
    ∃ t u, runCommand (.cbcDec kc) (cbcDecBody P) s = .next t ∧
      runEach (runCommand (.cbcDec kc) (cbcDecBody P)) (order.map (cbcDecBlockOperands s.regs)) s
        = .next u ∧ u.mem = t.mem

/-- 42_ecb R148: under SchedulePair, `ecb.dec` applied to the output of `ecb.enc` restores the
input. The decryption schedule is that of the memory the second command sees. -/
def Obligations.EcbRoundTrip : Prop :=
  ∀ (kc : KeyClass) (s u t : State), s.mem.Wf → exec (.ecbEnc kc) s = .next t →
    u.params.nr = s.params.nr →
    u.mem = t.mem → Ready (.ecbDec kc) u → u.regs.src = s.regs.dst → u.regs.len = s.regs.len →
    SchedulePair aes (rounds s.params kc) s.mem s.regs.key1.toNat u.mem u.regs.key1.toNat →
    ∃ v, exec (.ecbDec kc) u = .next v ∧
      ∀ j, j < blockCount s.regs → outputBlock u.regs v.mem j = inputBlock s.regs s.mem j

/-- 43_cbc R159: under SchedulePair and with the same IV, `cbc.dec` applied to the output of
`cbc.enc` restores the input. -/
def Obligations.CbcRoundTrip : Prop :=
  ∀ (kc : KeyClass) (s u t : State), s.mem.Wf → exec (.cbcEnc kc) s = .next t →
    u.params.nr = s.params.nr →
    u.mem = t.mem → Ready (.cbcDec kc) u → u.regs.src = s.regs.dst → u.regs.len = s.regs.len →
    seedBlock u.regs u.mem = seedBlock s.regs s.mem →
    SchedulePair aes (rounds s.params kc) s.mem s.regs.key1.toNat u.mem u.regs.key1.toNat →
    ∃ v, exec (.cbcDec kc) u = .next v ∧
      ∀ j, j < blockCount s.regs → outputBlock u.regs v.mem j = inputBlock s.regs s.mem j

/-- 45_xts R198: in a build that has `xts.dec`, under SchedulePair for the data key, `xts.dec` with
the same KEY2, raw tweak and OFF restores the input of `xts.enc`. -/
def Obligations.XtsRoundTrip : Prop :=
  ∀ (kc : KeyClass) (s u t : State), s.mem.Wf → exec (.xtsEnc kc) s = .next t →
    u.params.nr = s.params.nr →
    u.mem = t.mem → Ready (.xtsDec kc) u → u.regs.src = s.regs.dst → u.regs.len = s.regs.len →
    u.regs.key2 = s.regs.key2 → u.regs.off = s.regs.off →
    seedBlock u.regs u.mem = seedBlock s.regs s.mem →
    SchedulePair aes (rounds s.params kc) s.mem s.regs.key1.toNat u.mem u.regs.key1.toNat →
    ∃ v, exec (.xtsDec kc) u = .next v ∧
      ∀ j, j < blockCount s.regs → outputBlock u.regs v.mem j = inputBlock s.regs s.mem j

/-- 44_ctr R172: `ctr` applied to its own output with the same KEY1, seed and LEN restores the input,
for every LEN, with no hypothesis on the schedule. -/
def Obligations.CtrUndoesItself : Prop :=
  ∀ (kc : KeyClass) (s u t : State), s.mem.Wf → exec (.ctr kc) s = .next t →
    u.params.nr = s.params.nr →
    u.mem = t.mem → Ready (.ctr kc) u → u.regs.src = s.regs.dst → u.regs.len = s.regs.len →
    u.regs.key1 = s.regs.key1 → seedBlock u.regs u.mem = seedBlock s.regs s.mem →
    ∃ v, exec (.ctr kc) u = .next v ∧
      ∀ k, k < s.regs.len.toNat →
        v.mem.get (u.regs.dst.toNat + k) = s.mem.get (s.regs.src.toNat + k)

/-- 44_ctr R174: with the same schedule bytes, seed and length, equal plaintexts give equal
ciphertexts, and the XOR of two ciphertexts is the XOR of the two plaintexts. -/
def Obligations.CtrKeystreamReuse : Prop :=
  ∀ (kc : KeyClass) (s u : State), s.mem.Wf → u.mem.Wf →
    u.params.nr = s.params.nr →
    Ready (.ctr kc) s → Ready (.ctr kc) u → u.regs.len = s.regs.len →
    seedBlock u.regs u.mem = seedBlock s.regs s.mem →
    (∀ r, r ≤ rounds s.params kc →
      roundKey u.mem u.regs.key1.toNat r = roundKey s.mem s.regs.key1.toNat r) →
    ∃ t v, exec (.ctr kc) s = .next t ∧ exec (.ctr kc) u = .next v ∧
      (∀ k, k < s.regs.len.toNat →
        t.mem.get (s.regs.dst.toNat + k) ^^^ v.mem.get (u.regs.dst.toNat + k) =
          s.mem.get (s.regs.src.toNat + k) ^^^ u.mem.get (u.regs.src.toNat + k)) ∧
      ((∀ k, k < s.regs.len.toNat →
          s.mem.get (s.regs.src.toNat + k) = u.mem.get (u.regs.src.toNat + k)) →
        ∀ k, k < s.regs.len.toNat →
          t.mem.get (s.regs.dst.toNat + k) = v.mem.get (u.regs.dst.toNat + k))

/-- 44_ctr R175: an input of `n < 16` bytes at counter value `c` gives exactly the input XOR the first
`n` bytes of the keystream block of `c`, and no byte beyond `n` is written. -/
def Obligations.CtrPartialBlock : Prop :=
  ∀ (kc : KeyClass) (s : State) (n : Nat), s.mem.Wf → Ready (.ctr kc) s →
    s.regs.len.toNat = n → n < 16 →
    ∃ t, exec (.ctr kc) s = .next t ∧
      memRead t.mem s.regs.dst.toNat n =
        xorn (padBlock (memRead s.mem s.regs.src.toNat n))
          (blockE aes s.mem s.regs.key1.toNat (rounds s.params kc) (seedBlock s.regs s.mem)) n ∧
      ∀ a, s.regs.dst.toNat + n ≤ a → t.mem.get a = s.mem.get a

/-- 20_memory R62, R66, 10_state R34, 43_cbc R154, 44_ctr R179, 45_xts R197: the bytes a command
writes are a function of the contents of its input range, seed and schedules and of its length and
offset: nothing else of either state, no address, no earlier command and no working register has any
effect, and an in-place command writes what an out-of-place one does. -/
def Obligations.OutputIsAFunctionOfTheBytesRead : Prop :=
  ∀ (i : Instr) (s u : State), s.mem.Wf → u.mem.Wf → Ready i s → Ready i u →
    u.params.nr = s.params.nr →
    s.regs.len = u.regs.len → (i.mode = .xts → s.regs.off = u.regs.off) →
    (∀ k, k < s.regs.len.toNat →
      s.mem.get (s.regs.src.toNat + k) = u.mem.get (u.regs.src.toNat + k)) →
    (i.mode ≠ .ecb → seedBlock s.regs s.mem = seedBlock u.regs u.mem) →
    (∀ r, r ≤ rounds s.params i.keyClass →
      roundKey s.mem s.regs.key1.toNat r = roundKey u.mem u.regs.key1.toNat r) →
    (i.mode = .xts → ∀ r, r ≤ rounds s.params i.keyClass →
      roundKey s.mem s.regs.key2.toNat r = roundKey u.mem u.regs.key2.toNat r) →
    ∃ t v, exec i s = .next t ∧ exec i u = .next v ∧
      ∀ k, k < s.regs.len.toNat →
        t.mem.get (s.regs.dst.toNat + k) = v.mem.get (u.regs.dst.toNat + k)

/-- 20_memory R70, restated over two commands of one engine, the model's choice (log entry 9): two
commands whose output ranges share no byte with each other's footprints leave the same memory in
either order. -/
def Obligations.DisjointCommandsCommute : Prop :=
  ∀ (i j : Instr) (s : State) (f g : OperandFile Word64), s.mem.Wf →
    Ready i { s with regs := f } → Ready j { s with regs := g } →
    (∀ h ∈ footprint j.mode (rounds s.params j.keyClass) g, ¬ ShareByte (outputRegion f) h) →
    (∀ h ∈ footprint i.mode (rounds s.params i.keyClass) f, ¬ ShareByte (outputRegion g) h) →
    ∃ t1 t2 u1 u2, exec i { s with regs := f } = .next t1 ∧
      exec j { t1 with regs := g } = .next t2 ∧
      exec j { s with regs := g } = .next u1 ∧
      exec i { u1 with regs := f } = .next u2 ∧ t2.mem = u2.mem

/-! ## The phases (10_state R27, R30) -/

/-- 60_exceptions R237, R235, 40_block_core R103, 10_state R35: for any record of round primitives, the
command issued and then moved by phase actions is busy for exactly the number of actions its operands
give, and then is, in every field, the state that the whole command reaches in one step. exec and step
are those of the AES record. -/
def Obligations.PhasesRefineTheWholeCommand : Prop :=
  (∀ (P : RoundPrims) (i : Instr) (s : State), Ready i s →
    runWith P i s = .next ((phaseAction P)^[phaseActions i.mode s.regs] (issue i s)) ∧
    ∀ n, n < phaseActions i.mode s.regs → ((phaseAction P)^[n] (issue i s)).busy = true) ∧
  (∀ (i : Instr) (s : State), exec i s = runWith aes i s) ∧
  (∀ s : State, engineTick s = phaseAction aes s ∧ step s = stepWith aes s)

/-- 60_exceptions R235, 00_scope R14: every defined command terminates, from any state that meets the
invariant, within OFF + NB + 4 phase actions, and nothing suspends it: the steps of a machine with no
event listed (log entry 18) are its phase actions, to its completion and the clearing of BUSY, and so
are listed ticks, with no STATUS read. -/
def Obligations.EveryCommandTerminates : Prop :=
  (∀ (s : State), Inv s →
    ∃ n, n ≤ s.work.lat.off.toNat + s.work.lat.len.toNat / 16 + 4 ∧
      (engineTick^[n] s).busy = false ∧ (engineTick^[n] s).phase = .idle ∧
      (s.events = [] → core.run n s = .next (engineTick^[n] s))) ∧
  (∀ (s : State) (n : Nat) (rest : List Event), s.events = List.replicate n .tick ++ rest →
    core.run n s = .next { engineTick^[n] s with events := rest })

/-- 20_memory R50, R53, R57, 10_state R30: every step keeps the invariant: memory in canonical form
and inside the address space, BUSY set exactly while PHASE is not IDLE, the host bound while it is set
(60_exceptions R236), a command in flight over legal operands and within its bounds. -/
def Obligations.StepKeepsTheInvariant : Prop :=
  ∀ (s t : State), Inv s → step s = .next t → Inv t

/-- 10_state R22, R23, R24, R36, 00_scope R8: no step changes a parameter, and none changes an operand
register or a written mark but a host write of that register, and a reset, after which none counts
as written. -/
def Obligations.OnlyHostWritesAndResetChangeRegisters : Prop :=
  ∀ (s t : State), step s = .next t →
    t.params = s.params ∧
    ((t.regs = s.regs ∧ t.written = s.written) ∨
      (∃ r v rest, s.events = .window (.write (OperandReg.offset r) 64 v) :: rest ∧
        t.regs = s.regs.set r v ∧ t.written = s.written.set r true) ∨
      (∃ rest, s.events = .reset :: rest ∧ t.written = OperandFile.fill false))

/-- 20_memory R57, 70_reset_and_hazards R261, R263, 60_exceptions R236: a byte of memory that a step
changes lies in the output range of the command in flight, or in that of the command the step calls, or in the bytes another agent stores in that step. -/
def Obligations.MemoryChangesOnlyWhereSomeoneWrites : Prop :=
  ∀ (s t : State) (a : Nat), Inv s → step s = .next t → t.mem.get a ≠ s.mem.get a →
    (s.busy = true ∧ Inside (outputRegion s.work.lat) a) ∨
    (s.busy = false ∧ Inside (outputRegion s.regs) a ∧
      ∃ w rest, s.events = .call w :: rest) ∨
    (∃ addr bs rest, s.events = .store addr bs :: rest ∧ Inside ⟨addr, bs.length⟩ a)

/-- The state after reset meets the invariant, for every build (10_state R36). -/
def Obligations.ResetMeetsTheInvariant : Prop :=
  ∀ (p : Params), Inv (State.resetWith p)

/-- 10_state R27, 30_encoding R86: the 32-bit write of a legal word to CMD is the issue action: it latches
the listed operands and the decoded word, sets BUSY and starts at LOAD, and the host is bound until it
has read BUSY = 0 (60_exceptions R236; log entry 29); registers, memory and the rest of the engine stay
as they are, the unlisted fields of LAT too (log entry 25). The upper half of the bus word is not used
(log entry 27). -/
def Obligations.IssueLatchesAndStarts : Prop :=
  ∀ (s : State) (v : Word64) (i : Instr),
    decode s.params.xtsDecPresent (v.setWidth 32) = .command i → Ready i s →
    ∃ t, windowAccess (.write 0x38 32 v) s = .next t ∧ t.busy = true ∧ t.phase = .load ∧
      t.cmd = v.setWidth 32 ∧ t.cmdWritten = true ∧
      (∀ r, t.work.lat.get r =
        if r ∈ modeOperands i.mode then s.regs.get r else s.work.lat.get r) ∧
      t.work.mode = i.mode ∧ t.work.dir = i.dir ∧ t.work.kc = i.keyClass ∧
      t = { s with busy := true, unread := true, phase := .load,
                   cmd := v.setWidth 32, cmdWritten := true,
                   work := { s.work with lat := t.work.lat, mode := i.mode, dir := i.dir,
                                         kc := i.keyClass } }

/-- 10_state R30, the transition table: the phase that follows each phase action, the counts and
indices it leaves, and that BUSY is cleared on the way to IDLE and only there. That the raw tweak
waits in X (log entry 15) and that IDX is 0 after LOAD in every mode (log entry 16) are the model's
inferences. -/
def Obligations.PhaseTransitions : Prop :=
  ∀ (s : State), s.busy = true →
    (s.phase = .load →
      (engineTick s).work.nb.toNat = s.work.lat.len.toNat / 16 ∧
      (engineTick s).work.rem.toNat = s.work.lat.len.toNat % 16 ∧
      (engineTick s).work.idx = 0#64 ∧ (engineTick s).mem = s.mem ∧
      (engineTick s).phase =
        if s.work.mode = .xts then .twkEnc
        else if 16 ≤ s.work.lat.len.toNat then .blk
        else if s.work.mode = .ctr ∧ s.work.lat.len.toNat % 16 ≠ 0 then .tail else .idle) ∧
    (s.phase = .twkEnc →
      (engineTick s).work.tw = blockE aes s.mem s.work.lat.key2.toNat (rounds s.params s.work.kc) s.work.x ∧
      (engineTick s).work.ksel = .tweak ∧ (engineTick s).work.idx = 0#64 ∧
      (engineTick s).mem = s.mem ∧ (engineTick s).phase = .twkAdv) ∧
    (s.phase = .twkAdv → s.work.mode = .xts → (engineTick s).mem = s.mem ∧
      if s.work.idx.toNat < s.work.lat.off.toNat then
        (engineTick s).work.tw = dbl s.work.tw ∧
        (engineTick s).work.idx = s.work.idx + 1#64 ∧ (engineTick s).phase = .twkAdv
      else
        (engineTick s).work.tw = s.work.tw ∧ (engineTick s).work.idx = 0#64 ∧
        (engineTick s).phase = if s.work.nb = 0#64 then .idle else .blk) ∧
    (s.phase = .blk →
      (engineTick s).work.idx = s.work.idx + 1#64 ∧ (engineTick s).work.ksel = .data ∧
      (∀ a, s.mem.Wf → ¬ (blockAddr s.work.lat.dst s.work.idx ≤ a ∧
        a < blockAddr s.work.lat.dst s.work.idx + 16) → (engineTick s).mem.get a = s.mem.get a) ∧
      (engineTick s).phase =
        if (s.work.idx + 1#64).toNat < s.work.nb.toNat then .blk
        else if s.work.mode = .ctr ∧ s.work.rem ≠ 0#4 then .tail else .idle) ∧
    (s.phase = .tail → (engineTick s).phase = .idle ∧
      (engineTick s).work.cnt = s.work.cnt ∧ (engineTick s).work.idx = s.work.idx) ∧
    (s.phase ≠ .idle → ((engineTick s).busy = false ↔ (engineTick s).phase = .idle))

/-! ## The register window (10_state R22 to R26, 30_encoding R86, 60_exceptions R236) -/

/-- 10_state R22, R23, R25: at the engine's window with BUSY = 0 a 64-bit write of an operand register changes that register
alone, marks it written, and is what a read returns; CMD reads back the last word written; neither
read changes anything but the reply. -/
def Obligations.RegistersReadBackWhatWasWritten : Prop :=
  ∀ (s : State) (r : OperandReg) (v : Word64), s.busy = false →
    (∃ t, windowAccess (.write r.offset 64 v) s = .next t ∧
      t.regs.get r = v ∧ t.written.get r = true ∧
      (∀ q, q ≠ r → t.regs.get q = s.regs.get q ∧ t.written.get q = s.written.get q) ∧
      t = { s with regs := t.regs, written := t.written }) ∧
    (s.written.get r = true →
      windowAccess (.read r.offset 64) s = .next { s with reply := some (.word (s.regs.get r)) }) ∧
    (s.cmdWritten = true →
      windowAccess (.read 0x38 32) s = .next { s with reply := some (.command s.cmd) })

/-- 10_state R38: at the engine's window with BUSY = 0 the read of a register that nothing has written returns a free value, a
new one at each read (the counter that numbers them is the model's, log entry 26), and changes no
register. -/
def Obligations.UnwrittenRegistersReadFreeValues : Prop :=
  ∀ (s : State) (r : OperandReg), s.busy = false →
    (s.written.get r = false →
      windowAccess (.read r.offset 64) s =
        .next { s with reply := some (.word (Config.freeWord s.free)), free := s.free + 1 }) ∧
    (s.cmdWritten = false →
      windowAccess (.read 0x38 32) s =
        .next { s with reply := some (.command (Config.freeCommandWord s.free)),
                       free := s.free + 1 })

/-- 10_state R26, 60_exceptions R236: STATUS may be read at any time; bit 0 is BUSY, bits 63:1 are zero,
and the read changes nothing of the engine; one that returns 0 ends the host's duties (R236; log entry
29). A write to STATUS has no effect, whatever BUSY is (log entry 13). -/
def Obligations.StatusShowsBusyAlone : Prop :=
  ∀ (s : State),
    (∃ v : Word64, windowAccess (.read 0x40 64) s =
        .next { s with reply := some (.word v), unread := s.unread && s.busy } ∧
      v.toNat = (if s.busy = true then 1 else 0)) ∧
    ∀ v, windowAccess (.write 0x40 64 v) s = .next s ∧
      runEvent hardware (.window (.write 0x40 64 v)) s = .next s

/-- 60_exceptions R236, R238, 10_state R22, R25, PV7: while BUSY = 1 no access to an operand register or
CMD is answered, and the host makes none, nor a call, from the issue until a STATUS read has returned
BUSY = 0 (that PV7 is named alone, whatever the word written, is log entry 12); only such a read or a
reset ends that duty (log entry 29); and with no duty open every host access is the window's. -/
def Obligations.HostKeepsOffUntilBusyReadsClear : Prop :=
  (∀ (s : State) (r : OperandReg) (v : Word64) (w : BitVec 32),
    ∀ a ∈ [WindowAccess.write r.offset 64 v, .read r.offset 64, .write 0x38 32 v, .read 0x38 32],
      (s.busy = true → windowAccess a s = .refused (.violated .pv7 [])) ∧
      (s.busy = true ∨ s.unread = true →
        runEvent hardware (.window a) s = .refused (.violated .pv7 []) ∧
        runEvent hardware (.call w) s = .refused (.violated .pv7 []))) ∧
  (∀ s t : State, s.unread = true → step s = .next t → t.unread = false →
    (∃ rest, (s.events = .window (.read 0x40 64) :: rest ∨ s.events = .wait :: rest) ∧
      t.reply = some (.word 0#64)) ∨
    (∃ rest, s.events = .reset :: rest)) ∧
  (∀ (s : State) (a : WindowAccess), s.busy = false → s.unread = false →
    runEvent hardware (.window a) s = windowAccess a s)

/-- 30_encoding R86, PV12: a window access of another width or at another offset than the host
transactions' has no meaning and is refused, whatever the state. -/
def Obligations.OtherWindowAccessesAreRefused : Prop :=
  ∀ (s : State) (offset width : Nat) (v : Word64),
    ¬ (width = 64 ∧ offset % 8 = 0 ∧ (offset ≤ 0x30 ∨ offset = 0x40)) →
    ¬ (width = 32 ∧ offset = 0x38) →
    windowAccess (.write offset width v) s = .refused (.violated .pv12 []) ∧
    windowAccess (.read offset width) s = .refused (.violated .pv12 [])

/-- 60_exceptions R236, 20_memory R63, PV8: from the issue of a command until a STATUS read has returned
BUSY = 0 (log entry 29) another agent may not store to its footprint nor load from its output range;
every other access to backed memory has its effect, and outside that window every access has. -/
def Obligations.AgentsKeepClearOfTheFootprint : Prop :=
  ∀ (s : State) (a n : Nat) (bs : List Byte),
    (Valid s.params ⟨a, bs.length⟩ →
      (((s.busy = true ∨ s.unread = true) ∧
          ∃ g ∈ footprint s.work.mode (rounds s.params s.work.kc) s.work.lat, ShareByte ⟨a, bs.length⟩ g) →
        agentStore a bs s = .refused (.violated .pv8 [])) ∧
      (¬ ((s.busy = true ∨ s.unread = true) ∧
          ∃ g ∈ footprint s.work.mode (rounds s.params s.work.kc) s.work.lat, ShareByte ⟨a, bs.length⟩ g) →
        agentStore a bs s = .next { s with mem := memWrite s.mem a bs })) ∧
    (Valid s.params ⟨a, n⟩ →
      (((s.busy = true ∨ s.unread = true) ∧ ShareByte ⟨a, n⟩ (outputRegion s.work.lat)) →
        agentLoad a n s = .refused (.violated .pv8 [])) ∧
      (¬ ((s.busy = true ∨ s.unread = true) ∧ ShareByte ⟨a, n⟩ (outputRegion s.work.lat)) →
        agentLoad a n s = .next { s with reply := some (.bytes (memRead s.mem a n)) }))

/-- 30_encoding R89: the host's `wait` ends: after finitely many steps the event is gone, the last
STATUS read returned 0, BUSY is clear, no duty of the host is open, and the engine, memory and every other
field are as the phase actions of the command in flight leave them (one phase action for each STATUS read that
returns BUSY = 1 is log entry 19). -/
def Obligations.WaitEndsWithTheCommand : Prop :=
  ∀ (s : State) (rest : List Event), Inv s → s.events = .wait :: rest →
    ∃ n k, (engineTick^[k] s).busy = false ∧ core.run n s =
      .next { engineTick^[k] s with unread := false, events := rest, reply := some (.word 0#64) }

/-! ## Reset (10_state R36, 70_reset_and_hazards R260 to R264) -/

/-- 10_state R36, 70_reset_and_hazards R260, R261, R264: after a reset of an idle engine BUSY is 0 and
PHASE is IDLE, no operand register and no CMD word counts as written, memory is as it was, and every
command is refused as PV9 (named alone: log entry 12; that the parameters stay: log entry 22; that no
duty of the host is left open: log entry 29). -/
def Obligations.ResetLeavesAFreshEngine : Prop :=
  ∀ (s : State), s.busy = false →
    (engineReset s).busy = false ∧ (engineReset s).unread = false ∧
    (engineReset s).phase = .idle ∧
    (∀ r, (engineReset s).written.get r = false) ∧ (engineReset s).cmdWritten = false ∧
    (engineReset s).mem = s.mem ∧ (engineReset s).params = s.params ∧
    ∀ i : Instr, i.wf s.params.xtsDecPresent = true →
      exec i (engineReset s) = .refused (.violated .pv9 [])

/-- 70_reset_and_hazards R263: a reset in flight leaves the engine as any reset does
(no duty of the host open: log entry 29); each byte of the abandoned command's
output range then holds a free value (log entry 11) and every other byte is as it was. -/
def Obligations.ResetInFlightLosesTheOutputRange : Prop :=
  ∀ (s : State), s.mem.Wf → s.busy = true →
    (engineReset s).busy = false ∧ (engineReset s).unread = false ∧
    (engineReset s).phase = .idle ∧
    (∀ r, (engineReset s).written.get r = false) ∧ (engineReset s).cmdWritten = false ∧
    (∀ a, Inside (outputRegion s.work.lat) a →
      (engineReset s).mem.get a = Config.freeByte s.free a) ∧
    ∀ a, ¬ Inside (outputRegion s.work.lat) a → (engineReset s).mem.get a = s.mem.get a

/-! ## Memory and the arithmetic units -/

/-- 20_memory R51, R52: MemRead returns the bytes in address order and MemWrite sets exactly the
bytes of its range; of length 0 the one returns nothing and the other changes nothing. A Block read
is MemRead of 16 bytes. -/
def Obligations.MemReadAndMemWrite : Prop :=
  ∀ (m : Memory) (addr n : Nat) (v : List Byte), m.Wf →
    (memRead m addr n).length = n ∧
    (∀ k, k < n → (memRead m addr n)[k]? = some (m.get (addr + k))) ∧
    memRead m addr 0 = [] ∧ (readBlock m addr).toList = memRead m addr 16 ∧
    (∀ k, k < v.length → some ((memWrite m addr v).get (addr + k)) = v[k]?) ∧
    (∀ a, ¬ (addr ≤ a ∧ a < addr + v.length) → (memWrite m addr v).get a = m.get a) ∧
    memWrite m addr [] = m ∧ (memWrite m addr v).Wf

/-- 41_arith_units R120, R121: the XOR unit is bytewise exclusive-or, with its laws; `xorn` is its
first `n` bytes. -/
def Obligations.XorUnitLaws : Prop :=
  ∀ (a b c : Block) (n : Nat),
    (∀ i (h : i < 16), (xor16 a b)[i] = a[i] ^^^ b[i]) ∧
    xor16 a a = zeroBlock ∧ xor16 a zeroBlock = a ∧ xor16 (xor16 a b) b = a ∧
    xor16 a b = xor16 b a ∧ xor16 (xor16 a b) c = xor16 a (xor16 b c) ∧
    (n ≤ 16 → (xorn a b n).length = n ∧
      ∀ i (h : i < 16), i < n → (xorn a b n)[i]? = some (a[i] ^^^ b[i])) ∧
    xorn a b 16 = (xor16 a b).toList ∧ xorn a b 0 = []

/-- 00_scope R10, 41_arith_units R122, R123, R124: the byte swap reverses a Block and undoes itself, the two
swaps of the counter cancel (`to_arith` is the big-endian reading and `to_wire` its inverse), and
the Block and integer conversions are inverse to each other. -/
def Obligations.CounterFormatsAreBigEndian : Prop :=
  (∀ b : Block, (∀ i (h : i < 16), (rev16 b)[i] = b[15 - i]) ∧ rev16 (rev16 b) = b ∧
    le128 (rev16 b) = be128 b ∧ (toArith b).value = be128 b ∧ be128 b < 2 ^ 128 ∧
    toBe128 (be128 b) = b ∧ toLe128 (le128 b) = b ∧ toWire (toArith b) = b) ∧
  (∀ c : Counter, toWire c = toBe128 c.value) ∧
  (∀ v, v < 2 ^ 128 → be128 (toBe128 v) = v ∧ le128 (toLe128 v) = v)

/-- 41_arith_units R125 to R128: the segment-wise increment is the increment modulo 2^128, its
carry is set exactly at the end of the low segment, and `i` increments from a seed Block give the
counter Block `to_be128((be128(C0) + i) mod 2^128)`, which goes on from 0 after 2^128 - 1 (the reading
that R127 records as decision D15). -/
def Obligations.CounterIncrementsModulo2Pow128 : Prop :=
  (∀ c : Counter, (inc128 c).value = (c.value + 1) % 2 ^ 128 ∧
    (incCarry (c.lo + 1#64) = 1#64 ↔ c.lo.toNat = 2 ^ 64 - 1) ∧
    (incCarry (c.lo + 1#64) = 1#64 ↔ c.lo + 1#64 = 0#64) ∧
    (inc128 c).hi = c.hi + incCarry (c.lo + 1#64)) ∧
  (∀ (c : Counter) (i : Nat), (inc128^[i] c).value = (c.value + i) % 2 ^ 128) ∧
  (∀ (b : Block) (i : Nat),
    toWire (inc128^[i] (toArith b)) = toBe128 ((be128 b + i) % 2 ^ 128)) ∧
  toWire (inc128 (toArith (Vector.replicate 16 0xFF#8))) = zeroBlock

/-- 41_arith_units R129, R130, R131: doubling in its integer form, its byte form and its segment
form, and that it is a bijection on Blocks. -/
def Obligations.TweakDoublingInThreeForms : Prop :=
  (∀ b : Block,
    le128 (dbl b) = (2 * le128 b % 2 ^ 128) ^^^ (if le128 b / 2 ^ 127 = 1 then 0x87 else 0) ∧
    ((dbl b)[0].toNat = (2 * b[0].toNat % 256) ^^^ (if b[15].toNat / 128 = 1 then 0x87 else 0)) ∧
    (dbl b)[0].toNat % 2 = b[15].toNat / 128 ∧
    (∀ i (h : i < 15), (dbl b)[i + 1].toNat = 2 * b[i + 1].toNat % 256 + b[i].toNat / 128) ∧
    (le128 (dbl b) / 2 ^ 64 =
      2 * (le128 b / 2 ^ 64) % 2 ^ 64 + le128 b % 2 ^ 64 / 2 ^ 63) ∧
    (le128 (dbl b) % 2 ^ 64 =
      (2 * (le128 b % 2 ^ 64) % 2 ^ 64) ^^^
        (if le128 b / 2 ^ 64 / 2 ^ 63 = 1 then 0x87 else 0))) ∧
  Function.Bijective dbl

/-- 41_arith_units R132: the laws of iterated doubling: it composes, it is linear over XOR, and a
zero tweak stays zero. -/
def Obligations.IteratedDoublingLaws : Prop :=
  (∀ (a b : Nat) (t : Block), dbl^[a + b] t = dbl^[b] (dbl^[a] t)) ∧
  (∀ (k : Nat) (a b : Block), dbl^[k] (xor16 a b) = xor16 (dbl^[k] a) (dbl^[k] b)) ∧
  (∀ k : Nat, dbl^[k] zeroBlock = zeroBlock)

/-! ## The AES record (spec/46_aes_round_reference.md)

The whole of that file is marked by the spec "[from general knowledge, not in source]": these four
statements are about the default instance of the configuration, log entry 10. -/

/-- R207, R208 (the AES instance, log entry 10): the substitution table is the one of its formula, and
the inverse table inverts it both ways. -/
def Obligations.SubstitutionTablesFollowTheirFormula : Prop :=
  ∀ n, n < 256 → sbox (BitVec.ofNat 8 n) = sboxFormula (BitVec.ofNat 8 n) ∧
    invSbox (sbox (BitVec.ofNat 8 n)) = BitVec.ofNat 8 n ∧
    sbox (invSbox (BitVec.ofNat 8 n)) = BitVec.ofNat 8 n

/-- R212, R213, R214 (the AES instance, log entry 10): the four round primitives on the spec's sample
state and key, and their relations: the inverse of LastRound removes the key first and is not
InvLastRound under the same key; InvRound under a key through InvMixColumns adds the plain key before
InvMixColumns; InvSubBytes and InvShiftRows commute. -/
def Obligations.RoundPrimitivesAndTheirRelations : Prop :=
  (let s := toBe128 0x00112233445566778899aabbccddeeff
   let k := toBe128 0x000102030405060708090a0b0c0d0e0f
   aes.round s k = toBe128 0x6378e4daf062fd71a50f36ffdee684ac ∧
   aes.lastRound s k = toBe128 0x63fdae151feb2ec4ccc899fe478f3de5 ∧
   aes.invRound s k = toBe128 0xdde602c226743f6f00073ca86ff44fbf ∧
   aes.invLastRound s k = toBe128 0x52c8600182e69ff99fe49e762bf4dd69) ∧
  (∃ s k, aes.invLastRound (aes.lastRound s k) k ≠ s) ∧
  (∀ s k, undoLastRound (aes.lastRound s k) k = s) ∧
  (∀ s k, aes.invRound s (invMixColumns k) = straightInvRound s k) ∧
  (∀ s, invSubBytes (invShiftRows s) = invShiftRows (invSubBytes s))

/-- 40_block_core R111 (the AES instance, log entry 10): the state after the key mix and after each round
of E on the zero Block under the encryption schedule of the zero 128-bit key, as the reference generator lays it out. -/
def Obligations.ZeroKeyZeroBlockTrace : Prop :=
  let m := storeSchedule 10 0 (encryptionKey .k128 (List.replicate 16 0#8)) []
  (List.range 10).map (fun r => roundsUpTo aes.round m 0 r (xor16 zeroBlock (roundKey m 0 0))) =
    [toBe128 0x00000000000000000000000000000000, toBe128 0x01000000010000000100000001000000,
     toBe128 0xc6e4e48ba48787e8c6e4e48ba48787e8, toBe128 0x282df3c46af386254a4e90a70890e546,
     toBe128 0xabd2cdfe375ab54950a0afc0759a6a5f, toBe128 0xd46f4f6c55b896337e05bb3d7979de23,
     toBe128 0x04f2ca9707782845e22f019649c5d710, toBe128 0xb7aae4c51d252d4f6c920f8194e58150,
     toBe128 0x23e78c3c132163dbaac0c6572e03cb95, toBe128 0x7ffe0e9551a566350e347c472929eccb] ∧
  blockE aes m 0 10 zeroBlock = toBe128 0x66e94bd4ef8a2c3b884cfa59ca342b2e

/-- R214, R217 (the AES instance and reference generator, log entry 10): over the reference generator's
two schedules of one raw key of a supported size, of any number of rounds and wherever they are laid
out, the sequence of D undoes the sequence of E step by step, and so they are a pair: D undoes E and
E undoes D on every Block. -/
def Obligations.GeneratorSchedulesArePairs : Prop :=
  ∀ (kc : KeyClass) (nr : Nat) (key : List Byte) (m m' : Memory) (ek dk : Nat),
    key.length = 4 * keyWords kc →
    (∀ r, r ≤ nr → roundKey m ek r = encryptionKey kc key r) →
    (∀ r, r ≤ nr → roundKey m' dk r = decryptionKey kc nr key r) →
    (∀ (x : Block) (r : Nat), r ≤ nr - 1 →
      roundsUpTo aes.invRound m' dk r (xor16 (blockE aes m ek nr x) (roundKey m' dk 0)) =
        subBytes (shiftRows
          (roundsUpTo aes.round m ek (nr - 1 - r) (xor16 x (roundKey m ek 0))))) ∧
    SchedulePair aes nr m ek m' dk

end Statements
end

