-- ==== Sys2Proof/Laws/Memory.lean ====
section
/-! SUPPORT. The laws of memory: read after write, the canonical form and its preservation, equality
by bytes, and the Block forms (spec/20_memory.md R51, R52). -/

namespace Sys2Proof.Machine

/-! ## The canonical form -/

theorem Memory.wf_nil : Memory.Wf [] := by simp [Memory.Wf]

theorem Memory.wf_cons {k : Nat} {v : Byte} {t : Memory} :
    Memory.Wf ((k, v) :: t) ↔ (∀ c ∈ t, k < c.1) ∧ v ≠ unlistedByte ∧ Memory.Wf t := by
  simp only [Memory.Wf, List.pairwise_cons, List.mem_cons, forall_eq_or_imp]
  tauto

/-- Below every listed address memory reads as unlisted. -/
theorem Memory.get_below (m : Memory) (a : Nat) (h : ∀ c ∈ m, a < c.1) :
    m.get a = unlistedByte := by
  cases m with
  | nil => rfl
  | cons c t =>
    obtain ⟨k, v⟩ := c
    have : a < k := h _ (List.mem_cons_self ..)
    simp [Memory.get, this]

/-- The addresses a write can list: the old ones and the written one. -/
theorem Memory.mem_set {m : Memory} {a : Nat} {b : Byte} {c : Host.Cell}
    (h : c ∈ m.set a b) : c ∈ m ∨ c = (a, b) := by
  induction m with
  | nil =>
    simp only [Memory.set] at h
    split at h <;> simp_all
  | cons d t ih =>
    obtain ⟨k, v⟩ := d
    simp only [Memory.set] at h
    split at h
    · split at h <;> simp_all
      tauto
    · split at h
      · split at h <;> simp_all
        tauto
      · rcases List.mem_cons.1 h with h | h
        · simp_all
        · rcases ih h with h | h <;> simp_all

/-- A write keeps the canonical form. -/
theorem Memory.set_wf {m : Memory} (h : m.Wf) (a : Nat) (b : Byte) : (m.set a b).Wf := by
  induction m with
  | nil =>
    simp only [Memory.set]
    split
    · exact Memory.wf_nil
    · next hb => exact Memory.wf_cons.2 ⟨by simp, hb, Memory.wf_nil⟩
  | cons d t ih =>
    obtain ⟨k, v⟩ := d
    obtain ⟨hk, hv, ht⟩ := Memory.wf_cons.1 h
    simp only [Memory.set]
    split
    · next hak =>
      split
      · exact h
      · next hb =>
        refine Memory.wf_cons.2 ⟨?_, hb, h⟩
        intro c hc
        rcases List.mem_cons.1 hc with rfl | hc
        · exact hak
        · exact hak.trans (hk c hc)
    · split
      · next _ hak =>
        split
        · exact ht
        · next hb => exact Memory.wf_cons.2 ⟨by simpa [hak] using hk, hb, ht⟩
      · next h1 h2 =>
        refine Memory.wf_cons.2 ⟨?_, hv, ih ht⟩
        intro c hc
        rcases Memory.mem_set hc with hc | rfl
        · exact hk c hc
        · show k < a
          omega

/-! ## Read after write -/

/-- Read after write of one byte: the byte written at its address, the old byte elsewhere. -/
theorem Memory.get_set {m : Memory} (h : m.Wf) (a : Nat) (b : Byte) (k : Nat) :
    (m.set a b).get k = if k = a then b else m.get k := by
  induction m with
  | nil =>
    simp only [Memory.set]
    split <;> rename_i hb
    · simp [Memory.get, hb]
    · simp only [Memory.get]
      split
      · next h1 => rw [if_neg (by omega)]
      · rfl
  | cons d t ih =>
    obtain ⟨j, v⟩ := d
    obtain ⟨hk, hv, ht⟩ := Memory.wf_cons.1 h
    simp only [Memory.set]
    split
    · next haj =>
      split
      · next hb =>
        by_cases hka : k = a
        · subst hka; simp [Memory.get, haj, hb]
        · simp [hka]
      · by_cases hka : k = a
        · subst hka; simp [Memory.get]
        · by_cases h1 : k < a
          · have : k < j := by omega
            simp [Memory.get, h1, this, hka]
          · rw [Memory.get]; simp [h1, hka]
    · split
      · next _ haj =>
        subst haj
        split
        · next hb =>
          by_cases hka : k = a
          · subst hka; simp [hb, Memory.get_below t k hk]
          · by_cases h1 : k < a
            · rw [Memory.get_below t k (fun c hc => h1.trans (hk c hc))]
              simp [Memory.get, h1, hka]
            · simp [Memory.get, h1, hka]
        · by_cases hka : k = a
          · subst hka; simp [Memory.get]
          · simp [Memory.get, hka]
      · next h1 h2 =>
        by_cases h3 : k < j
        · have : k ≠ a := by omega
          simp [Memory.get, h3, this]
        · by_cases h4 : k = j
          · have : k ≠ a := by omega
            subst h4
            simp [Memory.get, this]
          · simp only [Memory.get, h3, if_false, h4, ih ht]

/-- Memories in canonical form that read alike are equal. -/
theorem Memory.ext_get {m n : Memory} (hm : m.Wf) (hn : n.Wf)
    (h : ∀ a, m.get a = n.get a) : m = n := by
  induction m generalizing n with
  | nil =>
    cases n with
    | nil => rfl
    | cons d t =>
      obtain ⟨k, v⟩ := d
      have h1 := h k
      simp only [Memory.get, lt_irrefl, if_false, if_true] at h1
      exact absurd h1.symm (Memory.wf_cons.1 hn).2.1
  | cons d t ih =>
    obtain ⟨k, v⟩ := d
    obtain ⟨hk, hv, ht⟩ := Memory.wf_cons.1 hm
    cases n with
    | nil =>
      have h1 := h k
      simp only [Memory.get, lt_irrefl, if_false, if_true] at h1
      exact absurd h1 hv
    | cons e u =>
      obtain ⟨j, w⟩ := e
      obtain ⟨hj, hw, hu⟩ := Memory.wf_cons.1 hn
      have hkj : k = j := by
        by_contra hne
        rcases Nat.lt_or_gt_of_ne hne with hlt | hlt
        · have h1 := h k
          simp only [Memory.get, lt_irrefl, if_false, if_true, hlt] at h1
          exact hv h1
        · have h1 := h j
          simp only [Memory.get, lt_irrefl, if_false, if_true, hlt] at h1
          exact hw h1.symm
      subst hkj
      have hvw : v = w := by
        have h1 := h k
        simpa only [Memory.get, lt_irrefl, if_false, if_true] using h1
      subst hvw
      have : t = u := by
        refine ih ht hu (fun a => ?_)
        by_cases h1 : a ≤ k
        · rw [Memory.get_below t a (fun c hc => lt_of_le_of_lt h1 (hk c hc)),
            Memory.get_below u a (fun c hc => lt_of_le_of_lt h1 (hj c hc))]
        · have h2 := h a
          have h3 : ¬ a < k := by omega
          have h4 : a ≠ k := by omega
          simpa only [Memory.get, h3, if_false, h4] using h2
      rw [this]

/-! ## Byte sequences -/

@[simp] theorem memRead_length (m : Memory) (a n : Nat) : (memRead m a n).length = n := by
  simp [memRead]

/-- Byte `k` of a sequence read is the byte at its address. -/
theorem memRead_getElem (m : Memory) (a n k : Nat) (h : k < (memRead m a n).length) :
    (memRead m a n)[k] = m.get (a + k) := by
  simp [memRead]

/-- Reads of bytes that agree are equal. -/
theorem memRead_congr {m m' : Memory} {a n : Nat} (h : ∀ k < n, m.get (a + k) = m'.get (a + k)) :
    memRead m a n = memRead m' a n := by
  refine List.map_congr_left (fun k hk => h k (List.mem_range.1 hk))

theorem memWrite_wf {m : Memory} (h : m.Wf) (a : Nat) (bs : List Byte) : (memWrite m a bs).Wf := by
  induction bs generalizing m a with
  | nil => exact h
  | cons b t ih => exact ih (Memory.set_wf h a b) (a + 1)

/-- MemWrite in one sentence: byte `k` of the sequence at `a + k`, every other byte as before. -/
theorem get_memWrite {m : Memory} (h : m.Wf) (a : Nat) (bs : List Byte) (k : Nat) :
    (memWrite m a bs).get k =
      if a ≤ k ∧ k < a + bs.length then bs.getD (k - a) 0#8 else m.get k := by
  induction bs generalizing m a with
  | nil => simp [memWrite]
  | cons b t ih =>
    rw [memWrite, ih (Memory.set_wf h a b), Memory.get_set h]
    simp only [List.length_cons]
    by_cases h1 : k = a
    · subst h1
      rw [if_neg (by omega), if_pos rfl, if_pos (by omega)]
      simp
    · by_cases h2 : a + 1 ≤ k ∧ k < a + 1 + t.length
      · rw [if_pos h2, if_pos (by omega)]
        obtain ⟨j, rfl⟩ : ∃ j, k = a + 1 + j := ⟨k - (a + 1), by omega⟩
        have e1 : a + 1 + j - (a + 1) = j := by omega
        have e2 : a + 1 + j - a = j + 1 := by omega
        rw [e1, e2, List.getD_cons_succ]
      · rw [if_neg h2, if_neg h1, if_neg (by omega)]

theorem get_memWrite_outside {m : Memory} (h : m.Wf) {a : Nat} {bs : List Byte} {k : Nat}
    (hk : ¬ (a ≤ k ∧ k < a + bs.length)) : (memWrite m a bs).get k = m.get k := by
  rw [get_memWrite h, if_neg hk]

theorem get_memWrite_inside {m : Memory} (h : m.Wf) {a : Nat} {bs : List Byte} {k : Nat}
    (hk : k < bs.length) : (memWrite m a bs).get (a + k) = bs[k] := by
  rw [get_memWrite h, if_pos (by omega)]
  simp [hk]

/-- The addresses MemWrite can list: the old ones and those of its range. -/
theorem mem_memWrite {m : Memory} {a : Nat} {bs : List Byte} {c : Host.Cell}
    (h : c ∈ memWrite m a bs) : c ∈ m ∨ (a ≤ c.1 ∧ c.1 < a + bs.length) := by
  induction bs generalizing m a with
  | nil => exact .inl h
  | cons b t ih =>
    rcases ih h with h | h
    · rcases Memory.mem_set h with h | rfl
      · exact .inl h
      · exact .inr ⟨le_rfl, by simp⟩
    · exact .inr ⟨by omega, by simp only [List.length_cons]; omega⟩

/-! ## Blocks -/

/-- Byte `i` of a Block read is the byte at its address plus `i` (R51). -/
@[simp] theorem readBlock_getElem (m : Memory) (a i : Nat) (h : i < 16) :
    (readBlock m a)[i] = m.get (a + i) := by
  simp [readBlock]

theorem readBlock_congr {m m' : Memory} {a : Nat} (h : ∀ k < 16, m.get (a + k) = m'.get (a + k)) :
    readBlock m a = readBlock m' a := by
  ext i hi
  simp [h i hi]

theorem writeBlock_wf {m : Memory} (h : m.Wf) (a : Nat) (b : Block) : (writeBlock m a b).Wf :=
  memWrite_wf h a _

/-- Outside its 16 bytes a Block write changes nothing (R52). -/
theorem get_writeBlock_outside {m : Memory} (h : m.Wf) {a k : Nat} (b : Block)
    (hk : ¬ (a ≤ k ∧ k < a + 16)) : (writeBlock m a b).get k = m.get k :=
  get_memWrite_outside h (by simpa using hk)

theorem get_writeBlock_inside {m : Memory} (h : m.Wf) (a : Nat) (b : Block) {k : Nat}
    (hk : k < 16) : (writeBlock m a b).get (a + k) = b[k] := by
  rw [writeBlock, get_memWrite_inside h (by simpa using hk)]
  simp

/-- The Block written is the Block read back. -/
theorem readBlock_writeBlock {m : Memory} (h : m.Wf) (a : Nat) (b : Block) :
    readBlock (writeBlock m a b) a = b := by
  ext i hi
  simp [get_writeBlock_inside h a b hi]

/-- A Block that shares no byte with a Block write reads as before. -/
theorem readBlock_writeBlock_disjoint {m : Memory} (h : m.Wf) {a a' : Nat} (b : Block)
    (hd : a + 16 ≤ a' ∨ a' + 16 ≤ a) : readBlock (writeBlock m a b) a' = readBlock m a' :=
  readBlock_congr (fun k hk => get_writeBlock_outside h b (by omega))

theorem mem_writeBlock {m : Memory} {a : Nat} {b : Block} {c : Host.Cell}
    (h : c ∈ writeBlock m a b) : c ∈ m ∨ (a ≤ c.1 ∧ c.1 < a + 16) := by
  simpa using mem_memWrite h

end Sys2Proof.Machine
end

