-- ==== Sys2Proof/Laws/BlockCore.lean ====
section
/-! SUPPORT. The Block Core reads its schedule bytes and nothing else (spec/40_block_core.md R100,
R105). -/

namespace Sys2Proof.Machine

open Sys2Proof.Config (RoundPrims)

/-- The last byte of round key `r` lies in the schedule of `nr` rounds. -/
theorem roundKey_within {nr r : Nat} (hr : r ≤ nr) {k : Nat} (hk : k < 16) :
    16 * r + k < scheduleBytes nr := by
  simp only [scheduleBytes]
  omega

/-- Memories that agree on the bytes of a schedule give the same round keys. -/
theorem roundKey_congr {m m' : Memory} {ka nr : Nat}
    (h : ∀ a, ka ≤ a → a < ka + scheduleBytes nr → m.get a = m'.get a) {r : Nat}
    (hr : r ≤ nr) : roundKey m ka r = roundKey m' ka r :=
  readBlock_congr (fun k hk => h _ (by omega) (by have := roundKey_within hr hk; omega))

theorem roundsUpTo_congr {f : Block → Block → Block} {m m' : Memory} {ka : Nat} {n : Nat}
    (h : ∀ r, r ≤ n → roundKey m ka r = roundKey m' ka r) (x : Block) :
    roundsUpTo f m ka n x = roundsUpTo f m' ka n x := by
  induction n with
  | zero => rfl
  | succ n ih =>
    simp only [roundsUpTo, h (n + 1) le_rfl, ih (fun r hr => h r (by omega))]

/-- E depends on its input and on the bytes of its schedule alone (R105). -/
theorem blockE_congr {P : RoundPrims} {m m' : Memory} {ka nr : Nat}
    (h : ∀ a, ka ≤ a → a < ka + scheduleBytes nr → m.get a = m'.get a) (x : Block) :
    blockE P m ka nr x = blockE P m' ka nr x := by
  rw [blockE, blockE, roundKey_congr h (Nat.zero_le _), roundKey_congr h le_rfl,
    roundsUpTo_congr (f := P.round) (n := nr - 1) (fun r hr => roundKey_congr h (by omega))]

/-- D depends on its input and on the bytes of its schedule alone (R105). -/
theorem blockD_congr {P : RoundPrims} {m m' : Memory} {ka nr : Nat}
    (h : ∀ a, ka ≤ a → a < ka + scheduleBytes nr → m.get a = m'.get a) (x : Block) :
    blockD P m ka nr x = blockD P m' ka nr x := by
  rw [blockD, blockD, roundKey_congr h (Nat.zero_le _), roundKey_congr h le_rfl,
    roundsUpTo_congr (f := P.invRound) (n := nr - 1) (fun r hr => roundKey_congr h (by omega))]

end Sys2Proof.Machine
end

