-- ==== Sys2Proof/Laws/Aes.lean ====
section
/-! SUPPORT. The AES record undoes itself over related schedules: the XOR unit's laws, the byte, row
and column transformations with their inverses, and E against D round by round
(spec/46_aes_round_reference.md R206 to R214). -/

namespace Sys2Proof.Machine

open Sys2Proof.Safety (SchedulePair)

/-! ## The XOR unit (41_arith_units R120) -/

@[simp] theorem xor16_getElem (a b : Block) (i : Nat) (h : i < 16) :
    (xor16 a b)[i] = a[i] ^^^ b[i] := by simp [xor16]

@[simp] theorem xor16_cancel_right (a b : Block) : xor16 (xor16 a b) b = a := by
  ext i h
  simp

theorem xor_cancel_left (a b : Byte) : a ^^^ (a ^^^ b) = b := by
  rw [← BitVec.xor_assoc, BitVec.xor_self, BitVec.zero_xor]

theorem xor_left_swap (a b c : Byte) : a ^^^ (b ^^^ c) = b ^^^ (a ^^^ c) := by ac_rfl

/-! ## Multiplication by the constants of the columns -/

theorem shiftLeft_xor (a b : Byte) : (a ^^^ b) <<< 1 = a <<< 1 ^^^ b <<< 1 :=
  BitVec.shiftLeft_xor_distrib ..

/-- `xtime` as a shift and the top bit's reduction (R206). -/
theorem xtime_eq (a : Byte) : xtime a = a <<< 1 ^^^ (if a.msb then 0x1B#8 else 0#8) := by
  have h : a.msb = decide (0x80 ≤ a.toNat) := by simp [BitVec.msb_eq_decide]
  by_cases h1 : 0x80 ≤ a.toNat <;> simp [xtime, h, h1]

theorem xtime_xor (a b : Byte) : xtime (a ^^^ b) = xtime a ^^^ xtime b := by
  simp only [xtime_eq, shiftLeft_xor, BitVec.msb_xor]
  cases a.msb <;> cases b.msb
  · simp
  · simp only [Bool.false_bne, if_true, Bool.false_eq_true, if_false, BitVec.xor_zero]
    ac_rfl
  · simp only [Bool.bne_false, if_true, Bool.false_eq_true, if_false, BitVec.xor_zero]
    ac_rfl
  · simp [BitVec.xor_assoc, xor_left_swap 27#8]

theorem gmul_xor_left (a b c : Byte) : gmul (a ^^^ b) c = gmul a c ^^^ gmul b c := by
  have key : ∀ n (a b c : Byte), gmulBits n (a ^^^ b) c = gmulBits n a c ^^^ gmulBits n b c := by
    intro n
    induction n with
    | zero => simp [gmulBits]
    | succ n ih =>
      intro a b c
      simp only [gmulBits, xtime_xor, ih]
      split
      · simp only [BitVec.xor_assoc, xor_left_swap b]
      · simp
  exact key 8 a b c

/-! ## The byte transformations (R207 to R209) -/

theorem forall_byte {p : Byte → Prop} (h : ∀ n < 256, p (BitVec.ofNat 8 n)) (a : Byte) : p a := by
  have := h a.toNat a.isLt
  rwa [BitVec.ofNat_toNat, BitVec.setWidth_eq] at this

theorem invSbox_sbox (a : Byte) : invSbox (sbox a) = a :=
  forall_byte (p := fun a => invSbox (sbox a) = a) (by decide +kernel) a

theorem sbox_invSbox (a : Byte) : sbox (invSbox a) = a :=
  forall_byte (p := fun a => sbox (invSbox a) = a) (by decide +kernel) a

theorem invSubBytes_subBytes (b : Block) : invSubBytes (subBytes b) = b := by
  ext i h
  simp [invSubBytes, subBytes, invSbox_sbox]

theorem subBytes_invSubBytes (b : Block) : subBytes (invSubBytes b) = b := by
  ext i h
  simp [invSubBytes, subBytes, sbox_invSbox]

/-! ## Rows and columns (R210, R211) -/

theorem invShiftRows_shiftRows (b : Block) : invShiftRows (shiftRows b) = b := by
  ext i h
  interval_cases i <;> simp [invShiftRows, shiftRows]

theorem shiftRows_invShiftRows (b : Block) : shiftRows (invShiftRows b) = b := by
  ext i h
  interval_cases i <;> simp [invShiftRows, shiftRows]

/-- A row of MixColumns, from the column's bytes starting at the row (R211). -/
theorem columnByte_mixColumns (b : Block) (i : Fin 16) (k : Nat) :
    columnByte (mixColumns b) i k = gmul (columnByte b i k) 2#8 ^^^
      gmul (columnByte b i (k + 1)) 3#8 ^^^ columnByte b i (k + 2) ^^^ columnByte b i (k + 3) := by
  have hr : (i.val % 4 + k) % 4 < 4 := Nat.mod_lt _ (by omega)
  have h4 : (4 * (i.val / 4) + (i.val % 4 + k) % 4) / 4 = i.val / 4 := by omega
  have h0 : (4 * (i.val / 4) + (i.val % 4 + k) % 4) % 4 % 4 = (i.val % 4 + k) % 4 := by omega
  have hm : ∀ j, ((4 * (i.val / 4) + (i.val % 4 + k) % 4) % 4 + j) % 4 = (i.val % 4 + (k + j)) % 4 := by
    omega
  simp only [columnByte, mixColumns, Vector.getElem_ofFn, h4, hm, h0, Nat.add_zero]

/-- A row of InvMixColumns, from the column's bytes starting at the row (R211). -/
theorem columnByte_invMixColumns (b : Block) (i : Fin 16) (k : Nat) :
    columnByte (invMixColumns b) i k = gmul (columnByte b i k) 14#8 ^^^
      gmul (columnByte b i (k + 1)) 11#8 ^^^ gmul (columnByte b i (k + 2)) 13#8 ^^^
      gmul (columnByte b i (k + 3)) 9#8 := by
  have hr : (i.val % 4 + k) % 4 < 4 := Nat.mod_lt _ (by omega)
  have h4 : (4 * (i.val / 4) + (i.val % 4 + k) % 4) / 4 = i.val / 4 := by omega
  have h0 : (4 * (i.val / 4) + (i.val % 4 + k) % 4) % 4 % 4 = (i.val % 4 + k) % 4 := by omega
  have hm : ∀ j, ((4 * (i.val / 4) + (i.val % 4 + k) % 4) % 4 + j) % 4 = (i.val % 4 + (k + j)) % 4 := by
    omega
  simp only [columnByte, invMixColumns, Vector.getElem_ofFn, h4, hm, h0, Nat.add_zero]

theorem columnByte_wrap (b : Block) (i : Fin 16) (k : Nat) :
    columnByte b i (k + 4) = columnByte b i k := by
  have : (i.val % 4 + (k + 4)) % 4 = (i.val % 4 + k) % 4 := by omega
  simp only [columnByte, this]

theorem columnByte_zero (b : Block) (i : Fin 16) : columnByte b i 0 = b[i] := by
  have : 4 * (i.val / 4) + (i.val % 4 + 0) % 4 = i.val := by omega
  simp only [columnByte, this]
  rfl

/-- Four bytes of products XORed as rows are the same as XORed as columns. -/
theorem xor_regroup (a1 a2 a3 a4 b1 b2 b3 b4 c1 c2 c3 c4 d1 d2 d3 d4 : Byte) :
    (a1 ^^^ a2 ^^^ a3 ^^^ a4) ^^^ (b1 ^^^ b2 ^^^ b3 ^^^ b4) ^^^ (c1 ^^^ c2 ^^^ c3 ^^^ c4) ^^^
      (d1 ^^^ d2 ^^^ d3 ^^^ d4) =
    (a1 ^^^ b4 ^^^ c3 ^^^ d2) ^^^ (a2 ^^^ b1 ^^^ c4 ^^^ d3) ^^^ (a3 ^^^ b2 ^^^ c1 ^^^ d4) ^^^
      (a4 ^^^ b3 ^^^ c2 ^^^ d1) := by ac_rfl

/-- The cancellation of the two column matrices, row by row: the product's coefficient of the row's
own byte is 1 and of the three others 0. -/
theorem invMix_row (p q r t : Byte) :
    gmul (gmul p 2#8 ^^^ gmul q 3#8 ^^^ r ^^^ t) 14#8 ^^^
      gmul (gmul q 2#8 ^^^ gmul r 3#8 ^^^ t ^^^ p) 11#8 ^^^
      gmul (gmul r 2#8 ^^^ gmul t 3#8 ^^^ p ^^^ q) 13#8 ^^^
      gmul (gmul t 2#8 ^^^ gmul p 3#8 ^^^ q ^^^ r) 9#8 = p := by
  have hp := forall_byte (p := fun a => gmul (gmul a 2#8) 14#8 ^^^ gmul a 11#8 ^^^ gmul a 13#8 ^^^
    gmul (gmul a 3#8) 9#8 = a) (by decide +kernel) p
  have hq := forall_byte (p := fun a => gmul (gmul a 3#8) 14#8 ^^^ gmul (gmul a 2#8) 11#8 ^^^
    gmul a 13#8 ^^^ gmul a 9#8 = 0#8) (by decide +kernel) q
  have hr := forall_byte (p := fun a => gmul a 14#8 ^^^ gmul (gmul a 3#8) 11#8 ^^^
    gmul (gmul a 2#8) 13#8 ^^^ gmul a 9#8 = 0#8) (by decide +kernel) r
  have ht := forall_byte (p := fun a => gmul a 14#8 ^^^ gmul a 11#8 ^^^ gmul (gmul a 3#8) 13#8 ^^^
    gmul (gmul a 2#8) 9#8 = 0#8) (by decide +kernel) t
  simp only [gmul_xor_left]
  rw [xor_regroup]
  rw [hp, hq, hr, ht]
  simp

theorem mix_row (p q r t : Byte) :
    gmul (gmul p 14#8 ^^^ gmul q 11#8 ^^^ gmul r 13#8 ^^^ gmul t 9#8) 2#8 ^^^
      gmul (gmul q 14#8 ^^^ gmul r 11#8 ^^^ gmul t 13#8 ^^^ gmul p 9#8) 3#8 ^^^
      (gmul r 14#8 ^^^ gmul t 11#8 ^^^ gmul p 13#8 ^^^ gmul q 9#8) ^^^
      (gmul t 14#8 ^^^ gmul p 11#8 ^^^ gmul q 13#8 ^^^ gmul r 9#8) = p := by
  have hp := forall_byte (p := fun a => gmul (gmul a 14#8) 2#8 ^^^ gmul (gmul a 9#8) 3#8 ^^^
    gmul a 13#8 ^^^ gmul a 11#8 = a) (by decide +kernel) p
  have hq := forall_byte (p := fun a => gmul (gmul a 11#8) 2#8 ^^^ gmul (gmul a 14#8) 3#8 ^^^
    gmul a 9#8 ^^^ gmul a 13#8 = 0#8) (by decide +kernel) q
  have hr := forall_byte (p := fun a => gmul (gmul a 13#8) 2#8 ^^^ gmul (gmul a 11#8) 3#8 ^^^
    gmul a 14#8 ^^^ gmul a 9#8 = 0#8) (by decide +kernel) r
  have ht := forall_byte (p := fun a => gmul (gmul a 9#8) 2#8 ^^^ gmul (gmul a 13#8) 3#8 ^^^
    gmul a 11#8 ^^^ gmul a 14#8 = 0#8) (by decide +kernel) t
  simp only [gmul_xor_left]
  rw [xor_regroup]
  rw [hp, hq, hr, ht]
  simp

theorem invMixColumns_mixColumns (b : Block) : invMixColumns (mixColumns b) = b := by
  refine Vector.ext fun i h => ?_
  have w := columnByte_wrap b ⟨i, h⟩
  have e := columnByte_zero (invMixColumns (mixColumns b)) ⟨i, h⟩
  have e' := columnByte_zero b ⟨i, h⟩
  simp only [columnByte_invMixColumns, columnByte_mixColumns, Nat.zero_add, Nat.reduceAdd, w 0,
    w 1, w 2, invMix_row] at e
  exact e.symm.trans e'

theorem mixColumns_invMixColumns (b : Block) : mixColumns (invMixColumns b) = b := by
  refine Vector.ext fun i h => ?_
  have w := columnByte_wrap b ⟨i, h⟩
  have e := columnByte_zero (mixColumns (invMixColumns b)) ⟨i, h⟩
  have e' := columnByte_zero b ⟨i, h⟩
  simp only [columnByte_invMixColumns, columnByte_mixColumns, Nat.zero_add, Nat.reduceAdd, w 0,
    w 1, w 2, mix_row] at e
  exact e.symm.trans e'

/-- InvMixColumns is linear over XOR (R211). -/
theorem invMixColumns_xor (a b : Block) :
    invMixColumns (xor16 a b) = xor16 (invMixColumns a) (invMixColumns b) := by
  refine Vector.ext fun i h => ?_
  simp only [invMixColumns, columnByte, Vector.getElem_ofFn, xor16_getElem, gmul_xor_left]
  ac_rfl

/-- MixColumns is linear over XOR (R211). -/
theorem mixColumns_xor (a b : Block) :
    mixColumns (xor16 a b) = xor16 (mixColumns a) (mixColumns b) := by
  refine Vector.ext fun i h => ?_
  simp only [mixColumns, columnByte, Vector.getElem_ofFn, xor16_getElem, gmul_xor_left]
  ac_rfl

/-! ## E against D over related schedules (R214) -/

/-- The state of a round before its key: SubBytes of ShiftRows. -/
def forwardHalf (b : Block) : Block := subBytes (shiftRows b)

/-- The state of an inverse round before its columns and key. -/
def backwardHalf (b : Block) : Block := invSubBytes (invShiftRows b)

theorem invSubBytes_invShiftRows (b : Block) :
    invSubBytes (invShiftRows b) = invShiftRows (invSubBytes b) := by
  refine Vector.ext fun i h => ?_
  simp [invSubBytes, invShiftRows]

theorem subBytes_shiftRows (b : Block) : subBytes (shiftRows b) = shiftRows (subBytes b) := by
  refine Vector.ext fun i h => ?_
  simp [subBytes, shiftRows]

@[simp] theorem backwardHalf_forwardHalf (b : Block) : backwardHalf (forwardHalf b) = b := by
  rw [backwardHalf, forwardHalf, subBytes_shiftRows, invShiftRows_shiftRows, invSubBytes_subBytes]

@[simp] theorem forwardHalf_backwardHalf (b : Block) : forwardHalf (backwardHalf b) = b := by
  rw [backwardHalf, forwardHalf, invSubBytes_invShiftRows, shiftRows_invShiftRows,
    subBytes_invSubBytes]

/-- The relation of 46 R216 between two schedules in memory. -/
structure Related (nr : Nat) (m : Memory) (ek : Nat) (m' : Memory) (dk : Nat) : Prop where
  first : roundKey m' dk 0 = roundKey m ek (nr)
  inner : ∀ r, 0 < r → r < nr →
    roundKey m' dk r = invMixColumns (roundKey m ek (nr - r))
  last  : roundKey m' dk (nr) = roundKey m ek 0

/-- The rounds of D over the related schedule undo those of E one by one (46 R214). -/
theorem decrypt_rounds {m m' : Memory} {nr ek dk : Nat} (h : Related nr m ek m' dk) (x : Block) :
    ∀ r, r ≤ nr - 1 →
      roundsUpTo aes.invRound m' dk r (xor16 (blockE aes m ek nr x) (roundKey m' dk 0)) =
        forwardHalf (roundsUpTo aes.round m ek (nr - 1 - r) (xor16 x (roundKey m ek 0))) := by
  intro r
  induction r with
  | zero =>
    intro _
    simp only [roundsUpTo, h.first, blockE]
    show xor16 (aesLastRound _ _) _ = _
    simp [aesLastRound, forwardHalf]
  | succ r ih =>
    intro hr
    obtain ⟨q, hq⟩ : ∃ q, nr - 1 - r = q + 1 := ⟨nr - 1 - r - 1, by omega⟩
    have hk : nr - (r + 1) = q + 1 := by omega
    have hq' : nr - 1 - (r + 1) = q := by omega
    rw [roundsUpTo, ih (by omega), h.inner (r + 1) (by omega) (by omega), hk, hq, hq']
    show aesInvRound _ _ = _
    rw [aesInvRound]
    show xor16 (invMixColumns (backwardHalf (forwardHalf _))) _ = _
    rw [backwardHalf_forwardHalf, ← invMixColumns_xor, roundsUpTo]
    show invMixColumns (xor16 (aesRound _ _) _) = _
    rw [aesRound, xor16_cancel_right, invMixColumns_mixColumns]
    rfl

theorem decrypt_encrypt {m m' : Memory} {nr ek dk : Nat}
    (h : Related nr m ek m' dk) (x : Block) : blockD aes m' dk nr (blockE aes m ek nr x) = x := by
  rw [blockD, decrypt_rounds h x _ le_rfl, h.last, Nat.sub_self]
  show aesInvLastRound _ _ = x
  rw [aesInvLastRound]
  show xor16 (backwardHalf (forwardHalf _)) _ = x
  rw [backwardHalf_forwardHalf]
  exact xor16_cancel_right _ _

theorem encrypt_decrypt {m m' : Memory} {nr ek dk : Nat}
    (h : Related nr m ek m' dk) (x : Block) : blockE aes m ek nr (blockD aes m' dk nr x) = x := by
  have key : ∀ r, r ≤ nr - 1 →
      roundsUpTo aes.round m ek r (xor16 (blockD aes m' dk nr x) (roundKey m ek 0)) =
        backwardHalf (roundsUpTo aes.invRound m' dk (nr - 1 - r)
          (xor16 x (roundKey m' dk 0))) := by
    intro r
    induction r with
    | zero =>
      intro _
      simp only [roundsUpTo, blockD, h.last]
      show xor16 (aesInvLastRound _ _) _ = _
      simp [aesInvLastRound, backwardHalf]
    | succ r ih =>
      intro hr
      obtain ⟨q, hq⟩ : ∃ q, nr - 1 - r = q + 1 := ⟨nr - 1 - r - 1, by omega⟩
      have hk : nr - (q + 1) = r + 1 := by omega
      have hq' : nr - 1 - (r + 1) = q := by omega
      rw [roundsUpTo, ih (by omega), hq, hq']
      show aesRound _ _ = _
      rw [aesRound]
      show xor16 (mixColumns (forwardHalf (backwardHalf _))) _ = _
      rw [forwardHalf_backwardHalf, roundsUpTo, h.inner (q + 1) (by omega) (by omega), hk]
      show xor16 (mixColumns (aesInvRound _ _)) _ = _
      rw [aesInvRound, mixColumns_xor, mixColumns_invMixColumns, mixColumns_invMixColumns,
        xor16_cancel_right]
      rfl
  rw [blockE, key _ le_rfl, ← h.first, Nat.sub_self]
  show aesLastRound _ _ = x
  rw [aesLastRound]
  show xor16 (forwardHalf (backwardHalf _)) _ = x
  rw [forwardHalf_backwardHalf]
  exact xor16_cancel_right _ _

/-- Schedules related as the reference generator relates them are a pair (R106). -/
theorem Related.pair {m m' : Memory} {nr ek dk : Nat}
    (h : Related nr m ek m' dk) : SchedulePair aes nr m ek m' dk :=
  ⟨decrypt_encrypt h, encrypt_decrypt h⟩

/-! ## Schedules in memory -/

/-- A schedule laid out in memory reads back round key by round key (40_block_core R100). -/
theorem roundKey_storeSchedule {m : Memory} (hw : m.Wf) {nr ka r : Nat} {key : Nat → Block}
    (h : r ≤ nr) : roundKey (storeSchedule nr ka key m) ka r = key r := by
  have step : ∀ n (m : Memory), m.Wf →
      ((List.range n).foldl (fun m r => writeBlock m (ka + 16 * r) (key r)) m).Wf ∧
      ∀ r, r < n → roundKey ((List.range n).foldl
        (fun m r => writeBlock m (ka + 16 * r) (key r)) m) ka r = key r := by
    intro n m hm
    induction n with
    | zero => exact ⟨hm, fun r hr => absurd hr (Nat.not_lt_zero r)⟩
    | succ n ih =>
      rw [List.range_succ, List.foldl_append]
      refine ⟨writeBlock_wf ih.1 _ _, fun r hr => ?_⟩
      rcases Nat.lt_succ_iff_lt_or_eq.1 hr with hr | rfl
      · exact (readBlock_writeBlock_disjoint ih.1 _ (by omega)).trans (ih.2 r hr)
      · exact readBlock_writeBlock ih.1 _ _
  exact (step (nr + 1) m hw).2 r (by omega)

end Sys2Proof.Machine
end

