-- ==== Sys2Proof/Laws/Operands.lean ====
section
/-! SUPPORT. The checks made at issue say what the spec's preconditions say (spec/60_exceptions.md
R232): each Bool test against its reading in Safety.lean, and the one lemma that says when a command
goes on and with what. -/

namespace Sys2Proof.Machine

open Sys2Proof.Config (Region Params)
open Sys2Proof.Safety

/-! ## Operand files -/

@[simp] theorem OperandFile.get_set_same {α : Type} (f : OperandFile α) (r : OperandReg) (v : α) :
    (f.set r v).get r = v := by cases r <;> rfl

theorem OperandFile.get_set_other {α : Type} (f : OperandFile α) {r q : OperandReg} (v : α)
    (h : q ≠ r) : (f.set r v).get q = f.get q := by
  cases r <;> cases q <;> first | rfl | exact absurd rfl h

@[simp] theorem OperandFile.get_fill {α : Type} (v : α) (r : OperandReg) :
    (OperandFile.fill v).get r = v := by cases r <;> rfl

theorem OperandFile.ext_get {α : Type} {f g : OperandFile α} (h : ∀ r, f.get r = g.get r) :
    f = g := by
  cases f; cases g
  simp only [OperandFile.mk.injEq]
  exact ⟨h .src, h .dst, h .len, h .key1, h .key2, h .seed, h .off⟩

/-- The latch of a command: a listed register copied, another kept (10_state R27). -/
theorem get_latchListed (rs : List OperandReg) (now latch : OperandFile Word64) (r : OperandReg) :
    (OperandFile.latchListed rs now latch).get r = if r ∈ rs then now.get r else latch.get r := by
  unfold OperandFile.latchListed
  induction rs generalizing latch with
  | nil => simp
  | cons q t ih =>
    rw [List.foldl_cons, ih]
    by_cases h1 : r ∈ t
    · simp [h1]
    · by_cases h2 : r = q
      · subst h2; simp [h1]
      · simp [h1, h2, OperandFile.get_set_other]

/-! ## Regions -/

theorem inRegion_iff {g : Region} {a : Nat} : inRegion g a = true ↔ Inside g a := by
  simp [inRegion, Inside]

theorem regionsMeet_iff {g h : Region} : regionsMeet g h = true ↔ ShareByte g h := by
  simp only [regionsMeet, ShareByte, Inside, Bool.and_eq_true, decide_eq_true_eq]
  constructor
  · rintro ⟨⟨⟨h1, h2⟩, h3⟩, h4⟩
    exact ⟨max g.base h.base, by omega⟩
  · rintro ⟨a, h1, h2⟩
    omega

theorem regionValid_iff {p : Params} {g : Region} : regionValid p g = true ↔ Valid p g := by
  simp only [regionValid, Valid, Inside, Bool.and_eq_true, decide_eq_true_eq, List.all_eq_true,
    List.mem_range]
  refine and_congr_right (fun _ => ⟨fun h a ha => ?_, fun h k hk => h _ (by omega)⟩)
  have := h (a - g.base) (by omega)
  rwa [show g.base + (a - g.base) = a by omega] at this

/-! ## Preconditions -/

theorem lengthBad_iff {m : Mode} {f : OperandFile Word64} :
    lengthBad m f = true ↔ m ≠ .ctr ∧ f.len.toNat % 16 ≠ 0 := by
  simp [lengthBad]

theorem overlapBad_iff {f : OperandFile Word64} :
    overlapBad f = true ↔ f.dst ≠ f.src ∧ ShareByte (inputRegion f) (outputRegion f) := by
  simp [overlapBad, regionsMeet_iff]

theorem unbackedBad_iff {p : Params} {m : Mode} {nr : Nat} {f : OperandFile Word64} :
    unbackedBad p m nr f = true ↔ ∃ g ∈ footprint m nr f, 2 ^ p.aw ≤ g.base ∨ ¬ Valid p g := by
  simp only [unbackedBad, List.any_eq_true, Bool.or_eq_true, decide_eq_true_eq, Bool.not_eq_true',
    ← regionValid_iff, Bool.not_eq_true]

theorem scheduleBad_iff {m : Mode} {nr : Nat} {f : OperandFile Word64} :
    scheduleBad m nr f = true ↔ ∃ g ∈ scheduleRegions m nr f, ShareByte (outputRegion f) g := by
  simp [scheduleBad, regionsMeet_iff]

theorem alignBad_iff {p : Params} {m : Mode} {nr : Nat} {f : OperandFile Word64} :
    alignBad p m nr f = true ↔ ∃ g ∈ scheduleRegions m nr f, g.base % p.schedAlign ≠ 0 := by
  simp [alignBad]

/-- With no bytes the input and output ranges share none. -/
theorem not_shareByte_of_len {f : OperandFile Word64} (h : f.len = 0#64) :
    ¬ ShareByte (inputRegion f) (outputRegion f) := by
  rintro ⟨a, h1, h2⟩
  simp only [Inside, inputRegion, outputRegion, h] at h1 h2
  simp at h1
  omega

/-- No violation among the operands is what the spec calls legal operands. -/
theorem operandViolations_nil {p : Params} {m : Mode} {kc : KeyClass} {f : OperandFile Word64} :
    operandViolations p m kc f = [] ↔ OperandsLegal p m kc f := by
  have key : operandViolations p m kc f = [] ↔ lengthBad m f = false ∧ overlapBad f = false ∧
      unbackedBad p m (rounds p kc) f = false ∧ scheduleBad m (rounds p kc) f = false ∧
      alignBad p m (rounds p kc) f = false := by
    simp only [operandViolations, List.append_eq_nil_iff]
    cases lengthBad m f <;> cases overlapBad f <;> cases unbackedBad p m (rounds p kc) f <;>
      cases scheduleBad m (rounds p kc) f <;> cases alignBad p m (rounds p kc) f <;> simp
  rw [key]
  simp only [← Bool.not_eq_true, lengthBad_iff, overlapBad_iff, unbackedBad_iff, scheduleBad_iff,
    alignBad_iff]
  constructor
  · rintro ⟨h1, h2, h3, h4, h5⟩
    refine ⟨fun hm => by_contra fun h => h1 ⟨hm, h⟩, ?_, fun g hg => ?_,
      fun g hg => by_contra fun h => h3 ⟨g, hg, .inr h⟩, fun g hg h => h4 ⟨g, hg, h⟩, fun g hg => by_contra fun h => h5 ⟨g, hg, h⟩⟩
    · by_cases hd : f.dst = f.src
      · exact .inr (.inl hd)
      · exact .inr (.inr fun h => h2 ⟨hd, h⟩)
    · exact Nat.lt_of_not_le fun h => h3 ⟨g, hg, .inl h⟩
  · rintro ⟨h1, h2, h0, h3, h4, h5⟩
    refine ⟨fun h => h.2 (h1 h.1), ?_, fun ⟨g, hg, h⟩ => h.elim (h0 g hg).not_ge (· (h3 g hg)), fun ⟨g, hg, h⟩ => h4 g hg h,
      fun ⟨g, hg, h⟩ => h (h5 g hg)⟩
    rintro ⟨ha, hb⟩
    rcases h2 with h2 | h2 | h2
    · exact not_shareByte_of_len h2 hb
    · exact ha h2
    · exact h2 hb

theorem unwrittenBad_iff {m : Mode} {w : OperandFile Bool} :
    unwrittenBad m w = true ↔ ∃ r ∈ modeOperands m, w.get r = false := by
  simp [unwrittenBad]

/-- A command is issued with no violation exactly when it is Ready. -/
theorem issueViolations_nil {i : Instr} {s : State} : issueViolations i s = [] ↔ Ready i s := by
  unfold issueViolations
  constructor
  · intro h
    split at h
    · cases h
    next hb =>
    split at h
    · cases h
    next hp =>
    split at h
    · cases h
    next hw =>
    refine ⟨by simpa using hb, by simpa using hp, fun r hr => ?_, operandViolations_nil.1 h⟩
    by_contra hc
    exact hw (unwrittenBad_iff.2 ⟨r, hr, by simpa using hc⟩)
  · rintro ⟨h1, h2, h3, h4⟩
    rw [if_neg (by simp [h1]), if_neg (by simp [h2]), if_neg, operandViolations_nil.2 h4]
    rw [unwrittenBad_iff]
    rintro ⟨r, hr, hc⟩
    simp [h3 r hr] at hc

/-- A Ready command goes on, to its completion. -/
theorem runCommand_ready {i : Instr} {body : State → State} {s : State} (h : Ready i s) :
    runCommand i body s = .next (complete (body (loadPhase (issue i s)))) := by
  simp [runCommand, ifDefined, issueViolations_nil.2 h]

/-- All a command run whole can do: it was Ready and completed, or it was refused with the
violations that hold. -/
theorem runCommand_cases (i : Instr) (body : State → State) (s : State) :
    (Ready i s ∧ runCommand i body s = .next (complete (body (loadPhase (issue i s))))) ∨
    (¬ Ready i s ∧ ∃ v others, issueViolations i s = v :: others ∧
      runCommand i body s = .refused (.violated v others)) := by
  by_cases h : Ready i s
  · exact .inl ⟨h, runCommand_ready h⟩
  · refine .inr ⟨h, ?_⟩
    rw [← issueViolations_nil] at h
    obtain ⟨v, others, hv⟩ := List.exists_cons_of_ne_nil h
    exact ⟨v, others, hv, by simp [runCommand, ifDefined, hv]⟩

/-- If a command run whole answers a next state, it was Ready and that state is its completion. -/
theorem runCommand_next {i : Instr} {body : State → State} {s t : State}
    (h : runCommand i body s = .next t) :
    Ready i s ∧ t = complete (body (loadPhase (issue i s))) := by
  rcases runCommand_cases i body s with ⟨hr, he⟩ | ⟨_, v, o, _, he⟩
  · rw [he] at h
    exact ⟨hr, by injection h with h; exact h.symm⟩
  · rw [he] at h
    cases h

end Sys2Proof.Machine
end

