-- ==== Sys2Proof/Laws/State.lean ====
section
/-! SUPPORT. What each state update does to each field of State, field by field (one lemma per field
per update, true by unfolding and rfl), and the same for the seed read, by its mode. -/

namespace Sys2Proof.Machine

open Sys2Proof.Config (RoundPrims)

/-! ### setBusy -/

@[simp] theorem setBusy_params (s : State) :
    (setBusy s).params = s.params := by
  unfold setBusy; rfl

@[simp] theorem setBusy_regs (s : State) :
    (setBusy s).regs = s.regs := by
  unfold setBusy; rfl

@[simp] theorem setBusy_written (s : State) :
    (setBusy s).written = s.written := by
  unfold setBusy; rfl

@[simp] theorem setBusy_cmd (s : State) :
    (setBusy s).cmd = s.cmd := by
  unfold setBusy; rfl

@[simp] theorem setBusy_cmdWritten (s : State) :
    (setBusy s).cmdWritten = s.cmdWritten := by
  unfold setBusy; rfl

@[simp] theorem setBusy_busy (s : State) :
    (setBusy s).busy = true := by
  unfold setBusy; rfl

@[simp] theorem setBusy_unread (s : State) :
    (setBusy s).unread = s.unread := by
  unfold setBusy; rfl

@[simp] theorem setBusy_phase (s : State) :
    (setBusy s).phase = s.phase := by
  unfold setBusy; rfl

@[simp] theorem setBusy_work (s : State) :
    (setBusy s).work = s.work := by
  unfold setBusy; rfl

@[simp] theorem setBusy_mem (s : State) :
    (setBusy s).mem = s.mem := by
  unfold setBusy; rfl

@[simp] theorem setBusy_events (s : State) :
    (setBusy s).events = s.events := by
  unfold setBusy; rfl

@[simp] theorem setBusy_reply (s : State) :
    (setBusy s).reply = s.reply := by
  unfold setBusy; rfl

@[simp] theorem setBusy_free (s : State) :
    (setBusy s).free = s.free := by
  unfold setBusy; rfl

/-! ### complete -/

@[simp] theorem complete_params (s : State) :
    (complete s).params = s.params := by
  unfold complete; rfl

@[simp] theorem complete_regs (s : State) :
    (complete s).regs = s.regs := by
  unfold complete; rfl

@[simp] theorem complete_written (s : State) :
    (complete s).written = s.written := by
  unfold complete; rfl

@[simp] theorem complete_cmd (s : State) :
    (complete s).cmd = s.cmd := by
  unfold complete; rfl

@[simp] theorem complete_cmdWritten (s : State) :
    (complete s).cmdWritten = s.cmdWritten := by
  unfold complete; rfl

@[simp] theorem complete_busy (s : State) :
    (complete s).busy = false := by
  unfold complete; rfl

@[simp] theorem complete_unread (s : State) :
    (complete s).unread = s.unread := by
  unfold complete; rfl

@[simp] theorem complete_phase (s : State) :
    (complete s).phase = .idle := by
  unfold complete; rfl

@[simp] theorem complete_work (s : State) :
    (complete s).work = s.work := by
  unfold complete; rfl

@[simp] theorem complete_mem (s : State) :
    (complete s).mem = s.mem := by
  unfold complete; rfl

@[simp] theorem complete_events (s : State) :
    (complete s).events = s.events := by
  unfold complete; rfl

@[simp] theorem complete_reply (s : State) :
    (complete s).reply = s.reply := by
  unfold complete; rfl

@[simp] theorem complete_free (s : State) :
    (complete s).free = s.free := by
  unfold complete; rfl

/-! ### writeOperand -/

@[simp] theorem writeOperand_params (r : OperandReg) (v : Word64) (s : State) :
    (writeOperand r v s).params = s.params := by
  unfold writeOperand; rfl

@[simp] theorem writeOperand_regs (r : OperandReg) (v : Word64) (s : State) :
    (writeOperand r v s).regs = s.regs.set r v := by
  unfold writeOperand; rfl

@[simp] theorem writeOperand_written (r : OperandReg) (v : Word64) (s : State) :
    (writeOperand r v s).written = s.written.set r true := by
  unfold writeOperand; rfl

@[simp] theorem writeOperand_cmd (r : OperandReg) (v : Word64) (s : State) :
    (writeOperand r v s).cmd = s.cmd := by
  unfold writeOperand; rfl

@[simp] theorem writeOperand_cmdWritten (r : OperandReg) (v : Word64) (s : State) :
    (writeOperand r v s).cmdWritten = s.cmdWritten := by
  unfold writeOperand; rfl

@[simp] theorem writeOperand_busy (r : OperandReg) (v : Word64) (s : State) :
    (writeOperand r v s).busy = s.busy := by
  unfold writeOperand; rfl

@[simp] theorem writeOperand_unread (r : OperandReg) (v : Word64) (s : State) :
    (writeOperand r v s).unread = s.unread := by
  unfold writeOperand; rfl

@[simp] theorem writeOperand_phase (r : OperandReg) (v : Word64) (s : State) :
    (writeOperand r v s).phase = s.phase := by
  unfold writeOperand; rfl

@[simp] theorem writeOperand_work (r : OperandReg) (v : Word64) (s : State) :
    (writeOperand r v s).work = s.work := by
  unfold writeOperand; rfl

@[simp] theorem writeOperand_mem (r : OperandReg) (v : Word64) (s : State) :
    (writeOperand r v s).mem = s.mem := by
  unfold writeOperand; rfl

@[simp] theorem writeOperand_events (r : OperandReg) (v : Word64) (s : State) :
    (writeOperand r v s).events = s.events := by
  unfold writeOperand; rfl

@[simp] theorem writeOperand_reply (r : OperandReg) (v : Word64) (s : State) :
    (writeOperand r v s).reply = s.reply := by
  unfold writeOperand; rfl

@[simp] theorem writeOperand_free (r : OperandReg) (v : Word64) (s : State) :
    (writeOperand r v s).free = s.free := by
  unfold writeOperand; rfl

/-! ### readStatus -/

@[simp] theorem readStatus_params (s : State) :
    (readStatus s).params = s.params := by
  unfold readStatus; rfl

@[simp] theorem readStatus_regs (s : State) :
    (readStatus s).regs = s.regs := by
  unfold readStatus; rfl

@[simp] theorem readStatus_written (s : State) :
    (readStatus s).written = s.written := by
  unfold readStatus; rfl

@[simp] theorem readStatus_cmd (s : State) :
    (readStatus s).cmd = s.cmd := by
  unfold readStatus; rfl

@[simp] theorem readStatus_cmdWritten (s : State) :
    (readStatus s).cmdWritten = s.cmdWritten := by
  unfold readStatus; rfl

@[simp] theorem readStatus_busy (s : State) :
    (readStatus s).busy = s.busy := by
  unfold readStatus; rfl

@[simp] theorem readStatus_unread (s : State) :
    (readStatus s).unread = (s.unread && s.busy) := by
  unfold readStatus; rfl

@[simp] theorem readStatus_phase (s : State) :
    (readStatus s).phase = s.phase := by
  unfold readStatus; rfl

@[simp] theorem readStatus_work (s : State) :
    (readStatus s).work = s.work := by
  unfold readStatus; rfl

@[simp] theorem readStatus_mem (s : State) :
    (readStatus s).mem = s.mem := by
  unfold readStatus; rfl

@[simp] theorem readStatus_events (s : State) :
    (readStatus s).events = s.events := by
  unfold readStatus; rfl

@[simp] theorem readStatus_reply (s : State) :
    (readStatus s).reply = some (.word (statusWord s)) := by
  unfold readStatus; rfl

@[simp] theorem readStatus_free (s : State) :
    (readStatus s).free = s.free := by
  unfold readStatus; rfl

/-! ### issue -/

@[simp] theorem issue_params (i : Instr) (s : State) :
    (issue i s).params = s.params := by
  unfold issue; rfl

@[simp] theorem issue_regs (i : Instr) (s : State) :
    (issue i s).regs = s.regs := by
  unfold issue; rfl

@[simp] theorem issue_written (i : Instr) (s : State) :
    (issue i s).written = s.written := by
  unfold issue; rfl

@[simp] theorem issue_cmd (i : Instr) (s : State) :
    (issue i s).cmd = encode i := by
  unfold issue; rfl

@[simp] theorem issue_cmdWritten (i : Instr) (s : State) :
    (issue i s).cmdWritten = true := by
  unfold issue; rfl

@[simp] theorem issue_busy (i : Instr) (s : State) :
    (issue i s).busy = true := by
  unfold issue; rfl

@[simp] theorem issue_unread (i : Instr) (s : State) :
    (issue i s).unread = s.unread := by
  unfold issue; rfl

@[simp] theorem issue_phase (i : Instr) (s : State) :
    (issue i s).phase = .load := by
  unfold issue; rfl

@[simp] theorem issue_work (i : Instr) (s : State) :
    (issue i s).work = { s.work with
      lat := .latchListed (modeOperands i.mode) s.regs s.work.lat
      mode := i.mode
      dir := i.dir
      kc := i.keyClass } := by
  unfold issue; rfl

@[simp] theorem issue_mem (i : Instr) (s : State) :
    (issue i s).mem = s.mem := by
  unfold issue; rfl

@[simp] theorem issue_events (i : Instr) (s : State) :
    (issue i s).events = s.events := by
  unfold issue; rfl

@[simp] theorem issue_reply (i : Instr) (s : State) :
    (issue i s).reply = s.reply := by
  unfold issue; rfl

@[simp] theorem issue_free (i : Instr) (s : State) :
    (issue i s).free = s.free := by
  unfold issue; rfl

/-! ### fetchBlock -/

@[simp] theorem fetchBlock_params (s : State) :
    (fetchBlock s).params = s.params := by
  unfold fetchBlock; rfl

@[simp] theorem fetchBlock_regs (s : State) :
    (fetchBlock s).regs = s.regs := by
  unfold fetchBlock; rfl

@[simp] theorem fetchBlock_written (s : State) :
    (fetchBlock s).written = s.written := by
  unfold fetchBlock; rfl

@[simp] theorem fetchBlock_cmd (s : State) :
    (fetchBlock s).cmd = s.cmd := by
  unfold fetchBlock; rfl

@[simp] theorem fetchBlock_cmdWritten (s : State) :
    (fetchBlock s).cmdWritten = s.cmdWritten := by
  unfold fetchBlock; rfl

@[simp] theorem fetchBlock_busy (s : State) :
    (fetchBlock s).busy = s.busy := by
  unfold fetchBlock; rfl

@[simp] theorem fetchBlock_unread (s : State) :
    (fetchBlock s).unread = s.unread := by
  unfold fetchBlock; rfl

@[simp] theorem fetchBlock_phase (s : State) :
    (fetchBlock s).phase = s.phase := by
  unfold fetchBlock; rfl

@[simp] theorem fetchBlock_work (s : State) :
    (fetchBlock s).work = { s.work with x := readBlock s.mem (blockAddr s.work.lat.src s.work.idx) } := by
  unfold fetchBlock; rfl

@[simp] theorem fetchBlock_mem (s : State) :
    (fetchBlock s).mem = s.mem := by
  unfold fetchBlock; rfl

@[simp] theorem fetchBlock_events (s : State) :
    (fetchBlock s).events = s.events := by
  unfold fetchBlock; rfl

@[simp] theorem fetchBlock_reply (s : State) :
    (fetchBlock s).reply = s.reply := by
  unfold fetchBlock; rfl

@[simp] theorem fetchBlock_free (s : State) :
    (fetchBlock s).free = s.free := by
  unfold fetchBlock; rfl

/-! ### emitBlock -/

@[simp] theorem emitBlock_params (out : Working → Block) (s : State) :
    (emitBlock out s).params = s.params := by
  unfold emitBlock; rfl

@[simp] theorem emitBlock_regs (out : Working → Block) (s : State) :
    (emitBlock out s).regs = s.regs := by
  unfold emitBlock; rfl

@[simp] theorem emitBlock_written (out : Working → Block) (s : State) :
    (emitBlock out s).written = s.written := by
  unfold emitBlock; rfl

@[simp] theorem emitBlock_cmd (out : Working → Block) (s : State) :
    (emitBlock out s).cmd = s.cmd := by
  unfold emitBlock; rfl

@[simp] theorem emitBlock_cmdWritten (out : Working → Block) (s : State) :
    (emitBlock out s).cmdWritten = s.cmdWritten := by
  unfold emitBlock; rfl

@[simp] theorem emitBlock_busy (out : Working → Block) (s : State) :
    (emitBlock out s).busy = s.busy := by
  unfold emitBlock; rfl

@[simp] theorem emitBlock_unread (out : Working → Block) (s : State) :
    (emitBlock out s).unread = s.unread := by
  unfold emitBlock; rfl

@[simp] theorem emitBlock_phase (out : Working → Block) (s : State) :
    (emitBlock out s).phase = s.phase := by
  unfold emitBlock; rfl

@[simp] theorem emitBlock_work (out : Working → Block) (s : State) :
    (emitBlock out s).work = { s.work with y := out s.work } := by
  unfold emitBlock; rfl

@[simp] theorem emitBlock_mem (out : Working → Block) (s : State) :
    (emitBlock out s).mem = writeBlock s.mem (blockAddr s.work.lat.dst s.work.idx) (out s.work) := by
  unfold emitBlock; rfl

@[simp] theorem emitBlock_events (out : Working → Block) (s : State) :
    (emitBlock out s).events = s.events := by
  unfold emitBlock; rfl

@[simp] theorem emitBlock_reply (out : Working → Block) (s : State) :
    (emitBlock out s).reply = s.reply := by
  unfold emitBlock; rfl

@[simp] theorem emitBlock_free (out : Working → Block) (s : State) :
    (emitBlock out s).free = s.free := by
  unfold emitBlock; rfl

/-! ### nextIndex -/

@[simp] theorem nextIndex_params (s : State) :
    (nextIndex s).params = s.params := by
  unfold nextIndex; rfl

@[simp] theorem nextIndex_regs (s : State) :
    (nextIndex s).regs = s.regs := by
  unfold nextIndex; rfl

@[simp] theorem nextIndex_written (s : State) :
    (nextIndex s).written = s.written := by
  unfold nextIndex; rfl

@[simp] theorem nextIndex_cmd (s : State) :
    (nextIndex s).cmd = s.cmd := by
  unfold nextIndex; rfl

@[simp] theorem nextIndex_cmdWritten (s : State) :
    (nextIndex s).cmdWritten = s.cmdWritten := by
  unfold nextIndex; rfl

@[simp] theorem nextIndex_busy (s : State) :
    (nextIndex s).busy = s.busy := by
  unfold nextIndex; rfl

@[simp] theorem nextIndex_unread (s : State) :
    (nextIndex s).unread = s.unread := by
  unfold nextIndex; rfl

@[simp] theorem nextIndex_phase (s : State) :
    (nextIndex s).phase = s.phase := by
  unfold nextIndex; rfl

@[simp] theorem nextIndex_work (s : State) :
    (nextIndex s).work = { s.work with idx := s.work.idx + 1#64 } := by
  unfold nextIndex; rfl

@[simp] theorem nextIndex_mem (s : State) :
    (nextIndex s).mem = s.mem := by
  unfold nextIndex; rfl

@[simp] theorem nextIndex_events (s : State) :
    (nextIndex s).events = s.events := by
  unfold nextIndex; rfl

@[simp] theorem nextIndex_reply (s : State) :
    (nextIndex s).reply = s.reply := by
  unfold nextIndex; rfl

@[simp] theorem nextIndex_free (s : State) :
    (nextIndex s).free = s.free := by
  unfold nextIndex; rfl

/-! ### clearIndex -/

@[simp] theorem clearIndex_params (s : State) :
    (clearIndex s).params = s.params := by
  unfold clearIndex; rfl

@[simp] theorem clearIndex_regs (s : State) :
    (clearIndex s).regs = s.regs := by
  unfold clearIndex; rfl

@[simp] theorem clearIndex_written (s : State) :
    (clearIndex s).written = s.written := by
  unfold clearIndex; rfl

@[simp] theorem clearIndex_cmd (s : State) :
    (clearIndex s).cmd = s.cmd := by
  unfold clearIndex; rfl

@[simp] theorem clearIndex_cmdWritten (s : State) :
    (clearIndex s).cmdWritten = s.cmdWritten := by
  unfold clearIndex; rfl

@[simp] theorem clearIndex_busy (s : State) :
    (clearIndex s).busy = s.busy := by
  unfold clearIndex; rfl

@[simp] theorem clearIndex_unread (s : State) :
    (clearIndex s).unread = s.unread := by
  unfold clearIndex; rfl

@[simp] theorem clearIndex_phase (s : State) :
    (clearIndex s).phase = s.phase := by
  unfold clearIndex; rfl

@[simp] theorem clearIndex_work (s : State) :
    (clearIndex s).work = { s.work with idx := 0#64 } := by
  unfold clearIndex; rfl

@[simp] theorem clearIndex_mem (s : State) :
    (clearIndex s).mem = s.mem := by
  unfold clearIndex; rfl

@[simp] theorem clearIndex_events (s : State) :
    (clearIndex s).events = s.events := by
  unfold clearIndex; rfl

@[simp] theorem clearIndex_reply (s : State) :
    (clearIndex s).reply = s.reply := by
  unfold clearIndex; rfl

@[simp] theorem clearIndex_free (s : State) :
    (clearIndex s).free = s.free := by
  unfold clearIndex; rfl

/-! ### setFeedback -/

@[simp] theorem setFeedback_params (value : Working → Block) (s : State) :
    (setFeedback value s).params = s.params := by
  unfold setFeedback; rfl

@[simp] theorem setFeedback_regs (value : Working → Block) (s : State) :
    (setFeedback value s).regs = s.regs := by
  unfold setFeedback; rfl

@[simp] theorem setFeedback_written (value : Working → Block) (s : State) :
    (setFeedback value s).written = s.written := by
  unfold setFeedback; rfl

@[simp] theorem setFeedback_cmd (value : Working → Block) (s : State) :
    (setFeedback value s).cmd = s.cmd := by
  unfold setFeedback; rfl

@[simp] theorem setFeedback_cmdWritten (value : Working → Block) (s : State) :
    (setFeedback value s).cmdWritten = s.cmdWritten := by
  unfold setFeedback; rfl

@[simp] theorem setFeedback_busy (value : Working → Block) (s : State) :
    (setFeedback value s).busy = s.busy := by
  unfold setFeedback; rfl

@[simp] theorem setFeedback_unread (value : Working → Block) (s : State) :
    (setFeedback value s).unread = s.unread := by
  unfold setFeedback; rfl

@[simp] theorem setFeedback_phase (value : Working → Block) (s : State) :
    (setFeedback value s).phase = s.phase := by
  unfold setFeedback; rfl

@[simp] theorem setFeedback_work (value : Working → Block) (s : State) :
    (setFeedback value s).work = { s.work with fb := value s.work } := by
  unfold setFeedback; rfl

@[simp] theorem setFeedback_mem (value : Working → Block) (s : State) :
    (setFeedback value s).mem = s.mem := by
  unfold setFeedback; rfl

@[simp] theorem setFeedback_events (value : Working → Block) (s : State) :
    (setFeedback value s).events = s.events := by
  unfold setFeedback; rfl

@[simp] theorem setFeedback_reply (value : Working → Block) (s : State) :
    (setFeedback value s).reply = s.reply := by
  unfold setFeedback; rfl

@[simp] theorem setFeedback_free (value : Working → Block) (s : State) :
    (setFeedback value s).free = s.free := by
  unfold setFeedback; rfl

/-! ### takeKeystream -/

@[simp] theorem takeKeystream_params (s : State) :
    (takeKeystream s).params = s.params := by
  unfold takeKeystream; rfl

@[simp] theorem takeKeystream_regs (s : State) :
    (takeKeystream s).regs = s.regs := by
  unfold takeKeystream; rfl

@[simp] theorem takeKeystream_written (s : State) :
    (takeKeystream s).written = s.written := by
  unfold takeKeystream; rfl

@[simp] theorem takeKeystream_cmd (s : State) :
    (takeKeystream s).cmd = s.cmd := by
  unfold takeKeystream; rfl

@[simp] theorem takeKeystream_cmdWritten (s : State) :
    (takeKeystream s).cmdWritten = s.cmdWritten := by
  unfold takeKeystream; rfl

@[simp] theorem takeKeystream_busy (s : State) :
    (takeKeystream s).busy = s.busy := by
  unfold takeKeystream; rfl

@[simp] theorem takeKeystream_unread (s : State) :
    (takeKeystream s).unread = s.unread := by
  unfold takeKeystream; rfl

@[simp] theorem takeKeystream_phase (s : State) :
    (takeKeystream s).phase = s.phase := by
  unfold takeKeystream; rfl

@[simp] theorem takeKeystream_work (s : State) :
    (takeKeystream s).work = { s.work with ksb := s.work.s } := by
  unfold takeKeystream; rfl

@[simp] theorem takeKeystream_mem (s : State) :
    (takeKeystream s).mem = s.mem := by
  unfold takeKeystream; rfl

@[simp] theorem takeKeystream_events (s : State) :
    (takeKeystream s).events = s.events := by
  unfold takeKeystream; rfl

@[simp] theorem takeKeystream_reply (s : State) :
    (takeKeystream s).reply = s.reply := by
  unfold takeKeystream; rfl

@[simp] theorem takeKeystream_free (s : State) :
    (takeKeystream s).free = s.free := by
  unfold takeKeystream; rfl

/-! ### fetchTail -/

@[simp] theorem fetchTail_params (s : State) :
    (fetchTail s).params = s.params := by
  unfold fetchTail; rfl

@[simp] theorem fetchTail_regs (s : State) :
    (fetchTail s).regs = s.regs := by
  unfold fetchTail; rfl

@[simp] theorem fetchTail_written (s : State) :
    (fetchTail s).written = s.written := by
  unfold fetchTail; rfl

@[simp] theorem fetchTail_cmd (s : State) :
    (fetchTail s).cmd = s.cmd := by
  unfold fetchTail; rfl

@[simp] theorem fetchTail_cmdWritten (s : State) :
    (fetchTail s).cmdWritten = s.cmdWritten := by
  unfold fetchTail; rfl

@[simp] theorem fetchTail_busy (s : State) :
    (fetchTail s).busy = s.busy := by
  unfold fetchTail; rfl

@[simp] theorem fetchTail_unread (s : State) :
    (fetchTail s).unread = s.unread := by
  unfold fetchTail; rfl

@[simp] theorem fetchTail_phase (s : State) :
    (fetchTail s).phase = s.phase := by
  unfold fetchTail; rfl

@[simp] theorem fetchTail_work (s : State) :
    (fetchTail s).work = { s.work with
      pb := padBlock (memRead s.mem (tailAddr s.work.lat.src s.work.nb) s.work.rem.toNat) } := by
  unfold fetchTail; rfl

@[simp] theorem fetchTail_mem (s : State) :
    (fetchTail s).mem = s.mem := by
  unfold fetchTail; rfl

@[simp] theorem fetchTail_events (s : State) :
    (fetchTail s).events = s.events := by
  unfold fetchTail; rfl

@[simp] theorem fetchTail_reply (s : State) :
    (fetchTail s).reply = s.reply := by
  unfold fetchTail; rfl

@[simp] theorem fetchTail_free (s : State) :
    (fetchTail s).free = s.free := by
  unfold fetchTail; rfl

/-! ### maskTail -/

@[simp] theorem maskTail_params (s : State) :
    (maskTail s).params = s.params := by
  unfold maskTail; rfl

@[simp] theorem maskTail_regs (s : State) :
    (maskTail s).regs = s.regs := by
  unfold maskTail; rfl

@[simp] theorem maskTail_written (s : State) :
    (maskTail s).written = s.written := by
  unfold maskTail; rfl

@[simp] theorem maskTail_cmd (s : State) :
    (maskTail s).cmd = s.cmd := by
  unfold maskTail; rfl

@[simp] theorem maskTail_cmdWritten (s : State) :
    (maskTail s).cmdWritten = s.cmdWritten := by
  unfold maskTail; rfl

@[simp] theorem maskTail_busy (s : State) :
    (maskTail s).busy = s.busy := by
  unfold maskTail; rfl

@[simp] theorem maskTail_unread (s : State) :
    (maskTail s).unread = s.unread := by
  unfold maskTail; rfl

@[simp] theorem maskTail_phase (s : State) :
    (maskTail s).phase = s.phase := by
  unfold maskTail; rfl

@[simp] theorem maskTail_work (s : State) :
    (maskTail s).work = { s.work with pb := xor16 s.work.pb s.work.ksb } := by
  unfold maskTail; rfl

@[simp] theorem maskTail_mem (s : State) :
    (maskTail s).mem = s.mem := by
  unfold maskTail; rfl

@[simp] theorem maskTail_events (s : State) :
    (maskTail s).events = s.events := by
  unfold maskTail; rfl

@[simp] theorem maskTail_reply (s : State) :
    (maskTail s).reply = s.reply := by
  unfold maskTail; rfl

@[simp] theorem maskTail_free (s : State) :
    (maskTail s).free = s.free := by
  unfold maskTail; rfl

/-! ### emitTail -/

@[simp] theorem emitTail_params (s : State) :
    (emitTail s).params = s.params := by
  unfold emitTail; rfl

@[simp] theorem emitTail_regs (s : State) :
    (emitTail s).regs = s.regs := by
  unfold emitTail; rfl

@[simp] theorem emitTail_written (s : State) :
    (emitTail s).written = s.written := by
  unfold emitTail; rfl

@[simp] theorem emitTail_cmd (s : State) :
    (emitTail s).cmd = s.cmd := by
  unfold emitTail; rfl

@[simp] theorem emitTail_cmdWritten (s : State) :
    (emitTail s).cmdWritten = s.cmdWritten := by
  unfold emitTail; rfl

@[simp] theorem emitTail_busy (s : State) :
    (emitTail s).busy = s.busy := by
  unfold emitTail; rfl

@[simp] theorem emitTail_unread (s : State) :
    (emitTail s).unread = s.unread := by
  unfold emitTail; rfl

@[simp] theorem emitTail_phase (s : State) :
    (emitTail s).phase = s.phase := by
  unfold emitTail; rfl

@[simp] theorem emitTail_work (s : State) :
    (emitTail s).work = s.work := by
  unfold emitTail; rfl

@[simp] theorem emitTail_mem (s : State) :
    (emitTail s).mem = memWrite s.mem (tailAddr s.work.lat.dst s.work.nb)
      (s.work.pb.toList.take s.work.rem.toNat) := by
  unfold emitTail; rfl

@[simp] theorem emitTail_events (s : State) :
    (emitTail s).events = s.events := by
  unfold emitTail; rfl

@[simp] theorem emitTail_reply (s : State) :
    (emitTail s).reply = s.reply := by
  unfold emitTail; rfl

@[simp] theorem emitTail_free (s : State) :
    (emitTail s).free = s.free := by
  unfold emitTail; rfl

/-! ### setTweak -/

@[simp] theorem setTweak_params (value : Working → Block) (s : State) :
    (setTweak value s).params = s.params := by
  unfold setTweak; rfl

@[simp] theorem setTweak_regs (value : Working → Block) (s : State) :
    (setTweak value s).regs = s.regs := by
  unfold setTweak; rfl

@[simp] theorem setTweak_written (value : Working → Block) (s : State) :
    (setTweak value s).written = s.written := by
  unfold setTweak; rfl

@[simp] theorem setTweak_cmd (value : Working → Block) (s : State) :
    (setTweak value s).cmd = s.cmd := by
  unfold setTweak; rfl

@[simp] theorem setTweak_cmdWritten (value : Working → Block) (s : State) :
    (setTweak value s).cmdWritten = s.cmdWritten := by
  unfold setTweak; rfl

@[simp] theorem setTweak_busy (value : Working → Block) (s : State) :
    (setTweak value s).busy = s.busy := by
  unfold setTweak; rfl

@[simp] theorem setTweak_unread (value : Working → Block) (s : State) :
    (setTweak value s).unread = s.unread := by
  unfold setTweak; rfl

@[simp] theorem setTweak_phase (value : Working → Block) (s : State) :
    (setTweak value s).phase = s.phase := by
  unfold setTweak; rfl

@[simp] theorem setTweak_work (value : Working → Block) (s : State) :
    (setTweak value s).work = { s.work with tw := value s.work } := by
  unfold setTweak; rfl

@[simp] theorem setTweak_mem (value : Working → Block) (s : State) :
    (setTweak value s).mem = s.mem := by
  unfold setTweak; rfl

@[simp] theorem setTweak_events (value : Working → Block) (s : State) :
    (setTweak value s).events = s.events := by
  unfold setTweak; rfl

@[simp] theorem setTweak_reply (value : Working → Block) (s : State) :
    (setTweak value s).reply = s.reply := by
  unfold setTweak; rfl

@[simp] theorem setTweak_free (value : Working → Block) (s : State) :
    (setTweak value s).free = s.free := by
  unfold setTweak; rfl

/-! ### advanceCounter -/

@[simp] theorem advanceCounter_params (s : State) :
    (advanceCounter s).params = s.params := by
  unfold advanceCounter; rfl

@[simp] theorem advanceCounter_regs (s : State) :
    (advanceCounter s).regs = s.regs := by
  unfold advanceCounter; rfl

@[simp] theorem advanceCounter_written (s : State) :
    (advanceCounter s).written = s.written := by
  unfold advanceCounter; rfl

@[simp] theorem advanceCounter_cmd (s : State) :
    (advanceCounter s).cmd = s.cmd := by
  unfold advanceCounter; rfl

@[simp] theorem advanceCounter_cmdWritten (s : State) :
    (advanceCounter s).cmdWritten = s.cmdWritten := by
  unfold advanceCounter; rfl

@[simp] theorem advanceCounter_busy (s : State) :
    (advanceCounter s).busy = s.busy := by
  unfold advanceCounter; rfl

@[simp] theorem advanceCounter_unread (s : State) :
    (advanceCounter s).unread = s.unread := by
  unfold advanceCounter; rfl

@[simp] theorem advanceCounter_phase (s : State) :
    (advanceCounter s).phase = s.phase := by
  unfold advanceCounter; rfl

@[simp] theorem advanceCounter_work (s : State) :
    (advanceCounter s).work = { s.work with cnt := inc128 s.work.cnt } := by
  unfold advanceCounter; rfl

@[simp] theorem advanceCounter_mem (s : State) :
    (advanceCounter s).mem = s.mem := by
  unfold advanceCounter; rfl

@[simp] theorem advanceCounter_events (s : State) :
    (advanceCounter s).events = s.events := by
  unfold advanceCounter; rfl

@[simp] theorem advanceCounter_reply (s : State) :
    (advanceCounter s).reply = s.reply := by
  unfold advanceCounter; rfl

@[simp] theorem advanceCounter_free (s : State) :
    (advanceCounter s).free = s.free := by
  unfold advanceCounter; rfl

/-! ### runCore -/

@[simp] theorem runCore_params (P : RoundPrims) (sel : KeySelect) (d : Dir) (input : Working → Block) (s : State) :
    (runCore P sel d input s).params = s.params := by
  unfold runCore; rfl

@[simp] theorem runCore_regs (P : RoundPrims) (sel : KeySelect) (d : Dir) (input : Working → Block) (s : State) :
    (runCore P sel d input s).regs = s.regs := by
  unfold runCore; rfl

@[simp] theorem runCore_written (P : RoundPrims) (sel : KeySelect) (d : Dir) (input : Working → Block) (s : State) :
    (runCore P sel d input s).written = s.written := by
  unfold runCore; rfl

@[simp] theorem runCore_cmd (P : RoundPrims) (sel : KeySelect) (d : Dir) (input : Working → Block) (s : State) :
    (runCore P sel d input s).cmd = s.cmd := by
  unfold runCore; rfl

@[simp] theorem runCore_cmdWritten (P : RoundPrims) (sel : KeySelect) (d : Dir) (input : Working → Block) (s : State) :
    (runCore P sel d input s).cmdWritten = s.cmdWritten := by
  unfold runCore; rfl

@[simp] theorem runCore_busy (P : RoundPrims) (sel : KeySelect) (d : Dir) (input : Working → Block) (s : State) :
    (runCore P sel d input s).busy = s.busy := by
  unfold runCore; rfl

@[simp] theorem runCore_unread (P : RoundPrims) (sel : KeySelect) (d : Dir) (input : Working → Block) (s : State) :
    (runCore P sel d input s).unread = s.unread := by
  unfold runCore; rfl

@[simp] theorem runCore_phase (P : RoundPrims) (sel : KeySelect) (d : Dir) (input : Working → Block) (s : State) :
    (runCore P sel d input s).phase = s.phase := by
  unfold runCore; rfl

@[simp] theorem runCore_work (P : RoundPrims) (sel : KeySelect) (d : Dir) (input : Working → Block) (s : State) :
    (runCore P sel d input s).work = { s.work with
      ksel := sel
      s := blockOp P d s.mem (selectedSchedule sel s) (rounds s.params s.work.kc) (input s.work) } := by
  unfold runCore; rfl

@[simp] theorem runCore_mem (P : RoundPrims) (sel : KeySelect) (d : Dir) (input : Working → Block) (s : State) :
    (runCore P sel d input s).mem = s.mem := by
  unfold runCore; rfl

@[simp] theorem runCore_events (P : RoundPrims) (sel : KeySelect) (d : Dir) (input : Working → Block) (s : State) :
    (runCore P sel d input s).events = s.events := by
  unfold runCore; rfl

@[simp] theorem runCore_reply (P : RoundPrims) (sel : KeySelect) (d : Dir) (input : Working → Block) (s : State) :
    (runCore P sel d input s).reply = s.reply := by
  unfold runCore; rfl

@[simp] theorem runCore_free (P : RoundPrims) (sel : KeySelect) (d : Dir) (input : Working → Block) (s : State) :
    (runCore P sel d input s).free = s.free := by
  unfold runCore; rfl

/-! ### loadSeed, loadPhase -/

@[simp] theorem loadSeed_params (s : State) : (loadSeed s).params = s.params := by
  unfold loadSeed; split <;> rfl

@[simp] theorem loadPhase_params (s : State) : (loadPhase s).params = s.params := by
  simp [loadPhase]

@[simp] theorem loadSeed_regs (s : State) : (loadSeed s).regs = s.regs := by
  unfold loadSeed; split <;> rfl

@[simp] theorem loadPhase_regs (s : State) : (loadPhase s).regs = s.regs := by
  simp [loadPhase]

@[simp] theorem loadSeed_written (s : State) : (loadSeed s).written = s.written := by
  unfold loadSeed; split <;> rfl

@[simp] theorem loadPhase_written (s : State) : (loadPhase s).written = s.written := by
  simp [loadPhase]

@[simp] theorem loadSeed_cmd (s : State) : (loadSeed s).cmd = s.cmd := by
  unfold loadSeed; split <;> rfl

@[simp] theorem loadPhase_cmd (s : State) : (loadPhase s).cmd = s.cmd := by
  simp [loadPhase]

@[simp] theorem loadSeed_cmdWritten (s : State) : (loadSeed s).cmdWritten = s.cmdWritten := by
  unfold loadSeed; split <;> rfl

@[simp] theorem loadPhase_cmdWritten (s : State) : (loadPhase s).cmdWritten = s.cmdWritten := by
  simp [loadPhase]

@[simp] theorem loadSeed_busy (s : State) : (loadSeed s).busy = s.busy := by
  unfold loadSeed; split <;> rfl

@[simp] theorem loadSeed_unread (s : State) :
    (loadSeed s).unread = s.unread := by
  unfold loadSeed; split <;> rfl

@[simp] theorem loadPhase_busy (s : State) : (loadPhase s).busy = s.busy := by
  simp [loadPhase]

@[simp] theorem loadPhase_unread (s : State) :
    (loadPhase s).unread = s.unread := by
  simp [loadPhase]

@[simp] theorem loadSeed_phase (s : State) : (loadSeed s).phase = s.phase := by
  unfold loadSeed; split <;> rfl

@[simp] theorem loadPhase_phase (s : State) : (loadPhase s).phase = s.phase := by
  simp [loadPhase]

@[simp] theorem loadSeed_mem (s : State) : (loadSeed s).mem = s.mem := by
  unfold loadSeed; split <;> rfl

@[simp] theorem loadPhase_mem (s : State) : (loadPhase s).mem = s.mem := by
  simp [loadPhase]

@[simp] theorem loadSeed_events (s : State) : (loadSeed s).events = s.events := by
  unfold loadSeed; split <;> rfl

@[simp] theorem loadPhase_events (s : State) : (loadPhase s).events = s.events := by
  simp [loadPhase]

@[simp] theorem loadSeed_reply (s : State) : (loadSeed s).reply = s.reply := by
  unfold loadSeed; split <;> rfl

@[simp] theorem loadPhase_reply (s : State) : (loadPhase s).reply = s.reply := by
  simp [loadPhase]

@[simp] theorem loadSeed_free (s : State) : (loadSeed s).free = s.free := by
  unfold loadSeed; split <;> rfl

@[simp] theorem loadPhase_free (s : State) : (loadPhase s).free = s.free := by
  simp [loadPhase]

@[simp] theorem loadSeed_work_lat (s : State) : (loadSeed s).work.lat = s.work.lat := by
  unfold loadSeed; split <;> rfl

@[simp] theorem loadSeed_work_mode (s : State) : (loadSeed s).work.mode = s.work.mode := by
  unfold loadSeed; split <;> rfl

@[simp] theorem loadSeed_work_dir (s : State) : (loadSeed s).work.dir = s.work.dir := by
  unfold loadSeed; split <;> rfl

@[simp] theorem loadSeed_work_kc (s : State) : (loadSeed s).work.kc = s.work.kc := by
  unfold loadSeed; split <;> rfl

@[simp] theorem loadSeed_work_nb (s : State) : (loadSeed s).work.nb = s.work.nb := by
  unfold loadSeed; split <;> rfl

@[simp] theorem loadSeed_work_rem (s : State) : (loadSeed s).work.rem = s.work.rem := by
  unfold loadSeed; split <;> rfl

@[simp] theorem loadSeed_work_s (s : State) : (loadSeed s).work.s = s.work.s := by
  unfold loadSeed; split <;> rfl

@[simp] theorem loadSeed_work_y (s : State) : (loadSeed s).work.y = s.work.y := by
  unfold loadSeed; split <;> rfl

@[simp] theorem loadSeed_work_pb (s : State) : (loadSeed s).work.pb = s.work.pb := by
  unfold loadSeed; split <;> rfl

@[simp] theorem loadSeed_work_ksb (s : State) : (loadSeed s).work.ksb = s.work.ksb := by
  unfold loadSeed; split <;> rfl

@[simp] theorem loadSeed_work_tw (s : State) : (loadSeed s).work.tw = s.work.tw := by
  unfold loadSeed; split <;> rfl

@[simp] theorem loadSeed_work_ksel (s : State) : (loadSeed s).work.ksel = s.work.ksel := by
  unfold loadSeed; split <;> rfl

@[simp] theorem loadSeed_work_idx (s : State) : (loadSeed s).work.idx = s.work.idx := by
  unfold loadSeed; split <;> rfl

@[simp] theorem loadPhase_work_lat (s : State) : (loadPhase s).work.lat = s.work.lat := by
  simp [loadPhase]

@[simp] theorem loadPhase_work_mode (s : State) : (loadPhase s).work.mode = s.work.mode := by
  simp [loadPhase]

@[simp] theorem loadPhase_work_dir (s : State) : (loadPhase s).work.dir = s.work.dir := by
  simp [loadPhase]

@[simp] theorem loadPhase_work_kc (s : State) : (loadPhase s).work.kc = s.work.kc := by
  simp [loadPhase]

@[simp] theorem loadPhase_work_s (s : State) : (loadPhase s).work.s = s.work.s := by
  simp [loadPhase]

@[simp] theorem loadPhase_work_y (s : State) : (loadPhase s).work.y = s.work.y := by
  simp [loadPhase]

@[simp] theorem loadPhase_work_pb (s : State) : (loadPhase s).work.pb = s.work.pb := by
  simp [loadPhase]

@[simp] theorem loadPhase_work_ksb (s : State) : (loadPhase s).work.ksb = s.work.ksb := by
  simp [loadPhase]

@[simp] theorem loadPhase_work_tw (s : State) : (loadPhase s).work.tw = s.work.tw := by
  simp [loadPhase]

@[simp] theorem loadPhase_work_ksel (s : State) : (loadPhase s).work.ksel = s.work.ksel := by
  simp [loadPhase]

@[simp] theorem loadPhase_work_idx (s : State) : (loadPhase s).work.idx = 0#64 := by
  simp [loadPhase]

@[simp] theorem loadPhase_work_nb (s : State) :
    (loadPhase s).work.nb = BitVec.ofNat 64 (s.work.lat.len.toNat / 16) := by
  simp [loadPhase]

@[simp] theorem loadPhase_work_rem (s : State) :
    (loadPhase s).work.rem = BitVec.ofNat 4 (s.work.lat.len.toNat % 16) := by
  simp [loadPhase]

end Sys2Proof.Machine
end

