-- ==== Sys2Proof/Laws/Drivers.lean ====
section
/-! SUPPORT. What the block loops of the drivers do: one loop lemma over a carried value, what each
block step does, and for each driver's body its effect on memory and on the rest of the state. -/

namespace Sys2Proof.Machine

open Sys2Proof.Config (Region Params RoundPrims)
open Sys2Proof.Safety

/-! ## What a body leaves alone -/

/-- Everything of the state but memory and the data registers of the engine. -/
structure SameControl (s t : State) : Prop where
  params     : t.params = s.params
  regs       : t.regs = s.regs
  written    : t.written = s.written
  cmd        : t.cmd = s.cmd
  cmdWritten : t.cmdWritten = s.cmdWritten
  busy       : t.busy = s.busy
  unread     : t.unread = s.unread
  phase      : t.phase = s.phase
  events     : t.events = s.events
  reply      : t.reply = s.reply
  free       : t.free = s.free
  lat        : t.work.lat = s.work.lat
  mode       : t.work.mode = s.work.mode
  dir        : t.work.dir = s.work.dir
  kc         : t.work.kc = s.work.kc
  nb         : t.work.nb = s.work.nb
  rem        : t.work.rem = s.work.rem

theorem SameControl.refl (s : State) : SameControl s s := by constructor <;> rfl

theorem SameControl.trans {s t u : State} (h : SameControl s t) (g : SameControl t u) :
    SameControl s u := by
  constructor
  · exact g.params.trans h.params
  · exact g.regs.trans h.regs
  · exact g.written.trans h.written
  · exact g.cmd.trans h.cmd
  · exact g.cmdWritten.trans h.cmdWritten
  · exact g.busy.trans h.busy
  · exact g.unread.trans h.unread
  · exact g.phase.trans h.phase
  · exact g.events.trans h.events
  · exact g.reply.trans h.reply
  · exact g.free.trans h.free
  · exact g.lat.trans h.lat
  · exact g.mode.trans h.mode
  · exact g.dir.trans h.dir
  · exact g.kc.trans h.kc
  · exact g.nb.trans h.nb
  · exact g.rem.trans h.rem

theorem SameControl.iterate {f : State → State} (h : ∀ s, SameControl s (f s)) (n : Nat)
    (s : State) : SameControl s (f^[n] s) := by
  induction n generalizing s with
  | zero => exact .refl s
  | succ n ih => exact (h s).trans (ih (f s))

theorem fetchBlock_control (s : State) : SameControl s (fetchBlock s) := by
  constructor <;> simp

theorem emitBlock_control (out : Working → Block) (s : State) :
    SameControl s (emitBlock out s) := by
  constructor <;> simp

theorem nextIndex_control (s : State) : SameControl s (nextIndex s) := by
  constructor <;> simp

theorem clearIndex_control (s : State) : SameControl s (clearIndex s) := by
  constructor <;> simp

theorem setFeedback_control (value : Working → Block) (s : State) :
    SameControl s (setFeedback value s) := by
  constructor <;> simp

theorem setTweak_control (value : Working → Block) (s : State) :
    SameControl s (setTweak value s) := by
  constructor <;> simp

theorem takeKeystream_control (s : State) : SameControl s (takeKeystream s) := by
  constructor <;> simp

theorem advanceCounter_control (s : State) : SameControl s (advanceCounter s) := by
  constructor <;> simp

theorem fetchTail_control (s : State) : SameControl s (fetchTail s) := by
  constructor <;> simp

theorem maskTail_control (s : State) : SameControl s (maskTail s) := by
  constructor <;> simp

theorem emitTail_control (s : State) : SameControl s (emitTail s) := by
  constructor <;> simp

theorem runCore_control (P : RoundPrims) (sel : KeySelect) (d : Dir) (input : Working → Block) (s : State) :
    SameControl s (runCore P sel d input s) := by
  constructor <;> simp

theorem keystream_control (P : RoundPrims) (s : State) : SameControl s (keystream P s) :=
  (runCore_control _ _ _ _ _).trans (takeKeystream_control _)

theorem ecbEncBlock_control (P : RoundPrims) (s : State) : SameControl s (ecbEncBlock P s) :=
  (((fetchBlock_control _).trans (runCore_control _ _ _ _ _)).trans (emitBlock_control _ _)).trans (nextIndex_control _)

theorem ecbDecBlock_control (P : RoundPrims) (s : State) : SameControl s (ecbDecBlock P s) :=
  (((fetchBlock_control _).trans (runCore_control _ _ _ _ _)).trans (emitBlock_control _ _)).trans (nextIndex_control _)

theorem cbcEncBlock_control (P : RoundPrims) (s : State) : SameControl s (cbcEncBlock P s) :=
  ((((fetchBlock_control _).trans (runCore_control _ _ _ _ _)).trans (emitBlock_control _ _)).trans (setFeedback_control _ _)).trans (nextIndex_control _)

theorem cbcDecBlock_control (P : RoundPrims) (s : State) : SameControl s (cbcDecBlock P s) :=
  ((((fetchBlock_control _).trans (runCore_control _ _ _ _ _)).trans (emitBlock_control _ _)).trans (setFeedback_control _ _)).trans (nextIndex_control _)

theorem ctrBlock_control (P : RoundPrims) (s : State) : SameControl s (ctrBlock P s) :=
  ((((keystream_control _ _).trans (fetchBlock_control _)).trans (emitBlock_control _ _)).trans (advanceCounter_control _)).trans (nextIndex_control _)

theorem ctrTail_control (P : RoundPrims) (s : State) : SameControl s (ctrTail P s) :=
  (((fetchTail_control _).trans (keystream_control _ _)).trans (maskTail_control _)).trans (emitTail_control _)

theorem xtsEncBlock_control (P : RoundPrims) (s : State) : SameControl s (xtsEncBlock P s) :=
  ((((fetchBlock_control _).trans (runCore_control _ _ _ _ _)).trans (emitBlock_control _ _)).trans (setTweak_control _ _)).trans (nextIndex_control _)

theorem xtsDecBlock_control (P : RoundPrims) (s : State) : SameControl s (xtsDecBlock P s) :=
  ((((fetchBlock_control _).trans (runCore_control _ _ _ _ _)).trans (emitBlock_control _ _)).trans (setTweak_control _ _)).trans (nextIndex_control _)

theorem tweakEncrypt_control (P : RoundPrims) (s : State) : SameControl s (tweakEncrypt P s) :=
  ((runCore_control _ _ _ _ _).trans (setTweak_control _ _)).trans (clearIndex_control _)

theorem tweakAdvance_control (s : State) : SameControl s (tweakAdvance s) :=
  (setTweak_control _ _).trans (nextIndex_control _)

theorem tweakOffset_control (s : State) : SameControl s (tweakOffset s) :=
  (SameControl.iterate tweakAdvance_control _ _).trans (clearIndex_control _)

theorem tweakPhases_control (P : RoundPrims) (s : State) : SameControl s (tweakPhases P s) :=
  (tweakEncrypt_control P s).trans (tweakOffset_control _)

theorem ecbEncBody_control (P : RoundPrims) (s : State) : SameControl s (ecbEncBody P s) :=
  .iterate (ecbEncBlock_control P) _ s

theorem ecbDecBody_control (P : RoundPrims) (s : State) : SameControl s (ecbDecBody P s) :=
  .iterate (ecbDecBlock_control P) _ s

theorem cbcEncBody_control (P : RoundPrims) (s : State) : SameControl s (cbcEncBody P s) :=
  .iterate (cbcEncBlock_control P) _ s

theorem cbcDecBody_control (P : RoundPrims) (s : State) : SameControl s (cbcDecBody P s) :=
  .iterate (cbcDecBlock_control P) _ s

theorem ctrRemainder_control (P : RoundPrims) (s : State) : SameControl s (ctrRemainder P s) := by
  unfold ctrRemainder
  split
  · exact ctrTail_control P s
  · exact .refl s

theorem ctrBody_control (P : RoundPrims) (s : State) : SameControl s (ctrBody P s) :=
  (SameControl.iterate (ctrBlock_control P) _ s).trans (ctrRemainder_control P _)

theorem xtsEncBody_control (P : RoundPrims) (s : State) : SameControl s (xtsEncBody P s) :=
  (tweakPhases_control P s).trans (.iterate (xtsEncBlock_control P) _ _)

theorem xtsDecBody_control (P : RoundPrims) (s : State) : SameControl s (xtsDecBody P s) :=
  (tweakPhases_control P s).trans (.iterate (xtsDecBlock_control P) _ _)

/-! ## What one block does -/

/-- One block step of a driver: IDX advances, and the block at IDX of the output range takes a
value. -/
structure BlockEffect (s t : State) (y : Block) : Prop where
  control : SameControl s t
  idx     : t.work.idx = s.work.idx + 1#64
  mem     : t.mem = writeBlock s.mem (blockAddr s.work.lat.dst s.work.idx) y

/-- The input block at IDX. -/
abbrev inputAt (s : State) : Block := readBlock s.mem (blockAddr s.work.lat.src s.work.idx)

/-- The Block Core on the data path. -/
abbrev dataCore (P : RoundPrims) (d : Dir) (s : State) (x : Block) : Block :=
  blockOp P d s.mem s.work.lat.key1.toNat (rounds s.params s.work.kc) x

theorem ecbEncBlock_effect (P : RoundPrims) (s : State) :
    BlockEffect s (ecbEncBlock P s) (dataCore P .encrypt s (inputAt s)) :=
  ⟨ecbEncBlock_control P s, by simp [ecbEncBlock], by simp [ecbEncBlock, selectedSchedule]⟩

theorem ecbDecBlock_effect (P : RoundPrims) (s : State) :
    BlockEffect s (ecbDecBlock P s) (dataCore P .decrypt s (inputAt s)) :=
  ⟨ecbDecBlock_control P s, by simp [ecbDecBlock], by simp [ecbDecBlock, selectedSchedule]⟩

theorem cbcEncBlock_effect (P : RoundPrims) (s : State) :
    BlockEffect s (cbcEncBlock P s) (dataCore P .encrypt s (xor16 (inputAt s) s.work.fb)) :=
  ⟨cbcEncBlock_control P s, by simp [cbcEncBlock], by simp [cbcEncBlock, selectedSchedule]⟩

theorem cbcEncBlock_fb (P : RoundPrims) (s : State) :
    (cbcEncBlock P s).work.fb = dataCore P .encrypt s (xor16 (inputAt s) s.work.fb) := by
  simp [cbcEncBlock, selectedSchedule]

theorem cbcDecBlock_effect (P : RoundPrims) (s : State) :
    BlockEffect s (cbcDecBlock P s) (xor16 (dataCore P .decrypt s (inputAt s)) s.work.fb) :=
  ⟨cbcDecBlock_control P s, by simp [cbcDecBlock], by simp [cbcDecBlock, selectedSchedule]⟩

theorem cbcDecBlock_fb (P : RoundPrims) (s : State) :
    (cbcDecBlock P s).work.fb = inputAt s := by
  simp [cbcDecBlock]

theorem ctrBlock_effect (P : RoundPrims) (s : State) :
    BlockEffect s (ctrBlock P s)
      (xor16 (inputAt s) (dataCore P .encrypt s (toWire s.work.cnt))) :=
  ⟨ctrBlock_control P s, by simp [ctrBlock, keystream],
    by simp [ctrBlock, keystream, selectedSchedule]⟩

theorem ctrBlock_cnt (P : RoundPrims) (s : State) :
    (ctrBlock P s).work.cnt = inc128 s.work.cnt := by
  simp [ctrBlock, keystream]

theorem xtsEncBlock_effect (P : RoundPrims) (s : State) :
    BlockEffect s (xtsEncBlock P s)
      (xor16 (dataCore P .encrypt s (xor16 (inputAt s) s.work.tw)) s.work.tw) :=
  ⟨xtsEncBlock_control P s, by simp [xtsEncBlock], by simp [xtsEncBlock, selectedSchedule]⟩

theorem xtsEncBlock_tw (P : RoundPrims) (s : State) :
    (xtsEncBlock P s).work.tw = dbl s.work.tw := by
  simp [xtsEncBlock]

theorem xtsDecBlock_effect (P : RoundPrims) (s : State) :
    BlockEffect s (xtsDecBlock P s)
      (xor16 (dataCore P .decrypt s (xor16 (inputAt s) s.work.tw)) s.work.tw) :=
  ⟨xtsDecBlock_control P s, by simp [xtsDecBlock], by simp [xtsDecBlock, selectedSchedule]⟩

theorem xtsDecBlock_tw (P : RoundPrims) (s : State) :
    (xtsDecBlock P s).work.tw = dbl s.work.tw := by
  simp [xtsDecBlock]

/-- The tail writes the first REM bytes of the padded input XOR the next keystream block. -/
theorem ctrTail_mem (P : RoundPrims) (s : State) :
    (ctrTail P s).mem = memWrite s.mem (tailAddr s.work.lat.dst s.work.nb)
      ((xor16 (padBlock (memRead s.mem (tailAddr s.work.lat.src s.work.nb) s.work.rem.toNat))
        (dataCore P .encrypt s (toWire s.work.cnt))).toList.take s.work.rem.toNat) := by
  simp [ctrTail, keystream, selectedSchedule]

/-! ## What the registers hold at the start of a body -/

/-- The latch after the issue of a Ready command is legal as its registers were. -/
theorem issue_lat_get (i : Instr) (s : State) {r : OperandReg} (h : r ∈ modeOperands i.mode) :
    (issue i s).work.lat.get r = s.regs.get r := by
  rw [issue_work]
  exact (get_latchListed _ _ _ _).trans (if_pos h)

@[simp] theorem issue_lat_src (i : Instr) (s : State) : (issue i s).work.lat.src = s.regs.src :=
  issue_lat_get i s (r := .src) (by cases i <;> simp [modeOperands, Instr.mode])

@[simp] theorem issue_lat_dst (i : Instr) (s : State) : (issue i s).work.lat.dst = s.regs.dst :=
  issue_lat_get i s (r := .dst) (by cases i <;> simp [modeOperands, Instr.mode])

@[simp] theorem issue_lat_len (i : Instr) (s : State) : (issue i s).work.lat.len = s.regs.len :=
  issue_lat_get i s (r := .len) (by cases i <;> simp [modeOperands, Instr.mode])

@[simp] theorem issue_lat_key1 (i : Instr) (s : State) : (issue i s).work.lat.key1 = s.regs.key1 :=
  issue_lat_get i s (r := .key1) (by cases i <;> simp [modeOperands, Instr.mode])

theorem issue_lat_key2 {i : Instr} (s : State) (h : i.mode = .xts) :
    (issue i s).work.lat.key2 = s.regs.key2 :=
  issue_lat_get i s (r := .key2) (by simp [modeOperands, h])

theorem issue_lat_off {i : Instr} (s : State) (h : i.mode = .xts) :
    (issue i s).work.lat.off = s.regs.off :=
  issue_lat_get i s (r := .off) (by simp [modeOperands, h])

theorem issue_lat_seed {i : Instr} (s : State) (h : i.mode ≠ .ecb) :
    (issue i s).work.lat.seed = s.regs.seed :=
  issue_lat_get i s (r := .seed) (by cases i <;> simp_all [modeOperands, Instr.mode])

/-- Register files that agree on a mode's listed registers have the same regions. -/
theorem footprint_congr {m : Mode} {f g : OperandFile Word64}
    (h : ∀ r ∈ modeOperands m, f.get r = g.get r) (nr : Nat) :
    footprint m nr f = footprint m nr g ∧ scheduleRegions m nr f = scheduleRegions m nr g ∧
      inputRegion f = inputRegion g ∧ outputRegion f = outputRegion g := by
  have e1 : f.src = g.src := h .src (by cases m <;> simp [modeOperands])
  have e2 : f.dst = g.dst := h .dst (by cases m <;> simp [modeOperands])
  have e3 : f.len = g.len := h .len (by cases m <;> simp [modeOperands])
  have e4 : f.key1 = g.key1 := h .key1 (by cases m <;> simp [modeOperands])
  have e5 : m ≠ .ecb → f.seed = g.seed := fun hm =>
    h .seed (by cases m <;> simp_all [modeOperands])
  have e6 : m = .xts → f.key2 = g.key2 := fun hm => h .key2 (by simp [modeOperands, hm])
  cases m <;> simp_all [footprint, readRegions, scheduleRegions, seedRegions, inputRegion,
    outputRegion]

/-- Legality is a property of the listed registers alone. -/
theorem operandsLegal_congr {p : Params} {m : Mode} {kc : KeyClass} {f g : OperandFile Word64}
    (h : ∀ r ∈ modeOperands m, f.get r = g.get r) (hf : OperandsLegal p m kc f) :
    OperandsLegal p m kc g := by
  obtain ⟨h1, h2, h3, h4⟩ := footprint_congr h (rounds p kc)
  have e1 : f.src = g.src := h .src (by cases m <;> simp [modeOperands])
  have e2 : f.dst = g.dst := h .dst (by cases m <;> simp [modeOperands])
  have e3 : f.len = g.len := h .len (by cases m <;> simp [modeOperands])
  refine ⟨?_, ?_, ?_, ?_, ?_, ?_⟩
  · rw [← e3]; exact hf.length
  · rw [← e3, ← e2, ← e1, ← h3, ← h4]; exact hf.overlap
  · rw [← h1]; exact hf.inSpace
  · rw [← h1]; exact hf.valid
  · rw [← h2, ← h4]; exact hf.schedules
  · rw [← h2]; exact hf.aligned

/-- The latched operands of a Ready command are legal. -/
theorem issue_legal {i : Instr} {s : State} (h : Ready i s) :
    OperandsLegal s.params i.mode i.keyClass (issue i s).work.lat :=
  operandsLegal_congr (fun _ hr => (issue_lat_get i s hr).symm) h.operands

/-! ## The loop -/

/-- After `k` blocks: memory in canonical form, unchanged outside the first `k` output blocks,
which hold `Y 0` to `Y (k - 1)`. -/
structure Progress (m0 : Memory) (dst : Nat) (Y : Nat → Block) (k : Nat) (m : Memory) : Prop where
  wf     : m.Wf
  frame  : ∀ a, ¬ (dst ≤ a ∧ a < dst + 16 * k) → m.get a = m0.get a
  blocks : ∀ j, j < k → readBlock m (dst + 16 * j) = Y j
  listed : ∀ c ∈ m, c ∈ m0 ∨ (dst ≤ c.1 ∧ c.1 < dst + 16 * k)

theorem Progress.start {m0 : Memory} (h : m0.Wf) (dst : Nat) (Y : Nat → Block) :
    Progress m0 dst Y 0 m0 :=
  ⟨h, fun _ _ => rfl, fun _ hj => absurd hj (Nat.not_lt_zero _), fun _ hc => .inl hc⟩

theorem Progress.next {m0 m : Memory} {dst k : Nat} {Y : Nat → Block}
    (h : Progress m0 dst Y k m) :
    Progress m0 dst Y (k + 1) (writeBlock m (dst + 16 * k) (Y k)) := by
  refine ⟨writeBlock_wf h.wf _ _, fun a ha => ?_, fun j hj => ?_, fun c hc => ?_⟩
  · rw [get_writeBlock_outside h.wf _ (by omega)]
    exact h.frame a (by omega)
  · rcases Nat.lt_succ_iff_lt_or_eq.1 hj with hj | rfl
    · rw [readBlock_writeBlock_disjoint h.wf _ (by omega)]
      exact h.blocks j hj
    · exact readBlock_writeBlock h.wf _ _
  · rcases mem_writeBlock hc with hc | hc
    · rcases h.listed c hc with hc | hc
      · exact .inl hc
      · exact .inr (by omega)
    · exact .inr (by omega)

/-- The loop lemma: if from every state that carries `C k` and has made `k` blocks of progress one
step carries `C (k + 1)` and writes `Y k` as block `k`, then `n` steps make `n` blocks of
progress. -/
theorem loop_progress {f : State → State} {C : Nat → State → Prop} {m0 : Memory} {dst n : Nat}
    {Y : Nat → Block}
    (step : ∀ k s, k < n → C k s → Progress m0 dst Y k s.mem →
      C (k + 1) (f s) ∧ (f s).mem = writeBlock s.mem (dst + 16 * k) (Y k))
    {s0 : State} (h0 : C 0 s0) (hm : Progress m0 dst Y 0 s0.mem) :
    C n (f^[n] s0) ∧ Progress m0 dst Y n (f^[n] s0).mem := by
  have key : ∀ k, k ≤ n → C k (f^[k] s0) ∧ Progress m0 dst Y k (f^[k] s0).mem := by
    intro k
    induction k with
    | zero => exact fun _ => ⟨h0, hm⟩
    | succ k ih =>
      intro hk
      obtain ⟨hc, hp⟩ := ih (by omega)
      obtain ⟨hc', hm'⟩ := step k _ (by omega) hc hp
      rw [Function.iterate_succ_apply', hm']
      exact ⟨hc', hp.next⟩
  exact key n le_rfl

/-- The range a command writes, in the loop lemma's terms. -/
structure Clear (m : Mode) (nr : Nat) (f : OperandFile Word64) (n : Nat) : Prop where
  fits : 16 * n ≤ f.len.toNat
  input : f.dst = f.src ∨ ∀ a, f.src.toNat ≤ a → a < f.src.toNat + 16 * n →
    ¬ (f.dst.toNat ≤ a ∧ a < f.dst.toNat + 16 * n)
  key1 : ∀ a, f.key1.toNat ≤ a → a < f.key1.toNat + scheduleBytes nr →
    ¬ (f.dst.toNat ≤ a ∧ a < f.dst.toNat + f.len.toNat)
  key2 : m = .xts → ∀ a, f.key2.toNat ≤ a → a < f.key2.toNat + scheduleBytes nr →
    ¬ (f.dst.toNat ≤ a ∧ a < f.dst.toNat + f.len.toNat)

theorem OperandsLegal.clear {p : Params} {m : Mode} {kc : KeyClass} {f : OperandFile Word64}
    (h : OperandsLegal p m kc f) {n : Nat} (hn : 16 * n ≤ f.len.toNat) : Clear m (rounds p kc) f n := by
  refine ⟨hn, ?_, ?_, ?_⟩
  · rcases h.overlap with h0 | h0 | h0
    · refine .inr fun a h1 h2 => ?_
      rw [h0] at hn
      simp at hn
      omega
    · exact .inl h0
    · refine .inr fun a h1 h2 h3 => h0 ⟨a, ?_, ?_⟩ <;>
        simp only [Inside, inputRegion, outputRegion] <;> omega
  · intro a h1 h2 h3
    refine h.schedules ⟨f.key1.toNat, scheduleBytes (rounds p kc)⟩ ?_ ⟨a, ?_, ?_⟩
    · cases m <;> simp [scheduleRegions]
    · exact h3
    · exact ⟨h1, h2⟩
  · intro hm a h1 h2 h3
    refine h.schedules ⟨f.key2.toNat, scheduleBytes (rounds p kc)⟩ ?_ ⟨a, ?_, ?_⟩
    · simp [scheduleRegions, hm]
    · exact h3
    · exact ⟨h1, h2⟩

/-- The input block about to be read is still the original one. -/
theorem Progress.input {m0 m : Memory} {Y : Nat → Block} {md : Mode}
    {f : OperandFile Word64} {nr n k : Nat} (hc : Clear md nr f n) (hk : k < n)
    (h : Progress m0 f.dst.toNat Y k m) : inputBlock f m k = inputBlock f m0 k := by
  refine readBlock_congr (fun j hj => h.frame _ ?_)
  rcases hc.input with hd | hd
  · rw [hd]; omega
  · have := hd (f.src.toNat + 16 * k + j) (by omega) (by omega)
    omega

theorem Progress.blockE {m0 m : Memory} {Y : Nat → Block} {md : Mode}
    {f : OperandFile Word64} {nr n k : Nat} (hc : Clear md nr f n) (hk : k ≤ n)
    (h : Progress m0 f.dst.toNat Y k m) (P : RoundPrims) (x : Block) :
    blockE P m f.key1.toNat nr x = blockE P m0 f.key1.toNat nr x := by
  have hf := hc.fits
  exact blockE_congr (fun a h1 h2 => h.frame a (by have := hc.key1 a h1 h2; omega)) x

theorem Progress.blockD {m0 m : Memory} {Y : Nat → Block} {md : Mode}
    {f : OperandFile Word64} {nr n k : Nat} (hc : Clear md nr f n) (hk : k ≤ n)
    (h : Progress m0 f.dst.toNat Y k m) (P : RoundPrims) (x : Block) :
    blockD P m f.key1.toNat nr x = blockD P m0 f.key1.toNat nr x := by
  have hf := hc.fits
  exact blockD_congr (fun a h1 h2 => h.frame a (by have := hc.key1 a h1 h2; omega)) x

/-! ## The drivers' bodies -/

/-- What a loop carries: the control part of its start, and IDX. -/
structure At (s0 : State) (k : Nat) (s : State) : Prop where
  control : SameControl s0 s
  idx     : s.work.idx.toNat = k

theorem At.next {s0 s t : State} {y : Block} {k n : Nat} (h : At s0 k s) (hk : k < n)
    (hn : n = s0.work.nb.toNat) (ht : BlockEffect s t y) : At s0 (k + 1) t := by
  refine ⟨h.control.trans ht.control, ?_⟩
  have h1 := s0.work.nb.isLt
  rw [ht.idx, BitVec.toNat_add, h.idx]
  simp
  omega

theorem blockAddr_at {base idx : Word64} {k : Nat} (h : idx.toNat = k) :
    blockAddr base idx = base.toNat + 16 * k := by simp [blockAddr, h]

/-- The Block Core and the input of block `k` are those of the start. -/
theorem At.dataCore {s0 s : State} {Y : Nat → Block} {k n : Nat} (h : At s0 k s)
    (hc : Clear s0.work.mode (rounds s0.params s0.work.kc) s0.work.lat n) (hk : k ≤ n)
    (hp : Progress s0.mem s0.work.lat.dst.toNat Y k s.mem) (P : RoundPrims) (d : Dir) (x : Block) :
    dataCore P d s x = dataCore P d s0 x := by
  simp only [Machine.dataCore, h.control.lat, h.control.kc, h.control.params]
  cases d
  · exact hp.blockE hc hk P x
  · exact hp.blockD hc hk P x

theorem At.input {s0 s : State} {Y : Nat → Block} {k n : Nat} (h : At s0 k s)
    (hc : Clear s0.work.mode (rounds s0.params s0.work.kc) s0.work.lat n) (hk : k < n)
    (hp : Progress s0.mem s0.work.lat.dst.toNat Y k s.mem) :
    inputAt s = inputBlock s0.work.lat s0.mem k := by
  simp only [inputAt, h.control.lat, blockAddr_at h.idx]
  exact hp.input hc hk

theorem At.mem {s0 s t : State} {y : Block} {k : Nat} (h : At s0 k s) (ht : BlockEffect s t y) :
    t.mem = writeBlock s.mem (s0.work.lat.dst.toNat + 16 * k) y := by
  rw [ht.mem, h.control.lat, blockAddr_at h.idx]

/-- What is assumed of the state a body starts from: its latched operands leave the output range
clear, its memory is in canonical form, and IDX is 0. -/
structure BodyStart (s : State) : Prop where
  wf    : s.mem.Wf
  clear : Clear s.work.mode (rounds s.params s.work.kc) s.work.lat s.work.nb.toNat
  idx   : s.work.idx.toNat = 0

/-- The effect of a body of full blocks on memory. -/
abbrev Writes (s : State) (Y : Nat → Block) (t : State) : Prop :=
  Progress s.mem s.work.lat.dst.toNat Y s.work.nb.toNat t.mem

theorem BodyStart.loop {s : State} (h : BodyStart s) {f : State → State}
    {C : Nat → State → Prop} {Y : Nat → Block}
    (step : ∀ k u, k < s.work.nb.toNat → At s k u → C k u →
      Progress s.mem s.work.lat.dst.toNat Y k u.mem →
      C (k + 1) (f u) ∧ BlockEffect u (f u) (Y k))
    (h0 : C 0 s) :
    At s s.work.nb.toNat (f^[s.work.nb.toNat] s) ∧ C s.work.nb.toNat (f^[s.work.nb.toNat] s) ∧
      Writes s Y (f^[s.work.nb.toNat] s) := by
  rw [← and_assoc]
  refine loop_progress (C := fun k u => At s k u ∧ C k u) (fun k u hk hu hp => ?_)
    ⟨⟨.refl s, h.idx⟩, h0⟩ (.start h.wf _ _)
  obtain ⟨hc, he⟩ := step k u hk hu.1 hu.2 hp
  exact ⟨⟨hu.1.next hk rfl he, hc⟩, hu.1.mem he⟩

/-- `ecb.enc`'s body writes `E(KEY1, KC, X[k])` as block `k` (42_ecb R141). -/
theorem ecbEncBody_writes (P : RoundPrims) {s : State} (h : BodyStart s) :
    Writes s (fun k => dataCore P .encrypt s (inputBlock s.work.lat s.mem k)) (ecbEncBody P s) := by
  refine (h.loop (C := fun _ _ => True) (fun k u hk hu _ hp => ⟨trivial, ?_⟩) trivial).2.2
  simpa only [hu.dataCore h.clear hk.le hp, hu.input h.clear hk hp] using ecbEncBlock_effect P u

/-- `ecb.dec`'s body writes `D(KEY1, KC, X[k])` as block `k` (42_ecb R143). -/
theorem ecbDecBody_writes (P : RoundPrims) {s : State} (h : BodyStart s) :
    Writes s (fun k => dataCore P .decrypt s (inputBlock s.work.lat s.mem k)) (ecbDecBody P s) := by
  refine (h.loop (C := fun _ _ => True) (fun k u hk hu _ hp => ⟨trivial, ?_⟩) trivial).2.2
  simpa only [hu.dataCore h.clear hk.le hp, hu.input h.clear hk hp] using ecbDecBlock_effect P u

/-- `cbc.enc`'s body writes the chain of ciphertext blocks (43_cbc R151, R155). -/
theorem cbcEncBody_writes (P : RoundPrims) {s : State} (h : BodyStart s) :
    Writes s (fun k => cbcChain P (rounds s.params s.work.kc) s.work.lat s.mem s.work.fb (k + 1))
      (cbcEncBody P s) := by
  refine (h.loop (C := fun k u => u.work.fb = cbcChain P (rounds s.params s.work.kc) s.work.lat s.mem s.work.fb k)
    (fun k u hk hu hfb hp => ?_) rfl).2.2
  have ey : dataCore P .encrypt u (xor16 (inputAt u) u.work.fb)
      = cbcChain P (rounds s.params s.work.kc) s.work.lat s.mem s.work.fb (k + 1) := by
    rw [hu.dataCore h.clear hk.le hp, hu.input h.clear hk hp, hfb]
    rfl
  exact ⟨(cbcEncBlock_fb P u).trans ey, ey ▸ cbcEncBlock_effect P u⟩

/-- `cbc.dec`'s body writes `D(KEY1, KC, C[k]) xor C[k-1]` as block `k`, the ciphertext blocks being
the original ones (43_cbc R153, R154, R155). -/
theorem cbcDecBody_writes (P : RoundPrims) {s : State} (h : BodyStart s) :
    Writes s (fun k => xor16 (dataCore P .decrypt s (inputBlock s.work.lat s.mem k))
      (previousBlock s.work.lat s.mem s.work.fb k)) (cbcDecBody P s) := by
  refine (h.loop (C := fun k u => u.work.fb = previousBlock s.work.lat s.mem s.work.fb k)
    (fun k u hk hu hfb hp => ⟨?_, ?_⟩) rfl).2.2
  · exact (cbcDecBlock_fb P u).trans (hu.input h.clear hk hp)
  · simpa only [hu.dataCore h.clear hk.le hp, hu.input h.clear hk hp, hfb]
      using cbcDecBlock_effect P u

/-- `ctr`'s full blocks: input XOR keystream, and the counter carried (44_ctr R168). -/
theorem ctrBlocks_writes (P : RoundPrims) {s : State} (h : BodyStart s) :
    At s s.work.nb.toNat ((ctrBlock P)^[s.work.nb.toNat] s) ∧
    ((ctrBlock P)^[s.work.nb.toNat] s).work.cnt = inc128^[s.work.nb.toNat] s.work.cnt ∧
    Writes s (fun k => xor16 (inputBlock s.work.lat s.mem k)
      (dataCore P .encrypt s (toWire (inc128^[k] s.work.cnt))))
      ((ctrBlock P)^[s.work.nb.toNat] s) := by
  refine h.loop (C := fun k u => u.work.cnt = inc128^[k] s.work.cnt)
    (fun k u hk hu hcnt hp => ⟨?_, ?_⟩) rfl
  · rw [ctrBlock_cnt, hcnt, Function.iterate_succ_apply']
  · simpa only [hu.dataCore h.clear hk.le hp, hu.input h.clear hk hp, hcnt]
      using ctrBlock_effect P u

/-- OFF doublings of the working tweak; memory untouched, IDX 0 (45_xts R189). -/
theorem tweakOffset_spec (s : State) :
    (tweakOffset s).mem = s.mem ∧ (tweakOffset s).work.idx = 0#64 ∧
    (tweakOffset s).work.tw = dbl^[s.work.lat.off.toNat] s.work.tw := by
  have key : ∀ n (u : State), (tweakAdvance^[n] u).mem = u.mem ∧
      (tweakAdvance^[n] u).work.tw = dbl^[n] u.work.tw := by
    intro n
    induction n with
    | zero => exact fun u => ⟨rfl, rfl⟩
    | succ n ih =>
      intro u
      simpa [tweakAdvance] using ih (tweakAdvance u)
  simpa [tweakOffset] using key s.work.lat.off.toNat s

/-- Steps 1 and 2 of XTS: the working tweak `dbl^OFF(E(KEY2, KC, raw tweak))`, IDX 0, memory
untouched (45_xts R188, R189). -/
theorem tweakPhases_spec (P : RoundPrims) (s : State) :
    (tweakPhases P s).mem = s.mem ∧ (tweakPhases P s).work.idx = 0#64 ∧
    (tweakPhases P s).work.tw = dbl^[s.work.lat.off.toNat]
      (blockE P s.mem s.work.lat.key2.toNat (rounds s.params s.work.kc) s.work.x) := by
  simpa [tweakPhases, tweakEncrypt, selectedSchedule, blockOp] using
    tweakOffset_spec (tweakEncrypt P s)

/-- `xts.enc`'s blocks from a working tweak (45_xts R190, R191). -/
theorem xtsEncBlocks_writes (P : RoundPrims) {s : State} (h : BodyStart s) :
    Writes s (fun k => xor16 (dataCore P .encrypt s
      (xor16 (inputBlock s.work.lat s.mem k) (dbl^[k] s.work.tw))) (dbl^[k] s.work.tw))
      (xtsEncBlocks P s) := by
  refine (h.loop (C := fun k u => u.work.tw = dbl^[k] s.work.tw)
    (fun k u hk hu htw hp => ⟨?_, ?_⟩) rfl).2.2
  · rw [xtsEncBlock_tw, htw, Function.iterate_succ_apply']
  · simpa only [hu.dataCore h.clear hk.le hp, hu.input h.clear hk hp, htw]
      using xtsEncBlock_effect P u

/-- `xts.dec`'s blocks from a working tweak (45_xts R192). -/
theorem xtsDecBlocks_writes (P : RoundPrims) {s : State} (h : BodyStart s) :
    Writes s (fun k => xor16 (dataCore P .decrypt s
      (xor16 (inputBlock s.work.lat s.mem k) (dbl^[k] s.work.tw))) (dbl^[k] s.work.tw))
      (xtsDecBlocks P s) := by
  refine (h.loop (C := fun k u => u.work.tw = dbl^[k] s.work.tw)
    (fun k u hk hu htw hp => ⟨?_, ?_⟩) rfl).2.2
  · rw [xtsDecBlock_tw, htw, Function.iterate_succ_apply']
  · simpa only [hu.dataCore h.clear hk.le hp, hu.input h.clear hk hp, htw]
      using xtsDecBlock_effect P u

end Sys2Proof.Machine
end

