-- ==== Sys2Proof/Laws/Commands.lean ====
section
/-! SUPPORT. The seven commands as one: each is runCommand over its driver's body, what the body
starts from, and all that exec can answer. -/

namespace Sys2Proof.Machine

open Sys2Proof.Config (RoundPrims)
open Sys2Proof.Safety

/-- The body of a command after LOAD. -/
def bodyOf (P : RoundPrims) (i : Instr) : State → State :=
  match i with
  | .ecbEnc _ => ecbEncBody P
  | .ecbDec _ => ecbDecBody P
  | .cbcEnc _ => cbcEncBody P
  | .cbcDec _ => cbcDecBody P
  | .ctr _ => ctrBody P
  | .xtsEnc _ => xtsEncBody P
  | .xtsDec _ => xtsDecBody P

/-- A command over any record of round primitives is runCommand over its body. -/
theorem runWith_eq (P : RoundPrims) (i : Instr) (s : State) :
    runWith P i s = runCommand i (bodyOf P i) s := by
  cases i <;> rfl

theorem exec_eq (i : Instr) (s : State) : exec i s = runCommand i (bodyOf aes i) s := by
  cases i <;> rfl

/-- The engine of this hardware is the default instance of the configured one. -/
theorem hardware_eq : hardware = configured aes := by
  simp only [hardware, configured, Engine.mk.injEq]
  exact ⟨funext fun i => funext fun s => by cases i <;> rfl, rfl⟩

/-- All that exec can do: the command was Ready and completed, or it was refused with the violations
that hold. -/
theorem exec_cases (i : Instr) (s : State) :
    (Ready i s ∧ exec i s = .next (complete (bodyOf aes i (loadPhase (issue i s))))) ∨
    (¬ Ready i s ∧ ∃ v others, issueViolations i s = v :: others ∧
      exec i s = .refused (.violated v others)) := by
  rw [exec_eq]
  exact runCommand_cases i (bodyOf aes i) s

theorem exec_ready {i : Instr} {s : State} (h : Ready i s) :
    exec i s = .next (complete (bodyOf aes i (loadPhase (issue i s)))) := by
  rw [exec_eq]
  exact runCommand_ready h

theorem exec_next {i : Instr} {s t : State} (h : exec i s = .next t) :
    Ready i s ∧ t = complete (bodyOf aes i (loadPhase (issue i s))) := by
  rw [exec_eq] at h
  exact runCommand_next h

theorem bodyOf_control (P : RoundPrims) (i : Instr) (s : State) : SameControl s (bodyOf P i s) := by
  cases i
  · exact ecbEncBody_control P s
  · exact ecbDecBody_control P s
  · exact cbcEncBody_control P s
  · exact cbcDecBody_control P s
  · exact ctrBody_control P s
  · exact xtsEncBody_control P s
  · exact xtsDecBody_control P s

/-! ## What a body starts from -/

/-- NB is `LEN div 16` (10_state R29): a 64-bit length over 16 fits its register. -/
theorem start_nb (i : Instr) (s : State) :
    (loadPhase (issue i s)).work.nb.toNat = blockCount s.regs := by
  simp only [loadPhase_work_nb, issue_lat_len, blockCount, BitVec.toNat_ofNat]
  have := s.regs.len.isLt
  omega

/-- REM is `LEN mod 16`. -/
theorem start_rem (i : Instr) (s : State) :
    (loadPhase (issue i s)).work.rem.toNat = s.regs.len.toNat % 16 := by
  simp only [loadPhase_work_rem, issue_lat_len, BitVec.toNat_ofNat]
  omega

theorem start_idx (i : Instr) (s : State) : (loadPhase (issue i s)).work.idx.toNat = 0 := by simp

/-- A body starts with its output range clear of its input and schedules, IDX 0, and memory in
canonical form. -/
theorem bodyStart {i : Instr} {s : State} (h : Ready i s) (hw : s.mem.Wf) :
    BodyStart (loadPhase (issue i s)) := by
  refine ⟨by simpa using hw, ?_, start_idx i s⟩
  have hn : 16 * (loadPhase (issue i s)).work.nb.toNat ≤ (issue i s).work.lat.len.toNat := by
    rw [start_nb, issue_lat_len, blockCount]
    omega
  have hl := Machine.OperandsLegal.clear (issue_legal h) hn
  have em : (loadPhase (issue i s)).work.mode = i.mode := by rw [loadPhase_work_mode, issue_work]
  have ek : (loadPhase (issue i s)).work.kc = i.keyClass := by rw [loadPhase_work_kc, issue_work]
  rw [em, ek, loadPhase_work_lat, loadPhase_params, issue_params]
  exact hl

end Sys2Proof.Machine
end

