-- ==== Sys2Proof/Laws/Phases.lean ====
section
/-! SUPPORT. What a phase action reads and writes of the host's side: it does the same whatever the
host's open duty, the events and the reply are, and leaves them. -/

namespace Sys2Proof.Machine

open Sys2Proof.Config (RoundPrims)

/-- The state with another duty of the host, other events and another reply: what no action of the
engine reads or writes. -/
def around (b : Bool) (ev : List Event) (r : Option Reply) (s : State) : State :=
  { s with unread := b, events := ev, reply := r }

/-- An operation that neither reads nor writes the host's duty, the events or the reply. -/
def Blind (f : State → State) : Prop :=
  ∀ (b : Bool) (ev : List Event) (r : Option Reply) (s : State),
    f (around b ev r s) = around b ev r (f s)

/-- Blind operations compose. -/
theorem Blind.comp {f g : State → State} (hf : Blind f) (hg : Blind g) : Blind (fun s => g (f s)) := by
  intro b ev r s
  show g (f (around b ev r s)) = around b ev r (g (f s))
  rw [hf, hg]

/-! ## Each operation of the engine -/

theorem fetchBlock_blind : Blind fetchBlock := fun _ _ _ _ => rfl

theorem emitBlock_blind (out : Working → Block) : Blind (emitBlock out) := fun _ _ _ _ => rfl

theorem nextIndex_blind : Blind nextIndex := fun _ _ _ _ => rfl

theorem clearIndex_blind : Blind clearIndex := fun _ _ _ _ => rfl

theorem setFeedback_blind (value : Working → Block) : Blind (setFeedback value) := fun _ _ _ _ => rfl

theorem setTweak_blind (value : Working → Block) : Blind (setTweak value) := fun _ _ _ _ => rfl

theorem takeKeystream_blind : Blind takeKeystream := fun _ _ _ _ => rfl

theorem advanceCounter_blind : Blind advanceCounter := fun _ _ _ _ => rfl

theorem fetchTail_blind : Blind fetchTail := fun _ _ _ _ => rfl

theorem maskTail_blind : Blind maskTail := fun _ _ _ _ => rfl

theorem emitTail_blind : Blind emitTail := fun _ _ _ _ => rfl

theorem runCore_blind (P : RoundPrims) (sel : KeySelect) (d : Dir) (input : Working → Block) :
    Blind (runCore P sel d input) := fun _ _ _ s => by cases sel <;> rfl

theorem loadSeed_blind : Blind loadSeed := fun _ _ _ s => by
  unfold loadSeed; simp only [around]; split <;> rfl

theorem loadPhase_blind : Blind loadPhase := fun b ev r s =>
  loadSeed_blind b ev r { s with work := _ }

theorem keystream_blind (P : RoundPrims) : Blind (keystream P) :=
  fun b ev r s => by rw [keystream, runCore_blind, takeKeystream_blind, keystream]

theorem ctrTail_blind (P : RoundPrims) : Blind (ctrTail P) :=
  fun b ev r s => by
    rw [ctrTail, fetchTail_blind, keystream_blind, maskTail_blind, emitTail_blind, ctrTail]

theorem tweakEncrypt_blind (P : RoundPrims) : Blind (tweakEncrypt P) :=
  fun b ev r s => by
    rw [tweakEncrypt, runCore_blind, setTweak_blind, clearIndex_blind, tweakEncrypt]

theorem tweakAdvance_blind : Blind tweakAdvance := fun b ev r s => by
  rw [tweakAdvance, setTweak_blind, nextIndex_blind, tweakAdvance]

theorem blockStep_blind (P : RoundPrims) : Blind (blockStep P) := fun b ev r s => by
  unfold blockStep
  simp only [show (around b ev r s).work = s.work from rfl]
  split
  all_goals
    simp only [ecbEncBlock, ecbDecBlock, cbcEncBlock, cbcDecBlock, ctrBlock, xtsEncBlock, xtsDecBlock,
      fetchBlock_blind b ev r _, runCore_blind P _ _ _ b ev r _, emitBlock_blind _ b ev r _,
      setFeedback_blind _ b ev r _, setTweak_blind _ b ev r _, keystream_blind P b ev r _,
      advanceCounter_blind b ev r _, nextIndex_blind b ev r _]

/-- A block step leaves every control field. -/
theorem blockStep_control (P : RoundPrims) (s : State) : SameControl s (blockStep P s) := by
  unfold blockStep
  split
  · exact ecbEncBlock_control P s
  · exact ecbDecBlock_control P s
  · exact cbcEncBlock_control P s
  · exact cbcDecBlock_control P s
  · exact ctrBlock_control P s
  · exact xtsEncBlock_control P s
  · exact xtsDecBlock_control P s

/-! ## A phase action -/

theorem complete_blind : Blind complete := fun _ _ _ _ => rfl

theorem enterTail_blind : Blind enterTail := fun b ev r s => by
  unfold enterTail
  simp only [show (around b ev r s).work = s.work from rfl]
  split <;> rfl

theorem enterBlocks_blind : Blind enterBlocks := fun b ev r s => by
  unfold enterBlocks
  simp only [show (around b ev r s).work = s.work from rfl]
  split
  · rfl
  · exact enterTail_blind b ev r s

/-- A phase action neither reads nor writes the host's duty, the events or the reply. -/
theorem phaseAction_blind (P : RoundPrims) : Blind (phaseAction P) := fun b ev r s => by
  have w : ∀ t : State, (around b ev r t).work = t.work := fun _ => rfl
  unfold phaseAction
  rw [show (around b ev r s).phase = s.phase from rfl]
  cases s.phase
  · rfl
  · simp only [loadPhase_blind b ev r s, afterLoad, w]
    split
    · rfl
    · exact enterBlocks_blind b ev r _
  · simp only [tweakEncryptPhase, tweakEncrypt_blind P b ev r s]
    rfl
  · simp only [tweakAdvancePhase, w]
    split
    · exact tweakAdvance_blind b ev r s
    · rw [clearIndex_blind b ev r s, enterBlocks_blind b ev r _]
  · simp only [blockStep_blind P b ev r s, afterBlock, w]
    split
    · rfl
    · exact enterTail_blind b ev r _
  · rw [ctrTail_blind P b ev r s]
    rfl

/-- So a phase action leaves them. -/
theorem phaseAction_around (P : RoundPrims) (s : State) :
    phaseAction P s = around s.unread s.events s.reply (phaseAction P s) :=
  phaseAction_blind P s.unread s.events s.reply s

@[simp] theorem engineTick_unread (s : State) : (engineTick s).unread = s.unread := by
  rw [engineTick, phaseAction_around]; rfl

@[simp] theorem engineTick_events (s : State) : (engineTick s).events = s.events := by
  rw [engineTick, phaseAction_around]; rfl

@[simp] theorem engineTick_reply (s : State) : (engineTick s).reply = s.reply := by
  rw [engineTick, phaseAction_around]; rfl

end Sys2Proof.Machine
end

