-- ==== Sys2Proof/Laws/HostPort.lean ====
section
/-! SUPPORT. What a step can do: the window accesses behind each host transaction, STATUS reads, and
all the next states of an event. -/

namespace Sys2Proof.Machine

open Sys2Proof.Safety

/-! ## Window accesses -/

/-- The operand register at an offset is the one with that offset. -/
theorem operandAt_some {o : Nat} {r : OperandReg} (h : operandAt o = some r) : o = r.offset := by
  unfold operandAt at h
  split at h <;> first | (injection h with h; subst h; rfl) | cases h

/-- The window access of each host transaction. -/
theorem transaction_some {a : WindowAccess} {t : Transaction} (h : a.transaction = some t) :
    (∃ r v, a = .write r.offset 64 v ∧ t = .writeOperand r v) ∨
    (∃ r, a = .read r.offset 64 ∧ t = .readOperand r) ∨
    (∃ v, a = .write 0x38 32 v ∧ t = .issue (v.setWidth 32)) ∨
    (a = .read 0x38 32 ∧ t = .readCommand) ∨
    (a = .read 0x40 64 ∧ t = .readStatus) ∨
    (∃ v, a = .write 0x40 64 v ∧ t = .writeStatus) := by
  cases a with
  | write o w v =>
    simp only [WindowAccess.transaction] at h
    by_cases h64 : w = 64
    · subst h64
      by_cases hs : o = statusOffset
      · subst hs; simp_all [statusOffset]
      · simp only [if_true, if_neg hs, Option.map_eq_some_iff] at h
        obtain ⟨r, hr, rfl⟩ := h
        exact .inl ⟨r, v, by rw [operandAt_some hr], rfl⟩
    · by_cases h32 : w = 32
      · by_cases hc : o = cmdOffset
        · subst h32 hc; simp_all [cmdOffset]
        · simp [h32, hc] at h
      · simp [h64, h32] at h
  | read o w =>
    simp only [WindowAccess.transaction] at h
    by_cases h64 : w = 64
    · subst h64
      by_cases hs : o = statusOffset
      · subst hs; simp_all [statusOffset]
      · simp only [if_true, if_neg hs, Option.map_eq_some_iff] at h
        obtain ⟨r, hr, rfl⟩ := h
        exact .inr (.inl ⟨r, by rw [operandAt_some hr], rfl⟩)
    · by_cases h32 : w = 32
      · by_cases hc : o = cmdOffset
        · subst h32 hc; simp_all [cmdOffset]
        · simp [h32, hc] at h
      · simp [h64, h32] at h

/-! ## STATUS reads -/

/-- A STATUS read that returns 0 ends the host's duties. -/
theorem readStatus_zero {s : State} (h : s.busy = false) :
    readStatus s = { s with reply := some (.word 0#64), unread := false } := by
  simp [readStatus, statusWord, h]

/-- A STATUS read that returns 1 leaves them. -/
theorem readStatus_one {s : State} (h : s.busy = true) :
    readStatus s = { s with reply := some (.word 1#64) } := by
  simp [readStatus, statusWord, h]

/-- A `wait` on a busy engine goes on, the engine with it. -/
theorem hostWait_busy {G : Engine} {s : State} (h : s.busy = true) :
    hostWait G s = { G.tick (readStatus s) with events := .wait :: s.events } := if_pos h

/-- A `wait` on an idle engine ends. -/
theorem hostWait_idle {G : Engine} {s : State} (h : s.busy = false) :
    hostWait G s = readStatus s := if_neg (by simp [h])

/-! ## Events -/

/-- If the issue of a command goes on, it was Ready. -/
theorem ifDefined_next {i : Instr} {s t u : State} (h : ifDefined i s t = .next u) :
    Ready i s ∧ u = t := by
  unfold ifDefined at h
  split at h
  · next hv => exact ⟨issueViolations_nil.1 hv, by injection h with h; exact h.symm⟩
  · cases h

/-- A register access that goes on found the engine idle. -/
theorem whenIdle_next {s t u : State} (h : whenIdle s t = .next u) : s.busy = false ∧ u = t := by
  unfold whenIdle at h
  split at h
  · cases h
  · next hb => exact ⟨by simpa using hb, by injection h with h; exact h.symm⟩

/-- A write to CMD that goes on found the engine idle and a legal word. -/
theorem writeCommand_next {run : Instr → State → Host.Outcome State Fault Refusal} {w : BitVec 32}
    {s t : State} (h : writeCommand run w s = .next t) :
    s.busy = false ∧ ∃ i, decode s.params.xtsDecPresent w = .command i ∧ run i s = .next t := by
  unfold writeCommand at h
  split at h
  · cases h
  · next hb =>
    split at h
    · cases h
    · next i hd => exact ⟨by simpa using hb, i, hd, h⟩

/-- An agent's access that goes on was to backed addresses that exist, clear of the forbidden ranges
in the busy window. -/
theorem agentAccess_next {g : Config.Region} {f : List Config.Region} {s t u : State}
    (h : agentAccess g f s t = .next u) :
    g.base + g.size ≤ 2 ^ s.params.aw ∧ regionValid s.params g = true ∧
    (inBusyWindow s = true → f.any (regionsMeet g) = false) ∧ u = t := by
  unfold agentAccess at h
  split at h
  · cases h
  · next ha =>
    split at h
    · cases h
    · next hv =>
      split at h
      · cases h
      · next hf =>
        injection h with h
        refine ⟨by omega, by simpa using hv, fun hb => ?_, h.symm⟩
        simpa [hb] using hf

/-- All the next states of a window access. -/
theorem windowAccess_next {a : WindowAccess} {s t : State}
    (h : windowAccess a s = .next t) :
    (∃ r v, a = .write (OperandReg.offset r) 64 v ∧ s.busy = false ∧ t = writeOperand r v s) ∨
    (∃ r, a = .read (OperandReg.offset r) 64 ∧ s.busy = false ∧ t = readOperand r s) ∨
    (∃ v i, a = .write 0x38 32 v ∧ decode s.params.xtsDecPresent (v.setWidth 32) = .command i ∧
      Ready i s ∧ t = { issue i s with unread := true }) ∨
    (a = .read 0x38 32 ∧ s.busy = false ∧ t = readCommand s) ∨
    (a = .read 0x40 64 ∧ t = readStatus s) ∨
    (∃ v, a = .write 0x40 64 v ∧ t = s) := by
  unfold windowAccess at h
  split at h
  · cases h
  · next tr htr =>
    rcases transaction_some htr with ⟨r, v, rfl, rfl⟩ | ⟨r, rfl, rfl⟩ | ⟨v, rfl, rfl⟩ | ⟨rfl, rfl⟩ |
      ⟨rfl, rfl⟩ | ⟨v, rfl, rfl⟩
    · obtain ⟨hb, rfl⟩ := whenIdle_next h
      exact .inl ⟨r, v, rfl, hb, rfl⟩
    · obtain ⟨hb, rfl⟩ := whenIdle_next h
      exact .inr (.inl ⟨r, rfl, hb, rfl⟩)
    · obtain ⟨_, i, hd, hi⟩ := writeCommand_next h
      obtain ⟨hr, rfl⟩ := ifDefined_next hi
      exact .inr (.inr (.inl ⟨v, i, rfl, hd, hr, rfl⟩))
    · obtain ⟨hb, rfl⟩ := whenIdle_next h
      exact .inr (.inr (.inr (.inl ⟨rfl, hb, rfl⟩)))
    · exact .inr (.inr (.inr (.inr (.inl ⟨rfl, by injection h with h; exact h.symm⟩))))
    · exact .inr (.inr (.inr (.inr (.inr ⟨v, rfl, by injection h with h; exact h.symm⟩))))

/-- A host access that goes on is a window access that does, and keeps the host's duty. -/
theorem hostAccess_next {a : WindowAccess} {s t : State} (h : hostAccess a s = .next t) :
    (inBusyWindow s = true → a.transaction.any Transaction.touchesRegisters = false) ∧
    windowAccess a s = .next t := by
  unfold hostAccess at h
  split at h
  · cases h
  · next hd => exact ⟨fun hb => by simpa [hb] using hd, h⟩

/-- A call that goes on found no duty open, the engine idle and a legal word. -/
theorem hostCallWord_next {G : Engine} {w : BitVec 32} {s t : State}
    (h : hostCallWord G w s = .next t) :
    s.busy = false ∧ s.unread = false ∧
    ∃ i, decode s.params.xtsDecPresent w = .command i ∧ G.run i s = .next t := by
  unfold hostCallWord at h
  split at h
  · cases h
  · next hd =>
    simp only [inBusyWindow, Bool.or_eq_true, not_or, Bool.not_eq_true] at hd
    obtain ⟨_, hi⟩ := writeCommand_next h
    exact ⟨hd.1, hd.2, hi⟩

/-- All the next states of an event. -/
theorem runEvent_next {G : Engine} {e : Event} {s t : State} (h : runEvent G e s = .next t) :
    (∃ a, e = .window a ∧
      (inBusyWindow s = true → a.transaction.any Transaction.touchesRegisters = false) ∧
      windowAccess a s = .next t) ∨
    (∃ w i, e = .call w ∧ s.busy = false ∧ s.unread = false ∧
      decode s.params.xtsDecPresent w = .command i ∧ G.run i s = .next t) ∨
    (e = .tick ∧ t = G.tick s) ∨
    (e = .wait ∧ s.busy = true ∧
      t = { G.tick (readStatus s) with events := .wait :: s.events }) ∨
    (e = .wait ∧ s.busy = false ∧ t = readStatus s) ∨
    (∃ a bs, e = .store a bs ∧ a + bs.length ≤ 2 ^ s.params.aw ∧
      regionValid s.params ⟨a, bs.length⟩ = true ∧
      (inBusyWindow s = true → (flightFootprint s).any (regionsMeet ⟨a, bs.length⟩) = false) ∧
      t = { s with mem := memWrite s.mem a bs }) ∨
    (∃ a n, e = .load a n ∧ a + n ≤ 2 ^ s.params.aw ∧ regionValid s.params ⟨a, n⟩ = true ∧
      (inBusyWindow s = true → [outputRegion s.work.lat].any (regionsMeet ⟨a, n⟩) = false) ∧
      t = { s with reply := some (.bytes (memRead s.mem a n)) }) ∨
    (e = .reset ∧ t = engineReset s) := by
  rcases e with a | w | _ | _ | ⟨a, bs⟩ | ⟨a, n⟩ | _
  · exact .inl ⟨a, rfl, hostAccess_next h⟩
  · obtain ⟨hb, hu, i, hd, hi⟩ := hostCallWord_next h
    exact .inr (.inl ⟨w, i, rfl, hb, hu, hd, hi⟩)
  · exact .inr (.inr (.inl ⟨rfl, by injection h with h; exact h.symm⟩))
  · have h' : hostWait G s = t := by injection h
    by_cases hb : s.busy = true
    · exact .inr (.inr (.inr (.inl ⟨rfl, hb, by rw [← h', hostWait_busy hb]⟩)))
    · have hb : s.busy = false := by simpa using hb
      exact .inr (.inr (.inr (.inr (.inl ⟨rfl, hb, by rw [← h', hostWait_idle hb]⟩))))
  · exact .inr (.inr (.inr (.inr (.inr (.inl ⟨a, bs, rfl, agentAccess_next h⟩)))))
  · exact .inr (.inr (.inr (.inr (.inr (.inr (.inl ⟨a, n, rfl, agentAccess_next h⟩))))))
  · exact .inr (.inr (.inr (.inr (.inr (.inr (.inr ⟨rfl, by injection h with h; exact h.symm⟩))))))

/-- All the next states of a step: the engine moves on its own, or the next event happens. -/
theorem step_next {s t : State} (h : step s = .next t) :
    (s.events = [] ∧ t = engineTick s) ∨
    (∃ e rest, s.events = e :: rest ∧
      runEvent hardware e { s with events := rest } = .next t) := by
  unfold step stepOf at h
  split at h
  · next he => exact .inl ⟨he, by injection h with h; exact h.symm⟩
  · next e rest he => exact .inr ⟨e, rest, he, h⟩

end Sys2Proof.Machine
end

