-- ==== Sys2Proof/Laws/Outputs.lean ====
section
/-! SUPPORT. The one lemma that says what a command does to memory: every byte of the output range is a
byte of a closed form over the memory at issue, every other byte is as it was (spec/20_memory.md R57,
R62; the closed forms of files 42 to 45). -/

namespace Sys2Proof.Machine

open Sys2Proof.Config (RoundPrims)
open Sys2Proof.Safety

/-! ## Arithmetic of the counter -/

theorem Counter.value_lt (c : Counter) : c.value < 2 ^ 128 := by
  have h1 := c.hi.isLt
  have h2 := c.lo.isLt
  simp only [Counter.value]
  omega

/-- A counter is its value's segments (41_arith_units R124). -/
theorem Counter.ofValue_value (c : Counter) : Counter.ofValue c.value = c := by
  obtain ⟨hi, lo⟩ := c
  have h1 := hi.isLt
  have h2 := lo.isLt
  simp only [Counter.ofValue, Counter.value, Counter.mk.injEq]
  constructor <;> apply BitVec.eq_of_toNat_eq <;> rw [BitVec.toNat_ofNat] <;> omega

theorem Counter.value_ofValue {v : Nat} (h : v < 2 ^ 128) : (Counter.ofValue v).value = v := by
  simp only [Counter.ofValue, Counter.value, BitVec.toNat_ofNat]
  omega

/-- The segment-wise increment on the value (41_arith_units R127). -/
theorem value_inc128 (c : Counter) : (inc128 c).value = (c.value + 1) % 2 ^ 128 := by
  obtain ⟨hi, lo⟩ := c
  have h1 := hi.isLt
  have h2 := lo.isLt
  simp only [inc128, incCarry, Counter.value, BitVec.toNat_add, BitVec.toNat_ofNat]
  split
  · next h =>
    have h3 := congrArg BitVec.toNat h
    simp only [BitVec.toNat_add, BitVec.toNat_ofNat] at h3 ⊢
    omega
  · next h =>
    have h3 : ¬ (lo.toNat + 1) % 2 ^ 64 = 0 := fun h4 =>
      h (BitVec.eq_of_toNat_eq (by simpa using h4))
    simp only [BitVec.toNat_ofNat]
    omega

theorem value_inc128_iterate (c : Counter) (i : Nat) :
    (inc128^[i] c).value = (c.value + i) % 2 ^ 128 := by
  induction i with
  | zero => simpa using (Nat.mod_eq_of_lt c.value_lt).symm
  | succ i ih =>
    rw [Function.iterate_succ_apply', value_inc128, ih]
    omega

/-! ## Blocks as integers -/

theorem leNat_lt (bs : List Byte) : leNat bs < 256 ^ bs.length := by
  induction bs with
  | nil => simp [leNat]
  | cons b t ih =>
    have := b.isLt
    simp only [leNat, List.foldr_cons, List.length_cons, Nat.pow_succ] at ih ⊢
    omega

theorem beNat_eq (bs : List Byte) : beNat bs = leNat bs.reverse := by
  simp only [beNat, leNat, List.foldr_reverse]
  congr 1
  funext n b
  omega

theorem rev16_toList (b : Block) : (rev16 b).toList = b.toList.reverse := by
  apply List.ext_getElem
  · simp
  · intro n h1 h2
    simp [rev16]

theorem le128_lt (b : Block) : le128 b < 2 ^ 128 := by
  have h := leNat_lt b.toList
  simp only [Vector.length_toList] at h
  exact h

/-- `le128(rev16(C)) = be128(C)` (00_scope R10). -/
theorem le128_rev16 (b : Block) : le128 (rev16 b) = be128 b := by
  rw [le128, be128, beNat_eq, rev16_toList]

/-- `rev16(to_le128(v)) = to_be128(v)`. -/
theorem rev16_toLe128 (v : Nat) : rev16 (toLe128 v) = toBe128 v := by
  refine Vector.ext fun i h => ?_
  simp [rev16, toLe128, toBe128]

theorem toArith_value (b : Block) : (toArith b).value = be128 b := by
  rw [toArith, Counter.value_ofValue (le128_lt _), le128_rev16]

theorem toWire_eq (c : Counter) : toWire c = toBe128 c.value := rev16_toLe128 _

/-- The counter Block of block `i` (41_arith_units R128). -/
theorem toWire_iterate (b : Block) (i : Nat) :
    toWire (inc128^[i] (toArith b)) = toBe128 ((be128 b + i) % 2 ^ 128) := by
  rw [toWire_eq, value_inc128_iterate, toArith_value]

/-! ## The closed forms -/

/-- Output block `j` of a command over the memory at issue. -/
def outputBlockOf (P : RoundPrims) (nr : Nat) (i : Instr) (f : OperandFile Word64) (m : Memory)
    (j : Nat) : Block :=
  match i with
  | .ecbEnc _ => blockE P m f.key1.toNat nr (inputBlock f m j)
  | .ecbDec _ => blockD P m f.key1.toNat nr (inputBlock f m j)
  | .cbcEnc _ => cbcChain P nr f m (seedBlock f m) (j + 1)
  | .cbcDec _ =>
    xor16 (blockD P m f.key1.toNat nr (inputBlock f m j)) (previousBlock f m (seedBlock f m) j)
  | .ctr _ => xor16 (inputBlock f m j) (keystreamBlock P nr f m j)
  | .xtsEnc _ => xor16 (blockE P m f.key1.toNat nr
      (xor16 (inputBlock f m j) (tweakOf P nr f m j))) (tweakOf P nr f m j)
  | .xtsDec _ => xor16 (blockD P m f.key1.toNat nr
      (xor16 (inputBlock f m j) (tweakOf P nr f m j))) (tweakOf P nr f m j)

/-- Output byte `k`: byte `k mod 16` of block `k div 16`. -/
def outputByteOf (P : RoundPrims) (nr : Nat) (i : Instr) (f : OperandFile Word64) (m : Memory)
    (k : Nat) : Byte :=
  (outputBlockOf P nr i f m (k / 16))[k % 16]'(Nat.mod_lt _ (by decide))

/-- What a command does to memory. -/
structure Output (Y : Nat → Byte) (m0 : Memory) (dst len : Nat) (m : Memory) : Prop where
  wf     : m.Wf
  inside : ∀ k, k < len → m.get (dst + k) = Y k
  frame  : ∀ a, ¬ (dst ≤ a ∧ a < dst + len) → m.get a = m0.get a
  listed : ∀ c ∈ m, c ∈ m0 ∨ (dst ≤ c.1 ∧ c.1 < dst + len)

/-- An output is determined by its bytes and the memory before it. -/
theorem Output.unique {Y : Nat → Byte} {m0 m m' : Memory} {dst len : Nat}
    (h : Output Y m0 dst len m) (h' : Output Y m0 dst len m') : m = m' := by
  refine Memory.ext_get h.wf h'.wf (fun a => ?_)
  by_cases ha : dst ≤ a ∧ a < dst + len
  · obtain ⟨k, rfl⟩ : ∃ k, a = dst + k := ⟨a - dst, by omega⟩
    rw [h.inside k (by omega), h'.inside k (by omega)]
  · rw [h.frame a ha, h'.frame a ha]

theorem Progress.output {m0 m : Memory} {dst n len : Nat} {Y : Nat → Block}
    (h : Progress m0 dst Y n m) (hl : len = 16 * n) :
    Output (fun k => (Y (k / 16))[k % 16]'(Nat.mod_lt _ (by decide))) m0 dst len m := by
  subst hl
  refine ⟨h.wf, fun k hk => ?_, h.frame, h.listed⟩
  have hb := h.blocks (k / 16) (by omega)
  simp only [← hb, readBlock_getElem]
  congr 1
  omega

theorem cbcChain_congr {P : RoundPrims} {nr : Nat} {f g : OperandFile Word64} {m : Memory}
    {iv : Block} (h1 : f.src = g.src) (h2 : f.key1 = g.key1) (k : Nat) :
    cbcChain P nr f m iv k = cbcChain P nr g m iv k := by
  induction k with
  | zero => rfl
  | succ k ih => simp only [cbcChain, inputBlock, h1, h2, ih]

theorem previousBlock_congr {f g : OperandFile Word64} {m : Memory} {iv : Block}
    (h1 : f.src = g.src) (k : Nat) : previousBlock f m iv k = previousBlock g m iv k := by
  cases k <;> simp [previousBlock, inputBlock, h1]

/-! ## The master lemma -/

/-- The seed read of LOAD (20_memory R58). -/
theorem load_fb {s : State} (h : s.work.mode = .cbc) :
    (loadPhase s).work.fb = readBlock s.mem s.work.lat.seed.toNat := by
  simp [loadPhase, loadSeed, h]

theorem load_cnt {s : State} (h : s.work.mode = .ctr) :
    (loadPhase s).work.cnt = toArith (readBlock s.mem s.work.lat.seed.toNat) := by
  simp [loadPhase, loadSeed, h]

theorem load_x {s : State} (h : s.work.mode = .xts) :
    (loadPhase s).work.x = readBlock s.mem s.work.lat.seed.toNat := by
  simp [loadPhase, loadSeed, h]

@[simp] theorem issue_mode (i : Instr) (s : State) : (issue i s).work.mode = i.mode := rfl

@[simp] theorem issue_kc (i : Instr) (s : State) : (issue i s).work.kc = i.keyClass := rfl

theorem tweakOf_iterate (P : RoundPrims) (nr : Nat) (f : OperandFile Word64) (m : Memory)
    (k : Nat) : dbl^[k] (tweakOf P nr f m 0) = tweakOf P nr f m k := by
  rw [tweakOf, tweakOf, ← Function.iterate_add_apply, Nat.add_zero, Nat.add_comm]

/-- The working tweak after steps 1 and 2 is that of block 0 (45_xts R189). -/
theorem tweak_start (P : RoundPrims) {i : Instr} (s : State) (h : i.mode = .xts) :
    (tweakPhases P (loadPhase (issue i s))).work.tw =
      tweakOf P (rounds s.params i.keyClass) s.regs s.mem 0 := by
  have hk := issue_lat_key2 s h
  have ho := issue_lat_off s h
  have hs := issue_lat_seed s (i := i) (by simp [h])
  rw [(tweakPhases_spec P _).2.2, load_x (by simpa using h), tweakOf, seedBlock]
  simp only [loadPhase_work_lat, loadPhase_work_kc, loadPhase_mem, loadPhase_params, issue_params, issue_mem, issue_kc, hk, ho, hs,
    Nat.add_zero]

/-- The body of a full-block command, on memory. -/
theorem body_progress (P : RoundPrims) {i : Instr} {s : State} (h : Ready i s) (hw : s.mem.Wf)
    (hm : i.mode ≠ .ctr) :
    Progress s.mem s.regs.dst.toNat (outputBlockOf P (rounds s.params i.keyClass) i s.regs s.mem)
      (blockCount s.regs) (bodyOf P i (loadPhase (issue i s))).mem := by
  have hb := bodyStart h hw
  have en := start_nb i s
  rcases i with kc | kc | kc | kc | kc | kc | kc
  · have := ecbEncBody_writes P hb
    simp only [Writes, en, loadPhase_mem, issue_mem, loadPhase_work_lat, issue_lat_dst, inputBlock,
      dataCore, loadPhase_work_kc, loadPhase_params, issue_params, issue_kc, issue_lat_key1, issue_lat_src] at this
    exact this
  · have := ecbDecBody_writes P hb
    simp only [Writes, en, loadPhase_mem, issue_mem, loadPhase_work_lat, issue_lat_dst, inputBlock,
      dataCore, loadPhase_work_kc, loadPhase_params, issue_params, issue_kc, issue_lat_key1, issue_lat_src] at this
    exact this
  · have := cbcEncBody_writes P hb
    rw [load_fb rfl, issue_lat_seed s (i := .cbcEnc kc) (by simp [Instr.mode])] at this
    simp only [Writes, en, loadPhase_mem, issue_mem, loadPhase_work_lat, issue_lat_dst,
      loadPhase_work_kc, loadPhase_params, issue_params, issue_kc,
      cbcChain_congr (issue_lat_src (.cbcEnc kc) s) (issue_lat_key1 (.cbcEnc kc) s)] at this
    exact this
  · have := cbcDecBody_writes P hb
    rw [load_fb rfl, issue_lat_seed s (i := .cbcDec kc) (by simp [Instr.mode])] at this
    simp only [Writes, en, loadPhase_mem, issue_mem, loadPhase_work_lat, issue_lat_dst, inputBlock,
      dataCore, loadPhase_work_kc, loadPhase_params, issue_params, issue_kc, issue_lat_key1, issue_lat_src,
      previousBlock_congr (issue_lat_src (.cbcDec kc) s)] at this
    exact this
  · exact absurd rfl hm
  · have ht := tweakPhases_spec P (loadPhase (issue (.xtsEnc kc) s))
    have hc := tweakPhases_control P (loadPhase (issue (.xtsEnc kc) s))
    have hs : BodyStart (tweakPhases P (loadPhase (issue (.xtsEnc kc) s))) :=
      ⟨by rw [ht.1]; exact hb.wf, by rw [hc.mode, hc.kc, hc.params, hc.lat, hc.nb]; exact hb.clear,
        by rw [ht.2.1]; rfl⟩
    have := xtsEncBlocks_writes P hs
    rw [tweak_start P (i := .xtsEnc kc) s rfl] at this
    simp only [Writes, dataCore, hc.nb, hc.kc, hc.params, hc.lat, ht.1, en, loadPhase_mem, issue_mem,
      loadPhase_work_lat, issue_lat_dst, inputBlock, loadPhase_work_kc, loadPhase_params, issue_params, issue_kc, issue_lat_key1,
      issue_lat_src, tweakOf_iterate] at this
    exact this
  · have ht := tweakPhases_spec P (loadPhase (issue (.xtsDec kc) s))
    have hc := tweakPhases_control P (loadPhase (issue (.xtsDec kc) s))
    have hs : BodyStart (tweakPhases P (loadPhase (issue (.xtsDec kc) s))) :=
      ⟨by rw [ht.1]; exact hb.wf, by rw [hc.mode, hc.kc, hc.params, hc.lat, hc.nb]; exact hb.clear,
        by rw [ht.2.1]; rfl⟩
    have := xtsDecBlocks_writes P hs
    rw [tweak_start P (i := .xtsDec kc) s rfl] at this
    simp only [Writes, dataCore, hc.nb, hc.kc, hc.params, hc.lat, ht.1, en, loadPhase_mem, issue_mem,
      loadPhase_work_lat, issue_lat_dst, inputBlock, loadPhase_work_kc, loadPhase_params, issue_params, issue_kc, issue_lat_key1,
      issue_lat_src, tweakOf_iterate] at this
    exact this

/-! ## The whole of `ctr` -/

theorem padBlock_getElem (bs : List Byte) (i : Nat) (h : i < 16) :
    (padBlock bs)[i] = bs.getD i 0#8 := by simp [padBlock]

/-- The bytes of the partial block are still the original ones when TAIL reads them (20_memory
R59). -/
theorem tail_input {p : Config.Params} {kc : KeyClass} {f : OperandFile Word64} {m0 m : Memory}
    {Y : Nat → Block} {n k : Nat} (hl : OperandsLegal p .ctr kc f)
    (h : Progress m0 f.dst.toNat Y n m) (hn : 16 * n ≤ f.len.toNat) (hk : 16 * n ≤ k)
    (hk' : k < f.len.toNat) : m.get (f.src.toNat + k) = m0.get (f.src.toNat + k) := by
  refine h.frame _ (fun hc => ?_)
  rcases hl.overlap with h0 | h0 | h0
  · simp [h0] at hk'
  · rw [h0] at hc; omega
  · refine h0 ⟨f.src.toNat + k, ?_, ?_⟩ <;> simp only [Inside, inputRegion, outputRegion] <;> omega

/-- The tail of `ctr` on memory: REM more bytes, of the input XOR the next keystream block. -/
theorem tail_output {m0 m : Memory} {dst n rem len : Nat} {Y : Nat → Block} {out : List Byte}
    (h : Progress m0 dst Y n m) (hl : len = 16 * n + rem) (hr : rem ≤ 16)
    (ho : out.length = rem)
    (hy : ∀ k (hk : k < rem), out[k]'(by omega) = (Y n)[k]'(by omega)) (hne : rem < 16) :
    Output (fun k => (Y (k / 16))[k % 16]'(Nat.mod_lt _ (by decide))) m0 dst len
      (memWrite m (dst + 16 * n) out) := by
  subst hl
  have hb := h.output (len := 16 * n) rfl
  refine ⟨memWrite_wf h.wf _ _, fun k hk => ?_, fun a ha => ?_, fun c hc => ?_⟩
  · by_cases hk' : k < 16 * n
    · rw [get_memWrite_outside h.wf (by omega)]
      exact hb.inside k hk'
    · obtain ⟨j, rfl⟩ : ∃ j, k = 16 * n + j := ⟨k - 16 * n, by omega⟩
      have e1 : (16 * n + j) / 16 = n := by omega
      have e2 : (16 * n + j) % 16 = j := by omega
      rw [show dst + (16 * n + j) = dst + 16 * n + j by omega,
        get_memWrite_inside h.wf (by omega), hy j (by omega)]
      simp only [e1, e2]
  · rw [get_memWrite_outside h.wf (by omega)]
    exact h.frame a (by omega)
  · rcases mem_memWrite hc with hc | hc
    · rcases h.listed c hc with hc | hc
      · exact .inl hc
      · exact .inr (by omega)
    · exact .inr (by omega)

/-- The body of `ctr`, on memory. -/
theorem ctr_output (P : RoundPrims) {kc : KeyClass} {s : State} (h : Ready (.ctr kc) s) (hw : s.mem.Wf) :
    Output (outputByteOf P (rounds s.params kc) (.ctr kc) s.regs s.mem) s.mem s.regs.dst.toNat s.regs.len.toNat
      (ctrBody P (loadPhase (issue (.ctr kc) s))).mem := by
  have hb := bodyStart h hw
  have en := start_nb (.ctr kc) s
  have er := start_rem (.ctr kc) s
  have hlen : s.regs.len.toNat = 16 * blockCount s.regs + s.regs.len.toNat % 16 := by
    rw [blockCount]; omega
  have hm : s.regs.len.toNat % 16 < 16 := Nat.mod_lt _ (by decide)
  obtain ⟨hat, hcnt, hp⟩ := ctrBlocks_writes P hb
  have hpr : Progress s.mem s.regs.dst.toNat (outputBlockOf P (rounds s.params kc) (.ctr kc) s.regs s.mem)
      (blockCount s.regs) ((ctrBlock P)^[(loadPhase (issue (.ctr kc) s)).work.nb.toNat]
        (loadPhase (issue (.ctr kc) s))).mem := by
    have := hp
    rw [load_cnt rfl, issue_lat_seed s (i := .ctr kc) (by simp [Instr.mode])] at this
    simp only [Writes, en, loadPhase_mem, issue_mem, loadPhase_work_lat, issue_lat_dst, inputBlock,
      dataCore, loadPhase_work_kc, loadPhase_params, issue_params, issue_kc, issue_lat_key1, issue_lat_src, toWire_iterate] at this
    rw [en]
    exact this
  rw [ctrBody]
  generalize hu : (ctrBlock P)^[(loadPhase (issue (.ctr kc) s)).work.nb.toNat]
    (loadPhase (issue (.ctr kc) s)) = u at hat hcnt hpr ⊢
  have elat := hat.control.lat
  have ekc := hat.control.kc
  have epar := hat.control.params
  have enb := hat.control.nb
  have erem := hat.control.rem
  rw [ctrRemainder]
  split
  · rw [ctrTail_mem, elat, enb, erem, tailAddr, tailAddr, en, er, loadPhase_work_lat, issue_lat_dst,
      issue_lat_src]
    refine tail_output hpr hlen (by omega) (by simp; omega) (fun k hk => ?_) hm
    have ein : u.mem.get (s.regs.src.toNat + (16 * blockCount s.regs + k)) =
        s.mem.get (s.regs.src.toNat + (16 * blockCount s.regs + k)) :=
      tail_input (p := s.params) (kc := kc) h.operands hpr (by omega) (by omega) (by omega)
    have ekey : dataCore P .encrypt u (toWire u.work.cnt) =
        keystreamBlock P (rounds s.params kc) s.regs s.mem (blockCount s.regs) := by
      rw [hcnt, load_cnt rfl, issue_lat_seed s (i := .ctr kc) (by simp [Instr.mode]),
        toWire_iterate, en]
      simp only [dataCore, blockOp, elat, ekc, epar, loadPhase_work_lat, loadPhase_work_kc, loadPhase_params, issue_params, issue_kc,
        issue_lat_key1, keystreamBlock, seedBlock, issue_mem]
      have hc := (Machine.OperandsLegal.clear h.operands (n := 0) (by omega)).key1
      exact blockE_congr (fun a h1 h2 => hpr.frame a (fun h3 => hc a h1 h2 (by omega))) _
    have hk16 : k < 16 := by omega
    simp only [List.getElem_take, Vector.getElem_toList, xor16, Vector.getElem_ofFn, ekey,
      outputBlockOf, Fin.getElem_fin, padBlock_getElem, inputBlock, readBlock_getElem]
    rw [List.getD_eq_getElem _ _ (by simpa using hk), memRead_getElem, Nat.add_assoc, ein,
      ← Nat.add_assoc]
  · next hr =>
    have h0 : s.regs.len.toNat % 16 = 0 := by
      rw [← er, ← erem]
      rw [not_not.1 hr]
      rfl
    exact hpr.output (by omega)

/-- The master lemma: a Ready command completes, and does to memory exactly what its closed form
says. -/
theorem exec_output {i : Instr} {s : State} (h : Ready i s) (hw : s.mem.Wf) :
    ∃ t, exec i s = .next t ∧ t = complete (bodyOf aes i (loadPhase (issue i s))) ∧
      Output (outputByteOf aes (rounds s.params i.keyClass) i s.regs s.mem) s.mem s.regs.dst.toNat
        s.regs.len.toNat t.mem := by
  refine ⟨_, exec_ready h, rfl, ?_⟩
  rw [complete_mem]
  by_cases hm : i.mode = .ctr
  · cases i <;> simp only [Instr.mode, reduceCtorEq] at hm
    exact ctr_output aes h hw
  · refine (body_progress aes h hw hm).output ?_
    have := h.operands.length hm
    rw [blockCount]
    omega

end Sys2Proof.Machine
end

