-- ==== Sys2Proof/Laws/PerInstr.lean ====
section
/-! SUPPORT. The per-instruction families: each a statement about a command as syntax, with one lemma
per constructor of Instr. -/

namespace Sys2Proof.Laws.EncodedFields

/-- The command word of `i` has the fields of 30_encoding R80: ZERO zero, KC, DIR and MODE those of
the command. -/
def Statement (i : Instr) : Prop :=
  zeroField (encode i) = 0 ∧ (kcField (encode i)).toNat = i.keyClass.code ∧
    (dirField (encode i)).toNat = i.dir.code ∧ (modeField (encode i)).toNat = i.mode.code

theorem ecbEnc (kc : KeyClass) : Statement (.ecbEnc kc) := by cases kc <;> exact ⟨rfl, rfl, rfl, rfl⟩

theorem ecbDec (kc : KeyClass) : Statement (.ecbDec kc) := by cases kc <;> exact ⟨rfl, rfl, rfl, rfl⟩

theorem cbcEnc (kc : KeyClass) : Statement (.cbcEnc kc) := by cases kc <;> exact ⟨rfl, rfl, rfl, rfl⟩

theorem cbcDec (kc : KeyClass) : Statement (.cbcDec kc) := by cases kc <;> exact ⟨rfl, rfl, rfl, rfl⟩

theorem ctr (kc : KeyClass) : Statement (.ctr kc) := by cases kc <;> exact ⟨rfl, rfl, rfl, rfl⟩

theorem xtsEnc (kc : KeyClass) : Statement (.xtsEnc kc) := by cases kc <;> exact ⟨rfl, rfl, rfl, rfl⟩

theorem xtsDec (kc : KeyClass) : Statement (.xtsDec kc) := by cases kc <;> exact ⟨rfl, rfl, rfl, rfl⟩

end Sys2Proof.Laws.EncodedFields
end

