-- ==== Sys2Proof/Machine/HostNotation.lean ====
section
/-! DEFINITION. The host notation as lists of events (spec/30_encoding.md R89, R90): what a line of a
host program stands for. A list of lines is loaded into State's `events` (log entry 7). -/

namespace Sys2Proof.Machine

/-- `wr <REG>, <value>`: the 64-bit bus write at the register's offset (R89). -/
def hostWr (r : OperandReg) (v : Word64) : Event := .window (.write r.offset 64 v)

/-- `<mnemonic>.<bits>`: the 32-bit bus write of the command word to CMD (R89), the issue alone. -/
def hostIssue (i : Instr) : Event := commandWrite (encode i)

/-- `wait`: STATUS read until it returns BUSY = 0 (R89). -/
def hostWaitLine : Event := .wait

/-- `st <addr>, <hex>`: an ordinary host store, lowest address first (R89). -/
def hostSt (a : Nat) (bs : List Byte) : Event := .store a bs

/-- A whole call: register writes, the issue, the wait (R90). -/
def hostCall (i : Instr) (writes : List (OperandReg × Word64)) : List Event :=
  writes.map (fun w => hostWr w.1 w.2) ++ [hostIssue i, hostWaitLine]

/-- The buffer arguments that every call writes last (R90). -/
def bufferArguments (src dst len : Word64) : List (OperandReg × Word64) :=
  [(.src, src), (.dst, dst), (.len, len)]

/-- `ECB.ENC.<bits> key, src, dst, len` (R90). -/
def callEcbEnc (kc : KeyClass) (key src dst len : Word64) : List Event :=
  hostCall (.ecbEnc kc) ((.key1, key) :: bufferArguments src dst len)

/-- `ECB.DEC.<bits> dkey, src, dst, len` (R90). -/
def callEcbDec (kc : KeyClass) (dkey src dst len : Word64) : List Event :=
  hostCall (.ecbDec kc) ((.key1, dkey) :: bufferArguments src dst len)

/-- `CBC.ENC.<bits> key, iv, src, dst, len` (R90). -/
def callCbcEnc (kc : KeyClass) (key iv src dst len : Word64) : List Event :=
  hostCall (.cbcEnc kc) ((.key1, key) :: (.seed, iv) :: bufferArguments src dst len)

/-- `CBC.DEC.<bits> dkey, iv, src, dst, len` (R90). -/
def callCbcDec (kc : KeyClass) (dkey iv src dst len : Word64) : List Event :=
  hostCall (.cbcDec kc) ((.key1, dkey) :: (.seed, iv) :: bufferArguments src dst len)

/-- `CTR.<bits> key, seed, src, dst, len` (R90). -/
def callCtr (kc : KeyClass) (key seed src dst len : Word64) : List Event :=
  hostCall (.ctr kc) ((.key1, key) :: (.seed, seed) :: bufferArguments src dst len)

/-- `XTS.ENC.<bits> dkey1, tkey2, tweak, off, src, dst, len` (R90). -/
def callXtsEnc (kc : KeyClass) (dkey1 tkey2 tweak off src dst len : Word64) : List Event :=
  hostCall (.xtsEnc kc) ((.key1, dkey1) :: (.key2, tkey2) :: (.seed, tweak) :: (.off, off) ::
    bufferArguments src dst len)

/-- `XTS.DEC.<bits> ddkey1, tkey2, tweak, off, src, dst, len` (R90). -/
def callXtsDec (kc : KeyClass) (ddkey1 tkey2 tweak off src dst len : Word64) : List Event :=
  hostCall (.xtsDec kc) ((.key1, ddkey1) :: (.key2, tkey2) :: (.seed, tweak) :: (.off, off) ::
    bufferArguments src dst len)

end Sys2Proof.Machine
end

