-- ==== Sys2Proof/Tests/Slice0.lean ====
section
/-! SUPPORT. The model's own tests, each expected value from the spec's tables or vectors
(spec/95_test_vectors.md unless said otherwise), and for every obligation with hypotheses a concrete
state that meets them. -/

namespace Sys2Proof.Tests

/- The kernel evaluations below one after another: each waiting theorem would hold a thread and its
stack. -/
set_option Elab.async false

open Sys2Proof.Machine Sys2Proof.Safety

/-! ## Well-formedness -/

/-- `xts.dec` is no command of a build without it (45_xts R192). -/
theorem test_wf_refuses_xts_dec : Instr.wf false (.xtsDec .k128) = false := by decide

/-- It is one of a build that has it. -/
theorem test_wf_accepts_xts_dec : Instr.wf true (.xtsDec .k128) = true := by decide

/-! ## Decoding: words written out from the fields of 30_encoding R80 (ZERO, KC, DIR, MODE) -/

theorem test_decode_ecb_enc : decode false (0#26 ++ 0#2 ++ 0#1 ++ 0#3) = .command (.ecbEnc .k128) := by
  decide
theorem test_decode_ecb_dec : decode false (0#26 ++ 1#2 ++ 1#1 ++ 0#3) = .command (.ecbDec .k192) := by
  decide
theorem test_decode_cbc_enc : decode false (0#26 ++ 2#2 ++ 0#1 ++ 1#3) = .command (.cbcEnc .k256) := by
  decide
theorem test_decode_cbc_dec : decode false (0#26 ++ 0#2 ++ 1#1 ++ 1#3) = .command (.cbcDec .k128) := by
  decide
theorem test_decode_ctr : decode false (0#26 ++ 1#2 ++ 0#1 ++ 2#3) = .command (.ctr .k192) := by
  decide
theorem test_decode_xts_enc : decode false (0#26 ++ 2#2 ++ 0#1 ++ 3#3) = .command (.xtsEnc .k256) := by
  decide
theorem test_decode_xts_dec : decode true (0#26 ++ 0#2 ++ 1#1 ++ 3#3) = .command (.xtsDec .k128) := by
  decide

/-- The reserved words of section 10, one per reason (30_encoding R84). -/
theorem test_decode_reserved :
    decode true 0x00000040#32 = .reserved .nonZeroBits ∧
    decode true 0x00000030#32 = .reserved .keyClass ∧
    decode true 0x00000004#32 = .reserved .mode ∧
    decode true 0x0000000A#32 = .reserved .ctrDirection ∧
    decode false 0x0000000B#32 = .reserved .xtsDecAbsent := by decide

/-- An opcode-table word of 32 bits. -/
theorem test_table_word : decodeTableWord 32 0x29 = some (.cbcDec .k256) := by decide

/-! ## Arithmetic units (41_arith_units, the rules' worked examples) -/

theorem test_rev16 : rev16 (toBe128 0x000102030405060708090a0b0c0d0e0f) =
    toBe128 0x0f0e0d0c0b0a09080706050403020100 := by decide +kernel

/-- R125: the carry crosses the 64-bit boundary. -/
theorem test_inc128_carry : toWire (inc128 (toArith (toBe128 0x0000000000000000ffffffffffffffff))) =
    toBe128 0x00000000000000010000000000000000 := by decide +kernel

/-- R129, the three worked examples. -/
theorem test_dbl :
    dbl (toBe128 0x01000000000000000000000000000000) = toBe128 0x02000000000000000000000000000000 ∧
    dbl (toBe128 0x00000000000000000000000000000080) = toBe128 0x87000000000000000000000000000000 ∧
    dbl (toBe128 0xffffffffffffffffffffffffffffffff) = toBe128 0x79ffffffffffffffffffffffffffffff := by
  decide +kernel

/-- R132: `dbl^129(0100..00) = 0e0100..00`. -/
theorem test_dbl_129 : dbl^[129] (toBe128 0x01000000000000000000000000000000) =
    toBe128 0x0e010000000000000000000000000000 := by decide +kernel

/-! ## The AES record (section 4.1; 46_aes_round_reference R206) -/

theorem test_gf256 : gmul 0x57#8 0x13#8 = 0xfe#8 ∧ gmul 0x57#8 0x83#8 = 0xc1#8 ∧
    ginv 0x53#8 = 0xca#8 := by decide +kernel

theorem test_rows_and_columns :
    shiftRows (toBe128 0x00112233445566778899aabbccddeeff) =
      toBe128 0x0055aaff4499ee3388dd2277cc1166bb ∧
    invShiftRows (toBe128 0x00112233445566778899aabbccddeeff) =
      toBe128 0x00ddaa774411eebb885522ffcc996633 ∧
    mixColumns (toBe128 0xdb135345f20a225c01010101c6c6c6c6) =
      toBe128 0x8e4da1bc9fdc589d01010101c6c6c6c6 ∧
    invMixColumns (toBe128 0x00112233445566778899aabbccddeeff) =
      toBe128 0xaaff88ddeebbcc992277005566334411 := by decide +kernel

theorem test_round : aesRound (toBe128 0x00112233445566778899aabbccddeeff)
    (toBe128 0x000102030405060708090a0b0c0d0e0f) = toBe128 0x6378e4daf062fd71a50f36ffdee684ac := by
  decide +kernel

/-! ## One command each, on the vectors of sections 4, 5, 6, 7 and 9 -/

/-- KB.E of 95_test_vectors section 3, one round key per entry. -/
def scheduleKBE : List Nat :=
  [ 0x2b7e151628aed2a6abf7158809cf4f3c, 0xa0fafe1788542cb123a339392a6c7605,
    0xf2c295f27a96b9435935807a7359f67f, 0x3d80477d4716fe3e1e237e446d7a883b,
    0xef44a541a8525b7fb671253bdb0bad00, 0xd4d1c6f87c839d87caf2b8bc11f915bc,
    0x6d88a37a110b3efddbf98641ca0093fd, 0x4e54f70e5f5fc9f384a64fb24ea6dc4f,
    0xead27321b58dbad2312bf5607f8d292f, 0xac7766f319fadc2128d12941575c006e,
    0xd014f9a8c9ee2589e13f0cc8b6630ca6 ]

/-- KB.D of 95_test_vectors section 3. -/
def scheduleKBD : List Nat :=
  [ 0xd014f9a8c9ee2589e13f0cc8b6630ca6, 0x0c7b5a631319eafeb0398890664cfbb4,
    0xdf7d925a1f62b09da320626ed6757324, 0x12c07647c01f22c7bc42d2f37555114a,
    0x6efcd876d2df54807c5df034c917c3b9, 0x6ea30afcbc238cf6ae82a4b4b54a338d,
    0x90884413d280860a12a128421bc89739, 0x7c1f13f74208c219c021ae480969bf7b,
    0xcc7505eb3e17d1ee82296c51c9481133, 0x2b3708a7f262d405bc3ebdbf4b617d62,
    0x2b7e151628aed2a6abf7158809cf4f3c ]

/-- K1.E of 95_test_vectors section 3. -/
def scheduleK1E : List Nat :=
  [ 0x11111111111111111111111111111111, 0x92939393838282829293939383828282,
    0x8380807f000202fd9291916e111313ec, 0xfafd4efdfaff4c00686edd6e797dce82,
    0x0d765d4bf789114b9fe7cc25e69a02a7, 0xa50101c55288108ecd6fdcab2bf5de0c,
    0x631cff343194efbafcfb3311d70eed1d, 0x88495b3ab9ddb4804526879192286a8c,
    0x3c4b3f7585968bf5c0b00c64529866e8, 0x6178a475e4ee2f80245e23e476c6450c,
    0xe3165a4d07f875cd23a6562955601325 ]

/-- K1.D of 95_test_vectors section 3. -/
def scheduleK1D : List Nat :=
  [ 0xe3165a4d07f875cd23a6562955601325, 0xb83df6bb0b2e9111ee588883b1ae6b8d,
    0x109569d1b31367aae57619925ff6e30e, 0xa76d2f45a3860e7b56657e38ba80fa9c,
    0xb802575904eb213ef5e37043ece584a4, 0x1d717975bce97667f108517d1906f4e7,
    0x88fc021ba1980f124de1271ae80ea59a, 0x71e3b69029640d09ec792808a5ef8280,
    0xd40c34105887bb99c51d25014996aa88, 0x9d9a9e988c8b8f899d9a9e988c8b8f89,
    0x11111111111111111111111111111111 ]

/-- K2.E of 95_test_vectors section 3. -/
def scheduleK2E : List Nat :=
  [ 0x22222222222222222222222222222222, 0xb0b1b1b192939393b0b1b1b192939393,
    0x6e6d6dfefcfefe6d4c4f4fdcdedcdc4f, 0xecebe9e31015178e5c5a58528286841d,
    0xa0b44df0b0a15a7eecfb022c6e7d8631, 0x4ff08a6fff51d01113aad23d7dd7540c,
    0x61d074909e81a4818d2b76bcf0fc22b0, 0x9143931c0fc2379d82e9412172156391,
    0x48b8125c477a25c1c59364e0b7860771, 0x177db1f5500794349594f0d42212f7a5,
    0xe815b766b81223522d86d3860f942423 ]

/-- The cells of a Block given as a big-endian numeral; bytes 00 are not listed. -/
def blockCells (a v : Nat) : Memory :=
  (List.range 16).filterMap (fun i =>
    let b : Byte := BitVec.ofNat 8 (v / 256 ^ (15 - i))
    if b = 0#8 then none else some (a + i, b))

/-- The cells of consecutive Blocks. -/
def cells (a : Nat) (vs : List Nat) : Memory :=
  (List.range vs.length).flatMap (fun j => blockCells (a + 16 * j) (vs.getD j 0))

/-- The operands of the vectors: one block from 0x3000 to 0x5000, seed at 0x2000. -/
def vectorOperands : OperandFile Word64 where
  src  := 0x3000#64
  dst  := 0x5000#64
  len  := 16#64
  key1 := 0x1000#64
  key2 := 0x1A00#64
  seed := 0x2000#64
  off  := 0#64

/-- An idle engine that has `xts.dec`, every operand register written. -/
def vectorState (f : OperandFile Word64) (m : Memory) : State :=
  { State.reset with
    params := { Config.Params.default with xtsDecPresent := true }
    regs := f
    written := .fill true
    mem := m }

/-- The Block a completed command left at an address. -/
def blockAfter (o : Host.Outcome State Fault Refusal) (a : Nat) : Option Block :=
  match o with
  | .next t => some (readBlock t.mem a)
  | _ => none

theorem test_ecb_enc : blockAfter (exec (.ecbEnc .k128) (vectorState vectorOperands
    (cells 0x1000 scheduleKBE ++ blockCells 0x3000 0x6bc1bee22e409f96e93d7e117393172a))) 0x5000 =
    some (toBe128 0x3ad77bb40d7a3660a89ecaf32466ef97) := by decide +kernel

theorem test_ecb_dec : blockAfter (exec (.ecbDec .k128) (vectorState vectorOperands
    (cells 0x1000 scheduleKBD ++ blockCells 0x3000 0x3ad77bb40d7a3660a89ecaf32466ef97))) 0x5000 =
    some (toBe128 0x6bc1bee22e409f96e93d7e117393172a) := by decide +kernel

theorem test_cbc_enc : blockAfter (exec (.cbcEnc .k128) (vectorState vectorOperands
    (cells 0x1000 scheduleKBE ++ blockCells 0x2000 0x000102030405060708090a0b0c0d0e0f ++
      blockCells 0x3000 0x6bc1bee22e409f96e93d7e117393172a))) 0x5000 =
    some (toBe128 0x7649abac8119b246cee98e9b12e9197d) := by decide +kernel

theorem test_cbc_dec : blockAfter (exec (.cbcDec .k128) (vectorState vectorOperands
    (cells 0x1000 scheduleKBD ++ blockCells 0x2000 0x000102030405060708090a0b0c0d0e0f ++
      blockCells 0x3000 0x7649abac8119b246cee98e9b12e9197d))) 0x5000 =
    some (toBe128 0x6bc1bee22e409f96e93d7e117393172a) := by decide +kernel

/-- A partial block of 5 bytes: the 11 guard bytes EE after them stay (section 2.5). -/
theorem test_ctr_partial : blockAfter (exec (.ctr .k128) (vectorState
    { vectorOperands with len := 5#64 }
    (cells 0x1000 scheduleKBE ++ blockCells 0x2000 0xf0f1f2f3f4f5f6f7f8f9fafbfcfdfeff ++
      blockCells 0x3000 0x6bc1bee22e409f96e93d7e117393172a ++
      blockCells 0x5000 0xeeeeeeeeeeeeeeeeeeeeeeeeeeeeeeee))) 0x5000 =
    some (toBe128 0x874d6191b6eeeeeeeeeeeeeeeeeeeeee) := by decide +kernel

theorem test_xts_enc : blockAfter (exec (.xtsEnc .k128) (vectorState vectorOperands
    (cells 0x1000 scheduleK1E ++ cells 0x1A00 scheduleK2E ++
      blockCells 0x2000 0x33333333330000000000000000000000 ++
      blockCells 0x3000 0x44444444444444444444444444444444))) 0x5000 =
    some (toBe128 0xc454185e6a16936e39334038acef838b) := by decide +kernel

theorem test_xts_dec : blockAfter (exec (.xtsDec .k128) (vectorState vectorOperands
    (cells 0x1000 scheduleK1D ++ cells 0x1A00 scheduleK2E ++
      blockCells 0x2000 0x33333333330000000000000000000000 ++
      blockCells 0x3000 0xc454185e6a16936e39334038acef838b))) 0x5000 =
    some (toBe128 0x44444444444444444444444444444444) := by decide +kernel

/-- Schedule sizes of the three classes (40_block_core R100). -/
theorem test_schedule_sizes : scheduleBytes (rounds Config.Params.default .k128) = 176 ∧
    scheduleBytes (rounds Config.Params.default .k192) = 208 ∧
    scheduleBytes (rounds Config.Params.default .k256) = 240 := by decide

/-! ## Witnesses: states that meet the hypotheses of the obligations -/

/-- The operands of the witnesses: two blocks; block 0 of the output range starts at 0x5000. -/
def wide : OperandFile Word64 := { vectorOperands with len := 32#64 }

/-- Memory with nothing listed but the byte that makes the Block at 0x6000 the big-endian 1. -/
def seedOne : Memory := [(0x600F, 1#8)]

theorem seedOne_wf : seedOne.Wf := by decide

/-- Every command is Ready over the two-block operands, so every per-command obligation
(EcbEncComputes, EcbDecComputes, CbcClosedForm, CtrComputes, XtsEncComputes, XtsDecComputes) has a
state that meets its hypotheses. -/
theorem witness_ready_every_command (m : Memory) (i : Instr) : Ready i (vectorState wide m) := by
  have h : ∀ i, issueViolations i (vectorState wide []) = [] := by
    intro i
    rcases i with kc | kc | kc | kc | kc | kc | kc <;> cases kc <;> decide +kernel
  obtain ⟨h1, h2, h3, h4⟩ := issueViolations_nil.1 (h i)
  exact ⟨h1, h2, h3, h4⟩

theorem witness_memory : (vectorState wide seedOne).mem.Wf := seedOne_wf

/-- Some next state: the hypothesis `exec i s = next t` of the frame obligations, and of
ReadyCommandsAndOnlyTheyComplete. -/
theorem witness_next (m : Memory) (i : Instr) : ∃ t, exec i (vectorState wide m) = .next t :=
  ⟨_, exec_ready (witness_ready_every_command m i)⟩

/-! ### Encoding and the step -/

/-- ReservedWordsAreRefused, one word per disjunct at its boundary: bit 6, bit 31, KC 3, MODE 4 and 7,
`ctr` with DIR 1, `xts.dec` absent. -/
theorem witness_reserved :
    (∃ why, decode true 0x00000040#32 = .reserved why) ∧
    (∃ why, decode true 0x80000000#32 = .reserved why) ∧
    (∃ why, decode true 0x00000030#32 = .reserved why) ∧
    (∃ why, decode true 0x00000004#32 = .reserved why) ∧
    (∃ why, decode true 0x00000007#32 = .reserved why) ∧
    (∃ why, decode true 0x0000000A#32 = .reserved why) ∧
    (∃ why, decode false 0x0000000B#32 = .reserved why) :=
  ⟨⟨_, rfl⟩, ⟨_, rfl⟩, ⟨_, rfl⟩, ⟨_, rfl⟩, ⟨_, rfl⟩, ⟨_, rfl⟩, ⟨_, rfl⟩⟩

theorem witness_reserved_write : State.reset.busy = false ∧
    decode State.reset.params.xtsDecPresent 0x0000000B#32 = .reserved .xtsDecAbsent := by decide

/-- DecoderSelectsTheOpcodeRow, LegalWordsAreTheEncodings. -/
theorem witness_command_word : decode true 0x0000001B#32 = .command (.xtsDec .k192) := by decide

/-- StepRunsTheDecodedCommand. -/
theorem witness_step_command :
    let s := { vectorState wide [] with events := [.call 0x21#32, .tick] }
    s.events = .call 0x21#32 :: [.tick] ∧ s.busy = false ∧ s.unread = false ∧
    decode s.params.xtsDecPresent 0x21#32 = .command (.cbcEnc .k256) := by
  decide

/-- FetchWordStepRunsTheCommand. -/
theorem witness_table_word : decodeTableWord 32 0x2B = some (.xtsDec .k256) := by decide

/-! ### Refusals -/

/-- RefusalNamesTheViolatedPreconditions, its four clauses: a busy engine, a command absent from the
build, an unwritten register, illegal operands. -/
theorem witness_refusal_busy : (setBusy (vectorState wide [])).busy = true := by decide

theorem witness_refusal_absent : State.reset.busy = false ∧
    Instr.wf State.reset.params.xtsDecPresent (.xtsDec .k128) = false := by decide

theorem witness_refusal_unwritten : State.reset.busy = false ∧
    Instr.wf State.reset.params.xtsDecPresent (.ctr .k128) = true ∧
    ∃ r ∈ modeOperands (Instr.mode (.ctr .k128)), State.reset.written.get r = false :=
  ⟨rfl, rfl, .src, by decide, rfl⟩

/-- Operands with PV2, PV3, PV4, PV5 and PV10 all violated: 24 bytes from 0x3000 to 0x3008 for ECB,
the schedule at 0x3011; and each alone. -/
theorem witness_refusal_operands :
    issueViolations (.ecbEnc .k128) (vectorState { vectorOperands with
      src := 0x3000#64, dst := 0x3008#64, len := 24#64, key1 := 0x3011#64 } []) =
      [.pv2, .pv3, .pv5, .pv10] ∧
    issueViolations (.ecbEnc .k128) (vectorState { vectorOperands with len := 15#64 } []) = [.pv2] ∧
    issueViolations (.ecbEnc .k128) (vectorState { vectorOperands with dst := 0x300F#64 } []) =
      [.pv3] ∧
    issueViolations (.ecbEnc .k128) (vectorState { vectorOperands with
      src := 0xFFFFFFFFFFFFEFF8#64 } []) = [.pv4] ∧
    issueViolations (.ecbEnc .k128) (vectorState { vectorOperands with dst := 0x10AF#64 } []) =
      [.pv5] ∧
    issueViolations (.ecbEnc .k128) (vectorState { vectorOperands with key1 := 0x1008#64 } []) =
      [.pv10] := by decide +kernel

/-- 30_encoding R83: with AW = 32 and LEN = 0, an address of exactly 2^32 is PV4. -/
theorem test_address_past_the_space : issueViolations (.ecbEnc .k128)
    { vectorState { vectorOperands with src := 0x100000000#64, len := 0#64 } [] with
      params := { Config.Params.default with aw := 32 } } = [.pv4] := by decide +kernel

theorem witness_refusal_illegal (i : Instr) (s : State)
    (hv : issueViolations i s = [.pv2, .pv3, .pv5, .pv10]) : ¬ Ready i s := by
  rw [← issueViolations_nil, hv]
  simp

/-! ### Faults -/

/-- OnlyAgentsFault: a store past the top of the address space. -/
theorem witness_fault : ∃ r, step { State.reset with events := [.store (2 ^ 64 - 1) [1#8, 2#8]] } =
    .fault r := ⟨.beyondMemory, rfl⟩

/-! ### From the issue to the STATUS read that returns 0 (60_exceptions R236) -/

/-- A command issued by a write to CMD: what the window access leaves. -/
def issued (i : Instr) (f : OperandFile Word64) (m : Memory) : State :=
  { issue i (vectorState f m) with unread := true }

/-- A command of length 0 after its one phase action, with no STATUS read yet. -/
def finished : State := engineTick (issued (.ecbEnc .k128) { vectorOperands with len := 0#64 } [])

/-- HostKeepsOffUntilBusyReadsClear: BUSY is 0 and the duty open; it ends in a STATUS read, in a `wait`,
and in a reset. -/
theorem witness_duty_ends : finished.busy = false ∧ finished.unread = true ∧
    ∀ e ∈ [Event.window (.read 0x40 64), .wait, .reset],
      ∃ t, step { finished with events := [e] } = .next t ∧ t.unread = false := by
  refine ⟨rfl, rfl, fun e he => ?_⟩
  simp only [List.mem_cons, List.not_mem_nil, or_false] at he
  rcases he with rfl | rfl | rfl <;> exact ⟨_, rfl, rfl⟩

/-- After the completion the engine's window would answer (10_state R22), the host must read STATUS first
(R236), and a STATUS write is ignored (10_state R26). -/
theorem test_register_write_needs_status_read :
    windowAccess (.write 0x00 64 7#64) finished = .next (writeOperand .src 7#64 finished) ∧
    hostAccess (.write 0x00 64 7#64) finished = .refused (.violated .pv7 []) ∧
    hostAccess (.write 0x00 64 7#64) (readStatus finished) =
      .next (writeOperand .src 7#64 (readStatus finished)) ∧
    hostAccess (.write 0x40 64 1#64) finished = .next finished := ⟨rfl, rfl, rfl, rfl⟩

/-- A STATUS write while BUSY = 1 is ignored (10_state R26). -/
theorem test_status_write_while_busy :
    hostAccess (.write 0x40 64 0#64) (issued (.ctr .k128) wide []) =
      .next (issued (.ctr .k128) wide []) := rfl

/-- 00_scope R14, 70_reset_and_hazards R261: with no STATUS read two phase actions run the one-block
command of test_ecb_enc to its completion, and a reset then leaves its output block. -/
theorem test_unpolled_command_completes :
    let s := engineTick (engineTick (issued (.ecbEnc .k128) vectorOperands
      (cells 0x1000 scheduleKBE ++ blockCells 0x3000 0x6bc1bee22e409f96e93d7e117393172a)))
    s.phase = .idle ∧ s.busy = false ∧ s.unread = true ∧
    readBlock (engineReset s).mem 0x5000 = toBe128 0x3ad77bb40d7a3660a89ecaf32466ef97 := by
  decide +kernel

/-- A load of the output range is PV8 until the STATUS read that returns 0, and then goes on. -/
theorem test_load_of_the_output_range :
    let s := complete (issued (.ctr .k128) wide [])
    agentLoad 0x5000 1 s = .refused (.violated .pv8 []) ∧
    agentLoad 0x5000 1 (readStatus s) =
      .next { readStatus s with reply := some (.bytes [0#8]) } := ⟨rfl, rfl⟩

/-! ### Laws of the drivers -/

/-- ZeroLengthCommandsChangeNoMemory. -/
theorem witness_zero_length : Ready (.xtsEnc .k128)
    (vectorState { vectorOperands with len := 0#64, off := 0xFFFFFFFFFFFFFFFF#64 } []) :=
  issueViolations_nil.1 (by decide +kernel)

/-- OneBlockEcbIsOneBlockOperation, both directions. -/
theorem witness_one_block : vectorOperands.len = 16#64 ∧
    Ready (.ecbEnc .k128) (vectorState vectorOperands []) ∧
    Ready (.ecbDec .k256) (vectorState vectorOperands []) :=
  ⟨rfl, issueViolations_nil.1 (by decide +kernel), issueViolations_nil.1 (by decide +kernel)⟩

/-- The second block of the two-block operands. -/
def secondBlock : OperandFile Word64 :=
  { vectorOperands with src := 0x3010#64, dst := 0x5010#64 }

theorem ready_first (i : Instr) (m : Memory) : Ready i (vectorState vectorOperands m) := by
  have h : ∀ i, issueViolations i (vectorState vectorOperands []) = [] := by
    intro i
    rcases i with kc | kc | kc | kc | kc | kc | kc <;> cases kc <;> decide +kernel
  obtain ⟨h1, h2, h3, h4⟩ := issueViolations_nil.1 (h i)
  exact ⟨h1, h2, h3, h4⟩

/-- EcbSplitsInEitherOrder. -/
theorem witness_ecb_split :
    Instr.mode (.ecbDec .k128) = .ecb ∧ (vectorState wide seedOne).mem.Wf ∧
    wide.len.toNat = 16 * (1 + 1) ∧ Portion wide vectorOperands 0 (16 * 1) ∧
    Portion wide secondBlock 1 (16 * 1) ∧ Ready (.ecbDec .k128) (vectorState wide seedOne) ∧
    Ready (.ecbDec .k128) (vectorState vectorOperands []) ∧
    Ready (.ecbDec .k128) (vectorState secondBlock []) :=
  ⟨rfl, seedOne_wf, rfl, ⟨rfl, rfl, rfl, rfl⟩, ⟨rfl, rfl, rfl, rfl⟩,
    witness_ready_every_command _ _, ready_first _ _, issueViolations_nil.1 (by decide +kernel)⟩

/-- A Block outside the output range of a command is what it was before it. -/
theorem kept {i : Instr} {s t : State} (hw : s.mem.Wf) (h : exec i s = .next t) (a : Nat)
    (ha : a + 16 ≤ s.regs.dst.toNat ∨ s.regs.dst.toNat + s.regs.len.toNat ≤ a) :
    readBlock t.mem a = readBlock s.mem a := by
  obtain ⟨t', ht, -, ho⟩ := exec_output (exec_next h).1 hw
  rw [ht] at h
  cases h
  exact readBlock_congr (fun k hk => ho.frame _ (by omega))

/-- CbcContinuesFromTheLastCiphertextBlock, for encryption: the second seed is the first output
block, inside the output range of the first command. -/
theorem witness_cbc_enc_continues : ∃ t1,
    exec (.cbcEnc .k128) { vectorState vectorOperands [] with mem := seedOne } = .next t1 ∧
    Instr.mode (.cbcEnc .k128) = .cbc ∧ seedOne.Wf ∧ wide.len.toNat = 16 * (1 + 1) ∧
    Portion wide vectorOperands 0 (16 * 1) ∧
    Portion wide { secondBlock with seed := 0x5000#64 } 1 (16 * 1) ∧
    Ready (.cbcEnc .k128) (vectorState wide seedOne) ∧
    Ready (.cbcEnc .k128) (vectorState vectorOperands []) ∧
    Ready (.cbcEnc .k128) (vectorState { secondBlock with seed := 0x5000#64 } []) ∧
    seedBlock vectorOperands seedOne = seedBlock wide seedOne ∧
    seedBlock { secondBlock with seed := 0x5000#64 } t1.mem = outputBlock wide t1.mem (1 - 1) :=
  ⟨_, exec_ready (ready_first _ seedOne), rfl, seedOne_wf, rfl, ⟨rfl, rfl, rfl, rfl⟩,
    ⟨rfl, rfl, rfl, rfl⟩, witness_ready_every_command _ _, ready_first _ _,
    issueViolations_nil.1 (by decide +kernel), rfl, rfl⟩

/-- The same for decryption: the second seed is the first input block, which the first command has
not overwritten. -/
theorem witness_cbc_dec_continues : ∃ t1,
    exec (.cbcDec .k128) { vectorState vectorOperands [] with mem := seedOne } = .next t1 ∧
    Instr.mode (.cbcDec .k128) = .cbc ∧ seedOne.Wf ∧
    Portion wide { secondBlock with seed := 0x3000#64 } 1 (16 * 1) ∧
    Ready (.cbcDec .k128) (vectorState { secondBlock with seed := 0x3000#64 } []) ∧
    seedBlock { secondBlock with seed := 0x3000#64 } t1.mem = inputBlock wide seedOne (1 - 1) :=
  ⟨_, exec_ready (ready_first _ seedOne), rfl, seedOne_wf, ⟨rfl, rfl, rfl, rfl⟩,
    issueViolations_nil.1 (by decide +kernel),
    kept seedOne_wf (exec_ready (ready_first _ seedOne)) 0x3000 (.inl (by decide))⟩

/-- The second portion of a `ctr` command of 21 bytes, its seed the counter 1 at 0x6000; the seed of
the whole and of the first portion is the counter 0 at 0x2000. -/
def ctrRest : OperandFile Word64 := { secondBlock with len := 5#64, seed := 0x6000#64 }

/-- CtrSplitsInEitherOrder, with a partial block in the second portion; both orders' seed hypotheses
hold before and after the other command. -/
theorem witness_ctr_split : ∃ t1 t2,
    exec (.ctr .k128) { vectorState vectorOperands [] with mem := seedOne } = .next t1 ∧
    exec (.ctr .k128) { vectorState ctrRest [] with mem := seedOne } = .next t2 ∧
    Ready (.ctr .k128) (vectorState { wide with len := 21#64 } seedOne) ∧
    ({ wide with len := 21#64 } : OperandFile Word64).len.toNat = 16 * 1 + 5 ∧
    Portion { wide with len := 21#64 } vectorOperands 0 (16 * 1) ∧
    Portion { wide with len := 21#64 } ctrRest 1 5 ∧
    seedBlock vectorOperands seedOne = seedBlock wide seedOne ∧
    seedBlock ctrRest t1.mem = toBe128 ((be128 (seedBlock wide seedOne) + 1) % 2 ^ 128) ∧
    seedBlock ctrRest seedOne = toBe128 ((be128 (seedBlock wide seedOne) + 1) % 2 ^ 128) ∧
    seedBlock vectorOperands t2.mem = seedBlock wide seedOne := by
  have r2 : Ready (.ctr .k128) { vectorState ctrRest [] with mem := seedOne } :=
    issueViolations_nil.1 (by decide +kernel)
  have hs : seedBlock ctrRest seedOne = toBe128 ((be128 (seedBlock wide seedOne) + 1) % 2 ^ 128) := by
    decide +kernel
  refine ⟨_, _, exec_ready (ready_first _ seedOne), exec_ready r2,
    issueViolations_nil.1 (by decide +kernel), rfl, ⟨rfl, rfl, rfl, rfl⟩, ⟨rfl, rfl, rfl, rfl⟩, rfl,
    ?_, hs, ?_⟩
  · exact (kept seedOne_wf (exec_ready (ready_first _ seedOne)) 0x6000 (.inr (by decide))).trans hs
  · exact kept seedOne_wf (exec_ready r2) 0x2000 (.inl (by decide))

/-- XtsSplitsInEitherOrder: OFF 0 and 1, one raw tweak. -/
theorem witness_xts_split : ∃ t1 t2,
    exec (.xtsDec .k128) { vectorState vectorOperands [] with mem := seedOne } = .next t1 ∧
    exec (.xtsDec .k128) { vectorState { secondBlock with off := 1#64 } [] with mem := seedOne } =
      .next t2 ∧
    Ready (.xtsDec .k128) (vectorState wide seedOne) ∧
    Portion wide vectorOperands 0 (16 * 1) ∧ Portion wide { secondBlock with off := 1#64 } 1 (16 * 1) ∧
    ({ secondBlock with off := 1#64 } : OperandFile Word64).off.toNat = wide.off.toNat + 1 ∧
    seedBlock secondBlock t1.mem = seedBlock wide seedOne ∧
    seedBlock vectorOperands t2.mem = seedBlock wide seedOne := by
  have r2 : Ready (.xtsDec .k128)
      { vectorState { secondBlock with off := 1#64 } [] with mem := seedOne } :=
    issueViolations_nil.1 (by decide +kernel)
  exact ⟨_, _, exec_ready (ready_first _ seedOne), exec_ready r2, witness_ready_every_command _ _,
    ⟨rfl, rfl, rfl, rfl⟩, ⟨rfl, rfl, rfl, rfl⟩, rfl,
    kept seedOne_wf (exec_ready (ready_first _ seedOne)) 0x2000 (.inl (by decide)),
    kept seedOne_wf (exec_ready r2) 0x2000 (.inl (by decide))⟩

/-- The states of the split, round-trip and comparison witnesses are of one build: the hypotheses on the
round counts. -/
theorem witness_one_build (f g : OperandFile Word64) (m m' : Memory) :
    (vectorState f m).params.nr = (vectorState g m').params.nr := rfl

/-- CbcDecryptionIsOrderIndependent: two blocks, the later one first. -/
theorem witness_cbc_order :
    (vectorState wide seedOne).mem.Wf ∧ (vectorState wide seedOne).params.aw ≤ 64 ∧
    Ready (.cbcDec .k128) (vectorState wide seedOne) ∧
    ¬ ShareByte (inputRegion wide) (outputRegion wide) ∧
    ¬ ShareByte ⟨wide.seed.toNat, 16⟩ (outputRegion wide) ∧
    [1, 0].Perm (List.range (blockCount wide)) :=
  ⟨seedOne_wf, le_rfl, witness_ready_every_command _ _,
    by rw [← regionsMeet_iff]; decide, by rw [← regionsMeet_iff]; decide, by decide⟩

/-! ### Round trips: the all-zero schedules are a pair -/

/-- Where memory holds zeros at both schedule addresses, they are related as encryption and
decryption schedule. -/
theorem zero_pair {nr : Nat} {m m' : Memory} {ek dk : Nat}
    (h : ∀ r, r ≤ nr → roundKey m ek r = zeroBlock)
    (h' : ∀ r, r ≤ nr → roundKey m' dk r = zeroBlock) : SchedulePair aes nr m ek m' dk := by
  have hz : invMixColumns zeroBlock = zeroBlock := by decide +kernel
  refine Related.pair ⟨?_, fun r _ hr => ?_, ?_⟩
  · rw [h' 0 (Nat.zero_le _), h _ le_rfl]
  · rw [h' r hr.le, h _ (Nat.sub_le _ _), hz]
  · rw [h' _ le_rfl, h 0 (Nat.zero_le _)]

theorem seedOne_zero (a : Nat) (h : a + 16 ≤ 0x600F) : readBlock seedOne a = zeroBlock := by
  refine Vector.ext fun i hi => ?_
  have : a + i < 0x600F := by omega
  simp [seedOne, Memory.get, this, zeroBlock, unlistedByte]

/-- The operands of the way back: from 0x5000 to 0x7000, the schedule at 0x1000. -/
def back : OperandFile Word64 := { wide with src := 0x5000#64, dst := 0x7000#64 }

theorem ready_back (i : Instr) (m : Memory) : Ready i (vectorState back m) := by
  have h : ∀ i, issueViolations i (vectorState back []) = [] := by
    intro i
    rcases i with kc | kc | kc | kc | kc | kc | kc <;> cases kc <;> decide +kernel
  obtain ⟨h1, h2, h3, h4⟩ := issueViolations_nil.1 (h i)
  exact ⟨h1, h2, h3, h4⟩

/-- What the four round-trip obligations (EcbRoundTrip, CbcRoundTrip, XtsRoundTrip, CtrUndoesItself)
ask of the first and the second command, for every command and class: the second reads the first's
output under the same seed, KEY2 and OFF, and the two schedules are a pair. -/
theorem witness_round_trip (i : Instr) (j : Instr) : ∃ t,
    exec i (vectorState wide seedOne) = .next t ∧ (vectorState wide seedOne).mem.Wf ∧
    Ready j (vectorState back t.mem) ∧ back.src = wide.dst ∧ back.len = wide.len ∧
    back.key1 = wide.key1 ∧ back.key2 = wide.key2 ∧ back.off = wide.off ∧
    seedBlock back t.mem = seedBlock wide seedOne ∧
    (vectorState back t.mem).params.nr = (vectorState wide seedOne).params.nr ∧
    ∀ kc, SchedulePair aes (rounds (vectorState wide seedOne).params kc) seedOne wide.key1.toNat
      t.mem back.key1.toNat := by
  have hr := witness_ready_every_command seedOne i
  refine ⟨_, exec_ready hr, seedOne_wf, ready_back _ _, rfl, rfl, rfl, rfl, rfl,
    kept seedOne_wf (exec_ready hr) 0x2000 (.inl (by decide)), rfl, fun kc => ?_⟩
  have hn : rounds (vectorState wide seedOne).params kc ≤ 14 := by cases kc <;> decide
  refine zero_pair (fun r h => ?_) (fun r h => ?_)
  · exact seedOne_zero _ (by simp only [wide, vectorOperands, BitVec.toNat_ofNat]; omega)
  · have ha : (0x1000 + 16 * r) + 16 ≤ 0x5000 := by omega
    exact (kept seedOne_wf (exec_ready hr) (0x1000 + 16 * r) (.inl ha)).trans
      (seedOne_zero _ (by omega))

/-- CtrKeystreamReuse and OutputIsAFunctionOfTheBytesRead: two states with different memories and
addresses but the same schedule, seed and length; and the second's in-place form. -/
theorem witness_same_inputs :
    Ready (.ctr .k128) (vectorState wide seedOne) ∧ Ready (.ctr .k128) (vectorState back []) ∧
    (vectorState back []).params.nr = (vectorState wide seedOne).params.nr ∧
    seedBlock back [] = seedBlock wide seedOne ∧
    (∀ r, r ≤ rounds (vectorState wide seedOne).params .k128 →
      roundKey [] back.key1.toNat r = roundKey seedOne wide.key1.toNat r) ∧
    (∀ r, r ≤ rounds (vectorState wide seedOne).params .k128 →
      roundKey seedOne wide.key2.toNat r = roundKey [] back.key2.toNat r) ∧
    (∀ k, k < wide.len.toNat →
      Memory.get seedOne (wide.src.toNat + k) = Memory.get [] (back.src.toNat + k)) ∧
    Ready (.ctr .k128) (vectorState { wide with dst := wide.src } seedOne) :=
  ⟨witness_ready_every_command _ _, ready_back _ _, rfl, by decide +kernel, by decide +kernel,
    by decide +kernel, by decide +kernel, issueViolations_nil.1 (by decide +kernel)⟩

/-- CtrPartialBlock, at both ends of its range. -/
theorem witness_partial (m : Memory) :
    Ready (.ctr .k128) (vectorState { vectorOperands with len := 15#64 } m) ∧
    Ready (.ctr .k128) (vectorState { vectorOperands with len := 1#64 } m) := by
  have h1 : Ready (.ctr .k128) (vectorState { vectorOperands with len := 15#64 } []) :=
    issueViolations_nil.1 (by decide +kernel)
  have h2 : Ready (.ctr .k128) (vectorState { vectorOperands with len := 1#64 } []) :=
    issueViolations_nil.1 (by decide +kernel)
  exact ⟨⟨h1.1, h1.2, h1.3, h1.4⟩, ⟨h2.1, h2.2, h2.3, h2.4⟩⟩

/-- DisjointCommandsCommute: the second command reads neither range of the first and writes
elsewhere; both share schedule and seed. -/
theorem witness_disjoint :
    Ready (.cbcEnc .k128) { vectorState wide seedOne with regs := wide } ∧
    Ready (.xtsEnc .k192) { vectorState wide seedOne with
      regs := { wide with src := 0x8000#64, dst := 0x7000#64 } } ∧
    (∀ h ∈ footprint .xts (rounds (vectorState wide seedOne).params .k192) { wide with src := 0x8000#64, dst := 0x7000#64 },
      ¬ ShareByte (outputRegion wide) h) ∧
    (∀ h ∈ footprint .cbc (rounds (vectorState wide seedOne).params .k128) wide,
      ¬ ShareByte (outputRegion { wide with src := 0x8000#64, dst := 0x7000#64 }) h) := by
  simp only [← regionsMeet_iff]
  exact ⟨witness_ready_every_command _ _, issueViolations_nil.1 (by decide +kernel),
    by decide +kernel, by decide +kernel⟩

/-! ### The phases and the invariant -/

/-- A command in flight meets the invariant: EveryCommandTerminates and StepKeepsTheInvariant, and
ResetInFlightLosesTheOutputRange, HostKeepsOffUntilBusyReadsClear, AgentsKeepClearOfTheFootprint with a busy
engine. -/
theorem witness_inv_in_flight (i : Instr) : Inv (issued i wide []) ∧
    (issued i wide []).busy = true := by
  have hr := witness_ready_every_command [] i
  refine ⟨⟨Memory.wf_nil, by simp [issued, vectorState], by simp [issued, issue, setBusy],
    fun _ => rfl, fun _ =>
    ⟨issue_legal hr, ?_, ?_, ?_, ?_, ?_, ?_, ?_⟩⟩, rfl⟩
  · rcases i with kc | kc | kc | kc | kc | kc | kc <;> simp [issued, issue, setBusy, Instr.mode, Instr.dir]
  · intro _ _; rfl
  · intro h; exact absurd rfl h
  · rintro (h | h) <;> cases h
  · intro h; cases h
  · intro h; cases h
  · intro h; cases h

/-- EveryCommandTerminates: no event listed, and three ticks listed before a `wait`. -/
theorem witness_ticks (i : Instr) : (issued i wide []).events = [] ∧
    ({ issued i wide [] with events := [.tick, .tick, .tick, .wait] } : State).events =
      List.replicate 3 .tick ++ [.wait] := ⟨rfl, rfl⟩

/-- OnlyHostWritesAndResetChangeRegisters: a step of each of its three kinds goes on. -/
theorem witness_register_steps :
    (∃ t, step State.reset = .next t) ∧
    (∃ t, step { State.reset with events := [.window (.write 0x30 64 7#64)] } = .next t) ∧
    (∃ t, step { State.reset with events := [.reset] } = .next t) := ⟨⟨_, rfl⟩, ⟨_, rfl⟩, ⟨_, rfl⟩⟩

/-- MemoryChangesOnlyWhereSomeoneWrites: a store that changes a byte, from a state that meets the
invariant. -/
theorem witness_memory_step :
    Inv { State.reset with events := [.store 0x40 [1#8]] } ∧
    ∃ t, step { State.reset with events := [.store 0x40 [1#8]] } = .next t ∧
      t.mem.get 0x40 ≠ State.reset.mem.get 0x40 :=
  ⟨⟨Memory.wf_nil, by simp [State.reset, State.resetWith], by simp [State.reset, State.resetWith],
    fun h => by (cases h), fun h => by (cases h)⟩, _, rfl, by decide⟩

/-- The step of an engine in flight goes on: the hypothesis of StepKeepsTheInvariant. -/
theorem witness_step_in_flight (i : Instr) :
    ∃ t, step (issued i wide []) = .next t := ⟨_, rfl⟩

/-- WaitEndsWithTheCommand. -/
theorem witness_wait (i : Instr) :
    ({ issued i wide [] with events := [.wait, .tick] } : State).events = .wait :: [.tick] ∧
    Inv { issued i wide [] with events := [.wait, .tick] } := by
  obtain ⟨⟨h1, h2, h3, h5, h4⟩, _⟩ := witness_inv_in_flight i
  refine ⟨rfl, h1, h2, h3, h5, fun h => ?_⟩
  obtain ⟨g1, g2, g3, g4, g5, g6, g7, g8⟩ := h4 h
  exact ⟨g1, g2, g3, g4, g5, g6, g7, g8⟩

/-- IssueLatchesAndStarts. -/
theorem witness_issue :
    decode (vectorState wide []).params.xtsDecPresent ((0x0000000B#64 : Word64).setWidth 32) =
      .command (.xtsDec .k128) ∧
    Ready (.xtsDec .k128) (vectorState wide []) :=
  ⟨by decide, witness_ready_every_command _ _⟩

/-- PhaseTransitions: a busy engine in each phase; in TWK_ADV on both sides of `IDX < OFF`, in BLK
before and at the last block. -/
theorem witness_phases :
    let s := issue (.xtsEnc .k128) (vectorState { wide with off := 1#64 } [])
    let w := { s.work with nb := 2#64 }
    s.busy = true ∧ s.phase = .load ∧
    ({ s with phase := .twkEnc } : State).phase = .twkEnc ∧
    ({ s with phase := .twkAdv } : State).work.mode = .xts ∧
    s.work.idx.toNat < s.work.lat.off.toNat ∧
    ¬ ({ w with idx := 1#64 } : Working).idx.toNat < w.lat.off.toNat ∧
    (w.idx + 1#64).toNat < w.nb.toNat ∧
    ¬ (({ w with idx := 1#64 } : Working).idx + 1#64).toNat < w.nb.toNat ∧
    ({ s with phase := .tail } : State).phase = .tail := by decide +kernel

/-! ### The register window, memory and reset -/

/-- RegistersReadBackWhatWasWritten: written registers, and CMD written. -/
theorem witness_written_registers (r : OperandReg) : (vectorState wide []).busy = false ∧
    (vectorState wide []).written.get r = true ∧
    ({ vectorState wide [] with cmdWritten := true } : State).cmdWritten = true := by
  cases r <;> decide

/-- UnwrittenRegistersReadFreeValues and ResetLeavesAFreshEngine. -/
theorem witness_unwritten_registers (r : OperandReg) : State.reset.busy = false ∧
    State.reset.written.get r = false ∧ State.reset.cmdWritten = false := by
  cases r <;> decide

/-- OtherWindowAccessesAreRefused, at its boundaries: width 32 on an operand register, offset 0x3C,
width 64 on CMD, offset 0x48, a misaligned offset. -/
theorem witness_other_accesses : ∀ a ∈ [(0x00, 32), (0x3C, 32), (0x38, 64), (0x48, 64), (0x04, 64),
    (0x40, 32)], ¬ (a.2 = 64 ∧ a.1 % 8 = 0 ∧ (a.1 ≤ 0x30 ∨ a.1 = 0x40)) ∧
      ¬ (a.2 = 32 ∧ a.1 = 0x38) := by decide

/-- AgentsKeepClearOfTheFootprint: the last byte of the output range and the first after it, both
backed, with a command in flight. -/
theorem witness_agents :
    let s := issue (.ctr .k128) (vectorState wide [])
    Valid s.params ⟨0x501F, 1⟩ ∧ Valid s.params ⟨0x5020, 1⟩ ∧
    (∃ g ∈ footprint s.work.mode (rounds s.params s.work.kc) s.work.lat, ShareByte ⟨0x501F, 1⟩ g) ∧
    ¬ (∃ g ∈ footprint s.work.mode (rounds s.params s.work.kc) s.work.lat, ShareByte ⟨0x5020, 1⟩ g) ∧
    ShareByte ⟨0x501F, 1⟩ (outputRegion s.work.lat) ∧
    ¬ ShareByte ⟨0x5020, 1⟩ (outputRegion s.work.lat) := by
  simp only [← regionsMeet_iff, ← regionValid_iff]
  decide +kernel

/-- ResetInFlightLosesTheOutputRange: bytes inside and outside the output range. -/
theorem witness_reset_in_flight :
    let s := issue (.ctr .k128) (vectorState wide [])
    s.mem.Wf ∧ s.busy = true ∧ Inside (outputRegion s.work.lat) 0x501F ∧
      ¬ Inside (outputRegion s.work.lat) 0x5020 := by
  simp only [← inRegion_iff]
  decide +kernel

/-- MemReadAndMemWrite, XorUnitLaws: lengths at the ends of their ranges. -/
theorem witness_lengths : (memWrite [] 0x10 [1#8]).Wf ∧
    (memRead (memWrite [] 0x10 [1#8]) 0x0F 3) = [0#8, 1#8, 0#8] ∧
    xorn (toBe128 1) (toBe128 1) 16 = List.replicate 16 0#8 := by decide +kernel

/-- GeneratorSchedulesArePairs: a raw key of each of the three sizes, both its schedules laid out in
memory by the generator, and so the hypotheses on both. -/
theorem witness_generator (kc : KeyClass) :
    let nr := rounds Config.Params.default kc
    let key : List Byte := List.replicate (4 * keyWords kc) 0#8
    key.length = 4 * keyWords kc ∧
    (∀ r, r ≤ nr → roundKey (storeSchedule nr 0x1000 (encryptionKey kc key) []) 0x1000 r =
      encryptionKey kc key r) ∧
    (∀ r, r ≤ nr → roundKey (storeSchedule nr 0x1100 (decryptionKey kc nr key) []) 0x1100 r =
      decryptionKey kc nr key r) :=
  ⟨List.length_replicate, fun _ h => roundKey_storeSchedule Memory.wf_nil h,
    fun _ h => roundKey_storeSchedule Memory.wf_nil h⟩

/-- RoundPrimitivesAndTheirRelations: a state and key that InvLastRound under the same key does not
restore. -/
theorem witness_last_round :
    aes.invLastRound (aes.lastRound zeroBlock (toBe128 1)) (toBe128 1) ≠ zeroBlock := by
  decide +kernel

/-! ### Host notation (30_encoding R89, R90) -/

/-- `CTR.192 0x1000, 0x2000, 0x3000, 0x5000, 5` expands to its register writes at their offsets, the
32-bit write of 0x12 to CMD, and the wait. -/
theorem test_host_call : callCtr .k192 0x1000 0x2000 0x3000 0x5000 5 =
    [.window (.write 0x18 64 0x1000), .window (.write 0x28 64 0x2000),
     .window (.write 0x00 64 0x3000), .window (.write 0x08 64 0x5000),
     .window (.write 0x10 64 5), .window (.write 0x38 32 0x12), .wait] := by decide

end Sys2Proof.Tests
end

section
/-! PROOFS. Termination of the commands (60_exceptions R235, 00_scope R14), by a bound on the phase
actions left, and the byte orders of the counter (00_scope R10, 41_arith_units R122 to R124). -/

namespace Sys2Proof.Machine

open Sys2Proof.Config (RoundPrims)
open Sys2Proof.Safety

/-! ## Blocks and integers -/

/-- Byte `i` of a little-endian integer is byte `i` of its sequence (00_scope R10). -/
theorem leNat_byte (bs : List Byte) (i : Nat) (h : i < bs.length) :
    BitVec.ofNat 8 (leNat bs / 256 ^ i) = bs[i] := by
  induction bs generalizing i with
  | nil => cases h
  | cons b t ih =>
    have hb := b.isLt
    have hcons : leNat (b :: t) = b.toNat + 256 * leNat t := rfl
    cases i with
    | zero =>
      apply BitVec.eq_of_toNat_eq
      simp only [hcons, BitVec.toNat_ofNat, List.getElem_cons_zero]
      omega
    | succ i =>
      have hshift : leNat (b :: t) / 256 = leNat t := by omega
      rw [Nat.pow_succ', ← Nat.div_div_eq_div_mul, hshift]
      exact ih i (Nat.lt_of_succ_lt_succ h)

/-- The first `n` little-endian bytes of an integer stand for it modulo `256 ^ n`. -/
theorem leNat_ofFn (n v : Nat) :
    leNat (List.ofFn fun i : Fin n => BitVec.ofNat 8 (v / 256 ^ i.val)) = v % 256 ^ n := by
  induction n generalizing v with
  | zero => simp [leNat, Nat.mod_one]
  | succ n ih =>
    have hshift : ∀ i : Fin n, v / 256 ^ (i.val + 1) = v / 256 / 256 ^ i.val := fun i => by
      rw [Nat.pow_succ', Nat.div_div_eq_div_mul]
    have htail := ih (v / 256)
    simp only [List.ofFn_succ, Fin.val_succ, Fin.val_zero, hshift, Nat.pow_zero, Nat.div_one]
    rw [Nat.pow_succ', Nat.mod_mul, ← htail]
    rfl

theorem toLe128_le128 (b : Block) : toLe128 (le128 b) = b := by
  refine Vector.ext fun i h => ?_
  rw [toLe128, Vector.getElem_ofFn]
  exact leNat_byte b.toList i (by simpa using h)

theorem le128_toLe128 {v : Nat} (h : v < 2 ^ 128) : le128 (toLe128 v) = v := by
  rw [le128, toLe128, Vector.toList_ofFn, leNat_ofFn]
  exact Nat.mod_eq_of_lt h

theorem rev16_getElem (b : Block) (i : Nat) (h : i < 16) : (rev16 b)[i] = b[15 - i] := by
  simp [rev16]

/-- The byte swap undoes itself (41_arith_units R122). -/
@[simp] theorem rev16_rev16 (b : Block) : rev16 (rev16 b) = b := by
  refine Vector.ext fun i h => ?_
  rw [rev16_getElem _ i h, rev16_getElem _ (15 - i) (by omega)]
  congr 1
  omega

theorem be128_lt (b : Block) : be128 b < 2 ^ 128 := le128_rev16 b ▸ le128_lt (rev16 b)

theorem toBe128_be128 (b : Block) : toBe128 (be128 b) = b := by
  rw [← le128_rev16, ← rev16_toLe128, toLe128_le128, rev16_rev16]

theorem be128_toBe128 {v : Nat} (h : v < 2 ^ 128) : be128 (toBe128 v) = v := by
  rw [← rev16_toLe128, ← le128_rev16, rev16_rev16, le128_toLe128 h]

/-- The two swaps of the counter cancel (41_arith_units R123). -/
theorem toWire_toArith (b : Block) : toWire (toArith b) = b := by
  rw [toWire_eq, toArith_value, toBe128_be128]

/-- Settles O53: the byte swap turns each big-endian conversion into the little-endian one, whose two
directions are inverse byte by byte. -/
theorem counterFormatsAreBigEndian : Obligations.CounterFormatsAreBigEndian :=
  ⟨fun b => ⟨rev16_getElem b, rev16_rev16 b, le128_rev16 b, toArith_value b, be128_lt b,
      toBe128_be128 b, toLe128_le128 b, toWire_toArith b⟩,
    toWire_eq,
    fun _ h => ⟨be128_toBe128 h, le128_toLe128 h⟩⟩

/-! ## The phase actions left -/

/-- How many phase actions the phase of a command leaves it at most (10_state R30): at LOAD the counts
are those of the latched operands, afterwards those of the working registers. -/
def actionsLeft (s : State) : Nat :=
  match s.phase with
  | .idle => 0
  | .load => s.work.lat.off.toNat + s.work.lat.len.toNat / 16 + 4
  | .twkEnc => s.work.lat.off.toNat + s.work.nb.toNat + 3
  | .twkAdv => s.work.lat.off.toNat - s.work.idx.toNat + s.work.nb.toNat + 2
  | .blk => s.work.nb.toNat - s.work.idx.toNat + 1
  | .tail => 1

/-- At most `n` phase actions are left, and what of the invariant keeps that true: BUSY against PHASE,
and IDX within the blocks. -/
structure EndsWithin (n : Nat) (s : State) : Prop where
  idle   : s.busy = false ↔ s.phase = .idle
  blocks : s.phase = .blk → s.work.idx.toNat < s.work.nb.toNat
  left   : actionsLeft s ≤ n

theorem EndsWithin.mono {m n : Nat} {s : State} (h : EndsWithin m s) (hmn : m ≤ n) :
    EndsWithin n s := ⟨h.idle, h.blocks, h.left.trans hmn⟩

/-- Only IDLE leaves no action. -/
theorem EndsWithin.phase_idle {s : State} (h : EndsWithin 0 s) : s.phase = .idle := by
  have hl := h.left
  cases hp : s.phase <;> simp [actionsLeft, hp] at hl ⊢

theorem complete_endsWithin (s : State) : EndsWithin 0 (complete s) := by
  constructor <;> simp [actionsLeft]

/-- After the last full block, TAIL is left at most. -/
theorem enterTail_endsWithin {s : State} (hb : s.busy = true) : EndsWithin 1 (enterTail s) := by
  unfold enterTail
  split
  · constructor <;> simp [actionsLeft, hb]
  · exact (complete_endsWithin s).mono (Nat.zero_le 1)

/-- Before the first full block, all NB of them and TAIL are left at most. -/
theorem enterBlocks_endsWithin {s : State} (hb : s.busy = true) (hi : s.work.idx = 0#64) :
    EndsWithin (s.work.nb.toNat + 1) (enterBlocks s) := by
  unfold enterBlocks
  split
  · next hn =>
    have hpos : 0 < s.work.nb.toNat := Nat.pos_of_ne_zero fun h0 => hn (BitVec.eq_of_toNat_eq h0)
    constructor <;> simp [actionsLeft, hb, hi, hpos]
  · exact (enterTail_endsWithin hb).mono (Nat.le_add_left 1 _)

/-- IDX below a count does not wrap when it advances. -/
theorem idx_advances {idx n : Word64} (h : idx.toNat < n.toNat) :
    (idx + 1#64).toNat = idx.toNat + 1 := by
  have := n.isLt
  rw [BitVec.toNat_add]
  simp only [BitVec.toNat_ofNat]
  omega

@[simp] theorem blockStep_idx (P : RoundPrims) (s : State) :
    (blockStep P s).work.idx = s.work.idx + 1#64 := by
  unfold blockStep
  split
  · exact (ecbEncBlock_effect P s).idx
  · exact (ecbDecBlock_effect P s).idx
  · exact (cbcEncBlock_effect P s).idx
  · exact (cbcDecBlock_effect P s).idx
  · exact (ctrBlock_effect P s).idx
  · exact (xtsEncBlock_effect P s).idx
  · exact (xtsDecBlock_effect P s).idx

/-- LOAD leaves OFF + NB + 3 actions at most, NB being `LEN div 16` of the latch. -/
theorem load_endsWithin {s : State} (hb : s.busy = true) :
    EndsWithin (s.work.lat.off.toNat + s.work.lat.len.toNat / 16 + 3) (afterLoad (loadPhase s)) := by
  have hnb : (loadPhase s).work.nb.toNat = s.work.lat.len.toNat / 16 := by
    have := s.work.lat.len.isLt
    rw [loadPhase_work_nb, BitVec.toNat_ofNat]
    omega
  unfold afterLoad
  split
  · constructor <;> simp [actionsLeft, hb, -loadPhase_work_nb, hnb]
  · exact (enterBlocks_endsWithin (by simpa using hb) (by simp)).mono (by omega)

/-- TWK_ENC leaves OFF doublings, the action that ends them, the blocks, and TAIL at most. -/
theorem tweakEncryptPhase_endsWithin (P : RoundPrims) {s : State} (hb : s.busy = true) :
    EndsWithin (s.work.lat.off.toNat + s.work.nb.toNat + 2) (tweakEncryptPhase P s) := by
  have hc := tweakEncrypt_control P s
  have hidx : (tweakEncrypt P s).work.idx = 0#64 := by simp [tweakEncrypt]
  constructor <;> simp [tweakEncryptPhase, actionsLeft, hc.busy, hc.lat, hc.nb, hidx, hb]

/-- TWK_ADV takes one doubling off those left, or goes on to the blocks. -/
theorem tweakAdvancePhase_endsWithin {s : State} (hb : s.busy = true) (hp : s.phase = .twkAdv) :
    EndsWithin (s.work.lat.off.toNat - s.work.idx.toNat + s.work.nb.toNat + 1)
      (tweakAdvancePhase s) := by
  unfold tweakAdvancePhase
  split
  · next hlt =>
    have hc := tweakAdvance_control s
    have hlt' := BitVec.lt_def.mp hlt
    have hidx : (tweakAdvance s).work.idx.toNat = s.work.idx.toNat + 1 := by
      rw [← idx_advances hlt']
      simp [tweakAdvance]
    constructor
    · simp [hc.busy, hc.phase, hb, hp]
    · simp [hc.phase, hp]
    · simp only [actionsLeft, hc.phase, hp, hc.lat, hc.nb, hidx]
      omega
  · have := enterBlocks_endsWithin (s := clearIndex s) (by simpa using hb) (by simp)
    exact this.mono (by simp)

/-- BLK takes one block off those left. -/
theorem block_endsWithin (P : RoundPrims) {s : State} (hb : s.busy = true) (hp : s.phase = .blk)
    (hlt : s.work.idx.toNat < s.work.nb.toNat) :
    EndsWithin (s.work.nb.toNat - s.work.idx.toNat) (afterBlock (blockStep P s)) := by
  have hc := blockStep_control P s
  have hidx : (blockStep P s).work.idx.toNat = s.work.idx.toNat + 1 := by
    rw [blockStep_idx, idx_advances hlt]
  unfold afterBlock
  split
  · next hmore =>
    have hmore' := BitVec.lt_def.mp hmore
    refine ⟨by simp [hc.busy, hc.phase, hb, hp], fun _ => hmore', ?_⟩
    simp only [actionsLeft, hc.phase, hp, hc.nb, hidx]
    omega
  · exact (enterTail_endsWithin (hc.busy.trans hb)).mono (by omega)

/-- Every phase action takes one off the actions left, until the engine is idle (60_exceptions R235). -/
theorem phaseAction_endsWithin (P : RoundPrims) {n : Nat} {s : State} (h : EndsWithin (n + 1) s) :
    EndsWithin n (phaseAction P s) := by
  obtain ⟨hidle, hblocks, hleft⟩ := h
  have hbusy : s.phase ≠ .idle → s.busy = true := fun hp => by simpa using mt hidle.1 hp
  unfold phaseAction
  cases hp : s.phase <;> simp only [actionsLeft, hp] at hleft ⊢
  case idle => exact ⟨hidle, hblocks, by simp [actionsLeft, hp]⟩
  case load => exact (load_endsWithin (hbusy (by simp [hp]))).mono (by omega)
  case twkEnc => exact (tweakEncryptPhase_endsWithin P (hbusy (by simp [hp]))).mono (by omega)
  case twkAdv => exact (tweakAdvancePhase_endsWithin (hbusy (by simp [hp])) hp).mono (by omega)
  case blk => exact (block_endsWithin P (hbusy (by simp [hp])) hp (hblocks hp)).mono (by omega)
  case tail => exact (complete_endsWithin _).mono (Nat.zero_le n)

/-- So `n` phase actions end a command that has at most `n` left. -/
theorem iterate_endsWithin (P : RoundPrims) {n : Nat} {s : State} (h : EndsWithin n s) :
    EndsWithin 0 ((phaseAction P)^[n] s) := by
  induction n generalizing s with
  | zero => exact h
  | succ n ih => exact ih (phaseAction_endsWithin P h)

/-- From a state of the invariant OFF + NB + 4 phase actions end the command. -/
theorem inv_endsWithin {s : State} (h : Inv s) :
    EndsWithin (s.work.lat.off.toNat + s.work.lat.len.toNat / 16 + 4) s := by
  have hflight : s.phase ≠ .idle → InFlight s := fun hp => h.flight (by simpa using mt h.idle.1 hp)
  refine ⟨h.idle, fun hp => (hflight (by simp [hp])).blocks hp, ?_⟩
  have hnb : s.phase ≠ .idle → s.phase ≠ .load → s.work.nb.toNat = s.work.lat.len.toNat / 16 :=
    fun hi hl => ((hflight hi).counts hl).1
  cases hp : s.phase <;> simp only [actionsLeft, hp]
  case idle | load | tail => omega
  case twkEnc | twkAdv | blk =>
    have := hnb (by simp [hp]) (by simp [hp])
    omega

/-! ## Steps that are phase actions -/

/-- The state with another list of events. -/
def withEvents (ev : List Event) (s : State) : State := { s with events := ev }

/-- A phase action is the same whatever events are listed, and leaves them. -/
theorem engineTick_withEvents (ev : List Event) : Function.Commute engineTick (withEvents ev) := by
  intro s
  have hblind := phaseAction_blind aes s.unread ev s.reply s
  have hself := phaseAction_around aes s
  calc engineTick (withEvents ev s)
      = around s.unread ev s.reply (engineTick s) := hblind
    _ = withEvents ev (around s.unread s.events s.reply (engineTick s)) := rfl
    _ = withEvents ev (engineTick s) := congrArg (withEvents ev) hself.symm

theorem step_of_no_event {s : State} (h : s.events = []) : step s = .next (engineTick s) := by
  simp only [step, stepOf, h, hardware]

theorem step_of_tick {s : State} {rest : List Event} (h : s.events = .tick :: rest) :
    step s = .next (engineTick (withEvents rest s)) := by
  simp only [step, stepOf, h, runEvent, hardware, withEvents]

theorem run_succ {s t : State} (h : step s = .next t) (n : Nat) :
    core.run (n + 1) s = core.run n t := by
  have hcore : core.step s = .next t := h
  simp only [Host.Core.run, hcore]

/-- With no event listed the machine takes phase actions (60_exceptions R235; log entry 18). -/
theorem run_of_no_event {s : State} (h : s.events = []) (n : Nat) :
    core.run n s = .next (engineTick^[n] s) := by
  induction n generalizing s with
  | zero => rfl
  | succ n ih =>
    rw [run_succ (step_of_no_event h), ih (by simpa using h), Function.iterate_succ_apply]

/-- Listed ticks are phase actions too, with no STATUS read. -/
theorem run_of_ticks {s : State} {n : Nat} {rest : List Event}
    (h : s.events = List.replicate n .tick ++ rest) :
    core.run n s = .next (withEvents rest (engineTick^[n] s)) := by
  induction n generalizing s with
  | zero =>
    obtain rfl : s.events = rest := h
    rfl
  | succ n ih =>
    rw [run_succ (step_of_tick h), engineTick_withEvents, ih rfl,
      (engineTick_withEvents _).iterate_left n, Function.iterate_succ_apply]
    rfl

/-- Settles O35: OFF + NB + 4 phase actions leave none, and the steps with no event and the listed
ticks are the phase actions. -/
theorem everyCommandTerminates : Obligations.EveryCommandTerminates := by
  refine ⟨fun s hinv => ?_, fun s n rest h => run_of_ticks h⟩
  have hend := iterate_endsWithin aes (inv_endsWithin hinv)
  exact ⟨_, le_rfl, hend.idle.2 hend.phase_idle, hend.phase_idle, fun h => run_of_no_event h _⟩

end Sys2Proof.Machine
end

section
/-! PROOFS. The registers and the host's window (10_state R22 to R38, 60_exceptions R236): what the
commands, the phase actions and the steps leave of them, and what each window access answers. -/

namespace Sys2Proof.Machine

open Sys2Proof.Config (RoundPrims)
open Sys2Proof.Safety

/-! ## What a command leaves alone -/

/-- Settles O14: issue, LOAD and body leave the registers and the surroundings, and completion ends
idle. -/
theorem commandsKeepRegistersAndEndIdle : Obligations.CommandsKeepRegistersAndEndIdle := by
  intro i s t h
  obtain ⟨_, rfl⟩ := exec_next h
  have hc := bodyOf_control aes i (loadPhase (issue i s))
  simp [hc.params, hc.regs, hc.written, hc.cmd, hc.cmdWritten, hc.unread, hc.events, hc.reply, hc.free]

/-- The working registers of 10_state R29 that belong to one mode are the same in `t` as in `s`, but
for those of mode `m`. -/
structure SameOtherModes (m : Mode) (s t : State) : Prop where
  fb  : m ≠ .cbc → t.work.fb = s.work.fb
  cnt : m ≠ .ctr → t.work.cnt = s.work.cnt
  ksb : m ≠ .ctr → t.work.ksb = s.work.ksb
  pb  : m ≠ .ctr → t.work.pb = s.work.pb
  tw  : m ≠ .xts → t.work.tw = s.work.tw

namespace SameOtherModes

variable {m : Mode} {s t u : State}

theorem refl (m : Mode) (s : State) : SameOtherModes m s s := by constructor <;> exact fun _ => rfl

theorem trans (h : SameOtherModes m s t) (g : SameOtherModes m t u) : SameOtherModes m s u where
  fb hm := (g.fb hm).trans (h.fb hm)
  cnt hm := (g.cnt hm).trans (h.cnt hm)
  ksb hm := (g.ksb hm).trans (h.ksb hm)
  pb hm := (g.pb hm).trans (h.pb hm)
  tw hm := (g.tw hm).trans (h.tw hm)

theorem iterate {f : State → State} (h : ∀ s, SameOtherModes m s (f s)) (n : Nat) (s : State) :
    SameOtherModes m s (f^[n] s) := by
  induction n generalizing s with
  | zero => exact .refl m s
  | succ n ih => exact (h s).trans (ih (f s))

end SameOtherModes

theorem issue_sameOtherModes (i : Instr) (m : Mode) (s : State) : SameOtherModes m s (issue i s) := by
  constructor <;> simp

/-- LOAD reads the seed into the register of its own mode (10_state R30). -/
theorem loadPhase_sameOtherModes (s : State) : SameOtherModes s.work.mode s (loadPhase s) := by
  cases hm : s.work.mode <;> constructor <;> simp [loadPhase, loadSeed, hm]

theorem ctrBody_sameOtherModes (P : RoundPrims) (s : State) :
    SameOtherModes .ctr s (ctrBody P s) := by
  have hblock : ∀ s, SameOtherModes .ctr s (ctrBlock P s) := fun s => by
    constructor <;> simp [ctrBlock, keystream]
  have hrem : ∀ s, SameOtherModes .ctr s (ctrRemainder P s) := fun s => by
    unfold ctrRemainder
    split
    · constructor <;> simp [ctrTail, keystream]
    · exact .refl .ctr s
  exact (SameOtherModes.iterate hblock _ s).trans (hrem _)

theorem tweakPhases_sameOtherModes (P : RoundPrims) (s : State) :
    SameOtherModes .xts s (tweakPhases P s) := by
  have hencrypt : SameOtherModes .xts s (tweakEncrypt P s) := by constructor <;> simp [tweakEncrypt]
  have hadvance : ∀ s, SameOtherModes .xts s (tweakAdvance s) := fun s => by
    constructor <;> simp [tweakAdvance]
  have hclear : ∀ s, SameOtherModes .xts s (clearIndex s) := fun s => by constructor <;> simp
  exact hencrypt.trans ((SameOtherModes.iterate hadvance _ _).trans (hclear _))

/-- A body writes the working registers of its own mode (10_state R29). -/
theorem bodyOf_sameOtherModes (P : RoundPrims) (i : Instr) (s : State) :
    SameOtherModes i.mode s (bodyOf P i s) := by
  cases i with
  | ecbEnc => exact .iterate (fun s => by constructor <;> simp [ecbEncBlock]) _ s
  | ecbDec => exact .iterate (fun s => by constructor <;> simp [ecbDecBlock]) _ s
  | cbcEnc => exact .iterate (fun s => by constructor <;> simp [cbcEncBlock, Instr.mode]) _ s
  | cbcDec => exact .iterate (fun s => by constructor <;> simp [cbcDecBlock, Instr.mode]) _ s
  | ctr => exact ctrBody_sameOtherModes P s
  | xtsEnc =>
    exact (tweakPhases_sameOtherModes P s).trans
      (.iterate (fun s => by constructor <;> simp [xtsEncBlock]) _ _)
  | xtsDec =>
    exact (tweakPhases_sameOtherModes P s).trans
      (.iterate (fun s => by constructor <;> simp [xtsDecBlock]) _ _)

/-- Settles O15: the body leaves LAT, the decoded word and the counts that issue and LOAD set, and of the
other working registers writes those of its mode. -/
theorem commandsUseOnlyTheirWorkingRegisters :
    Obligations.CommandsUseOnlyTheirWorkingRegisters := by
  intro i s t h
  obtain ⟨_, rfl⟩ := exec_next h
  have hc := bodyOf_control aes i (loadPhase (issue i s))
  have hload : SameOtherModes i.mode (issue i s) (loadPhase (issue i s)) := by
    simpa using loadPhase_sameOtherModes (issue i s)
  have hsame : SameOtherModes i.mode s (bodyOf aes i (loadPhase (issue i s))) :=
    ((issue_sameOtherModes i i.mode s).trans hload).trans (bodyOf_sameOtherModes aes i _)
  rw [complete_work]
  refine ⟨fun r => ?_, ?_, ?_, ?_, ?_, ?_, hsame.fb,
    fun hm => ⟨hsame.cnt hm, hsame.ksb hm, hsame.pb hm⟩, hsame.tw⟩
  · rw [hc.lat, loadPhase_work_lat, issue_work]
    exact get_latchListed _ _ _ r
  · simp [hc.mode]
  · simp [hc.dir]
  · simp [hc.kc]
  · rw [hc.nb]
    exact start_nb i s
  · rw [hc.rem]
    exact start_rem i s

/-! ## What follows a phase action -/

@[simp] theorem enterTail_work (s : State) : (enterTail s).work = s.work := by
  unfold enterTail; split <;> rfl

@[simp] theorem enterTail_mem (s : State) : (enterTail s).mem = s.mem := by
  unfold enterTail; split <;> rfl

theorem enterTail_phase (s : State) :
    (enterTail s).phase = if s.work.mode = .ctr ∧ s.work.rem ≠ 0#4 then .tail else .idle := by
  unfold enterTail; split <;> rfl

@[simp] theorem enterBlocks_work (s : State) : (enterBlocks s).work = s.work := by
  unfold enterBlocks; split
  · rfl
  · exact enterTail_work s

@[simp] theorem enterBlocks_mem (s : State) : (enterBlocks s).mem = s.mem := by
  unfold enterBlocks; split
  · rfl
  · exact enterTail_mem s

theorem enterBlocks_phase (s : State) :
    (enterBlocks s).phase = if s.work.nb ≠ 0#64 then .blk
      else if s.work.mode = .ctr ∧ s.work.rem ≠ 0#4 then .tail else .idle := by
  unfold enterBlocks; split
  · rfl
  · exact enterTail_phase s

@[simp] theorem afterLoad_work (s : State) : (afterLoad s).work = s.work := by
  unfold afterLoad; split
  · rfl
  · exact enterBlocks_work s

@[simp] theorem afterLoad_mem (s : State) : (afterLoad s).mem = s.mem := by
  unfold afterLoad; split
  · rfl
  · exact enterBlocks_mem s

theorem afterLoad_phase (s : State) :
    (afterLoad s).phase = if s.work.mode = .xts then .twkEnc
      else if s.work.nb ≠ 0#64 then .blk
      else if s.work.mode = .ctr ∧ s.work.rem ≠ 0#4 then .tail else .idle := by
  unfold afterLoad; split
  · rfl
  · exact enterBlocks_phase s

@[simp] theorem afterBlock_work (s : State) : (afterBlock s).work = s.work := by
  unfold afterBlock; split
  · rfl
  · exact enterTail_work s

@[simp] theorem afterBlock_mem (s : State) : (afterBlock s).mem = s.mem := by
  unfold afterBlock; split
  · rfl
  · exact enterTail_mem s

theorem afterBlock_phase (s : State) :
    (afterBlock s).phase = if s.work.idx.toNat < s.work.nb.toNat then s.phase
      else if s.work.mode = .ctr ∧ s.work.rem ≠ 0#4 then .tail else .idle := by
  unfold afterBlock
  simp only [BitVec.lt_def]
  split
  · rfl
  · exact enterTail_phase s

/-! ## The block step in flight -/

/-- A block step writes one block at IDX of the output range and advances IDX. -/
theorem blockStep_effect (P : RoundPrims) (s : State) : ∃ y, BlockEffect s (blockStep P s) y := by
  unfold blockStep
  split
  · exact ⟨_, ecbEncBlock_effect P s⟩
  · exact ⟨_, ecbDecBlock_effect P s⟩
  · exact ⟨_, cbcEncBlock_effect P s⟩
  · exact ⟨_, cbcDecBlock_effect P s⟩
  · exact ⟨_, ctrBlock_effect P s⟩
  · exact ⟨_, xtsEncBlock_effect P s⟩
  · exact ⟨_, xtsDecBlock_effect P s⟩

/-- A block step uses the data schedule (40_block_core R108). -/
theorem blockStep_ksel (P : RoundPrims) (s : State) : (blockStep P s).work.ksel = .data := by
  unfold blockStep
  split
  · simp [ecbEncBlock]
  · simp [ecbDecBlock]
  · simp [cbcEncBlock]
  · simp [cbcDecBlock]
  · simp [ctrBlock, keystream]
  · simp [xtsEncBlock]
  · simp [xtsDecBlock]

theorem blockStep_mem_get_outside (P : RoundPrims) {s : State} (hw : s.mem.Wf) {a : Nat}
    (ha : ¬ (blockAddr s.work.lat.dst s.work.idx ≤ a ∧
      a < blockAddr s.work.lat.dst s.work.idx + 16)) :
    (blockStep P s).mem.get a = s.mem.get a := by
  obtain ⟨y, hy⟩ := blockStep_effect P s
  rw [hy.mem, get_writeBlock_outside hw y ha]

/-! ## The transition table (10_state R30) -/

section Transitions

variable {s : State}

theorem engineTick_load (hp : s.phase = .load) : engineTick s = afterLoad (loadPhase s) := by
  simp only [engineTick, phaseAction, hp]

theorem engineTick_twkEnc (hp : s.phase = .twkEnc) : engineTick s = tweakEncryptPhase aes s := by
  simp only [engineTick, phaseAction, hp]

theorem engineTick_twkAdv (hp : s.phase = .twkAdv) : engineTick s = tweakAdvancePhase s := by
  simp only [engineTick, phaseAction, hp]

theorem engineTick_blk (hp : s.phase = .blk) :
    engineTick s = afterBlock (blockStep aes s) := by
  simp only [engineTick, phaseAction, hp]

theorem engineTick_tail (hp : s.phase = .tail) : engineTick s = complete (ctrTail aes s) := by
  simp only [engineTick, phaseAction, hp]

/-- NB after LOAD: a 64-bit length over 16 fits its register. -/
theorem loadPhase_nb_toNat (s : State) :
    (loadPhase s).work.nb.toNat = s.work.lat.len.toNat / 16 := by
  have := s.work.lat.len.isLt
  rw [loadPhase_work_nb, BitVec.toNat_ofNat]
  omega

theorem loadPhase_rem_toNat (s : State) :
    (loadPhase s).work.rem.toNat = s.work.lat.len.toNat % 16 := by
  rw [loadPhase_work_rem, BitVec.toNat_ofNat]
  omega

/-- There is a full block when the length holds one. -/
theorem loadPhase_nb_ne_zero (s : State) :
    (loadPhase s).work.nb ≠ 0#64 ↔ 16 ≤ s.work.lat.len.toNat := by
  rw [ne_eq, ← BitVec.toNat_inj, loadPhase_nb_toNat, BitVec.toNat_ofNat]
  omega

theorem loadPhase_rem_ne_zero (s : State) :
    (loadPhase s).work.rem ≠ 0#4 ↔ s.work.lat.len.toNat % 16 ≠ 0 := by
  rw [ne_eq, ← BitVec.toNat_inj, loadPhase_rem_toNat]
  simp

theorem load_phase_after (s : State) :
    (afterLoad (loadPhase s)).phase = if s.work.mode = .xts then .twkEnc
      else if 16 ≤ s.work.lat.len.toNat then .blk
      else if s.work.mode = .ctr ∧ s.work.lat.len.toNat % 16 ≠ 0 then .tail else .idle := by
  simp only [afterLoad_phase, loadPhase_work_mode, loadPhase_nb_ne_zero, loadPhase_rem_ne_zero]

/-- TWK_ADV in an XTS command: one doubling while IDX < LAT.OFF, else on with IDX back at 0. -/
theorem tweakAdvancePhase_spec (hp : s.phase = .twkAdv) (hm : s.work.mode = .xts) :
    (tweakAdvancePhase s).mem = s.mem ∧
    if s.work.idx.toNat < s.work.lat.off.toNat then
      (tweakAdvancePhase s).work.tw = dbl s.work.tw ∧
      (tweakAdvancePhase s).work.idx = s.work.idx + 1#64 ∧ (tweakAdvancePhase s).phase = .twkAdv
    else
      (tweakAdvancePhase s).work.tw = s.work.tw ∧ (tweakAdvancePhase s).work.idx = 0#64 ∧
      (tweakAdvancePhase s).phase = if s.work.nb = 0#64 then .idle else .blk := by
  unfold tweakAdvancePhase
  simp only [BitVec.lt_def]
  split
  · simp [tweakAdvance, hp]
  · simp [enterBlocks_phase, hm]

/-- BUSY is cleared on the way to IDLE and only there. -/
theorem engineTick_idle_iff (hb : s.busy = true) (hp : s.phase ≠ .idle) :
    (engineTick s).busy = false ↔ (engineTick s).phase = .idle := by
  cases hph : s.phase with
  | idle => exact absurd hph hp
  | load => exact engineTick_load hph ▸ (load_endsWithin hb).idle
  | twkEnc => exact engineTick_twkEnc hph ▸ (tweakEncryptPhase_endsWithin aes hb).idle
  | twkAdv => exact engineTick_twkAdv hph ▸ (tweakAdvancePhase_endsWithin hb hph).idle
  | blk =>
    have hc := blockStep_control aes s
    rw [engineTick_blk hph]
    unfold afterBlock
    split
    · simp [hc.busy, hc.phase, hb, hph]
    · exact (enterTail_endsWithin (hc.busy.trans hb)).idle
  | tail => simp [engineTick_tail hph]

end Transitions

/-- Settles O41, phase by phase: engineTick's equation for the phase, then what its action leaves. -/
theorem phaseTransitions : Obligations.PhaseTransitions := by
  intro s hb
  refine ⟨fun hp => ?_, fun hp => ?_, fun hp hm => ?_, fun hp => ?_, fun hp => ?_,
    engineTick_idle_iff hb⟩
  · rw [engineTick_load hp, afterLoad_work]
    exact ⟨loadPhase_nb_toNat s, loadPhase_rem_toNat s, loadPhase_work_idx s, by simp,
      load_phase_after s⟩
  · rw [engineTick_twkEnc hp]
    simp [tweakEncryptPhase, tweakEncrypt, selectedSchedule, blockOp]
  · rw [engineTick_twkAdv hp]
    exact tweakAdvancePhase_spec hp hm
  · have hc := blockStep_control aes s
    rw [engineTick_blk hp, afterBlock_work, afterBlock_mem, afterBlock_phase]
    refine ⟨blockStep_idx aes s, blockStep_ksel aes s,
      fun a hw ha => blockStep_mem_get_outside aes hw ha, ?_⟩
    rw [blockStep_idx, hc.nb, hc.mode, hc.rem, hc.phase, hp]
  · rw [engineTick_tail hp]
    simp [ctrTail, keystream]

/-! ## Which steps change a register -/

/-- The parameters, the operand registers and their written marks of `t` are those of `s`. -/
structure SameRegisters (s t : State) : Prop where
  params  : t.params = s.params
  regs    : t.regs = s.regs
  written : t.written = s.written

theorem SameRegisters.trans {s t u : State} (h : SameRegisters s t) (g : SameRegisters t u) :
    SameRegisters s u :=
  ⟨g.params.trans h.params, g.regs.trans h.regs, g.written.trans h.written⟩

theorem SameControl.registers {s t : State} (h : SameControl s t) : SameRegisters s t :=
  ⟨h.params, h.regs, h.written⟩

theorem complete_registers (s : State) : SameRegisters s (complete s) := ⟨rfl, rfl, rfl⟩

theorem enterTail_registers (s : State) : SameRegisters s (enterTail s) := by
  unfold enterTail; split
  · exact ⟨rfl, rfl, rfl⟩
  · exact complete_registers s

theorem enterBlocks_registers (s : State) : SameRegisters s (enterBlocks s) := by
  unfold enterBlocks; split
  · exact ⟨rfl, rfl, rfl⟩
  · exact enterTail_registers s

theorem afterLoad_registers (s : State) : SameRegisters s (afterLoad s) := by
  unfold afterLoad; split
  · exact ⟨rfl, rfl, rfl⟩
  · exact enterBlocks_registers s

theorem tweakAdvancePhase_registers (s : State) : SameRegisters s (tweakAdvancePhase s) := by
  unfold tweakAdvancePhase; split
  · exact (tweakAdvance_control s).registers
  · exact (clearIndex_control s).registers.trans (enterBlocks_registers _)

theorem afterBlock_registers (s : State) : SameRegisters s (afterBlock s) := by
  unfold afterBlock; split
  · exact ⟨rfl, rfl, rfl⟩
  · exact enterTail_registers s

/-- No phase action touches a register (10_state R24). -/
theorem engineTick_registers (s : State) : SameRegisters s (engineTick s) := by
  cases hp : s.phase with
  | idle => simp only [engineTick, phaseAction, hp]; exact ⟨rfl, rfl, rfl⟩
  | load =>
    have hload : SameRegisters s (loadPhase s) := by constructor <;> simp
    exact engineTick_load hp ▸ hload.trans (afterLoad_registers _)
  | twkEnc =>
    have hc := (tweakEncrypt_control aes s).registers
    exact engineTick_twkEnc hp ▸ ⟨hc.params, hc.regs, hc.written⟩
  | twkAdv => exact engineTick_twkAdv hp ▸ tweakAdvancePhase_registers s
  | blk =>
    exact engineTick_blk hp ▸ (blockStep_control aes s).registers.trans (afterBlock_registers _)
  | tail =>
    exact engineTick_tail hp ▸ (ctrTail_control aes s).registers.trans (complete_registers _)

theorem exec_registers {i : Instr} {s t : State} (h : exec i s = .next t) : SameRegisters s t := by
  obtain ⟨_, rfl⟩ := exec_next h
  have hc := (bodyOf_control aes i (loadPhase (issue i s))).registers
  constructor <;> simp [hc.params, hc.regs, hc.written]

theorem readOperand_registers (r : OperandReg) (s : State) : SameRegisters s (readOperand r s) := by
  unfold readOperand; split <;> exact ⟨rfl, rfl, rfl⟩

theorem readCommand_registers (s : State) : SameRegisters s (readCommand s) := by
  unfold readCommand; split <;> exact ⟨rfl, rfl, rfl⟩

/-- A window access writes the operand register it names, or none. -/
theorem windowAccess_registers {a : WindowAccess} {s t : State} (h : windowAccess a s = .next t) :
    SameRegisters s t ∨
      ∃ r v, a = .write (OperandReg.offset r) 64 v ∧ t = writeOperand r v s := by
  rcases windowAccess_next h with ⟨r, v, ha, _, rfl⟩ | ⟨r, _, _, rfl⟩ | ⟨v, i, _, _, _, rfl⟩ |
    ⟨_, _, rfl⟩ | ⟨_, rfl⟩ | ⟨v, _, rfl⟩
  · exact .inr ⟨r, v, ha, rfl⟩
  · exact .inl (readOperand_registers r s)
  · exact .inl ⟨rfl, rfl, rfl⟩
  · exact .inl (readCommand_registers s)
  · exact .inl ⟨rfl, rfl, rfl⟩
  · exact .inl ⟨rfl, rfl, rfl⟩

/-- An event writes the operand register that a window write names, or none, or resets the engine. -/
theorem runEvent_registers {e : Event} {s t : State} (h : runEvent hardware e s = .next t) :
    SameRegisters s t ∨
      (∃ r v, e = .window (.write (OperandReg.offset r) 64 v) ∧ t = writeOperand r v s) ∨
      (e = .reset ∧ t = engineReset s) := by
  rcases runEvent_next h with ⟨a, rfl, _, ha⟩ | ⟨w, i, _, _, _, _, hi⟩ | ⟨_, rfl⟩ | ⟨_, _, rfl⟩ |
    ⟨_, _, rfl⟩ | ⟨a, bs, _, _, _, _, rfl⟩ | ⟨a, n, _, _, _, _, rfl⟩ | ⟨he, ht⟩
  · rcases windowAccess_registers ha with hs | ⟨r, v, rfl, ht⟩
    · exact .inl hs
    · exact .inr (.inl ⟨r, v, rfl, ht⟩)
  · exact .inl (exec_registers hi)
  · exact .inl (engineTick_registers s)
  · have hc := engineTick_registers (readStatus s)
    exact .inl ⟨hc.params, hc.regs, hc.written⟩
  · exact .inl ⟨rfl, rfl, rfl⟩
  · exact .inl ⟨rfl, rfl, rfl⟩
  · exact .inl ⟨rfl, rfl, rfl⟩
  · exact .inr (.inr ⟨he, ht⟩)

/-- Settles O37: the engine's own steps and every event but a register write and a reset keep the
registers. -/
theorem onlyHostWritesAndResetChangeRegisters :
    Obligations.OnlyHostWritesAndResetChangeRegisters := by
  intro s t h
  rcases step_next h with ⟨_, rfl⟩ | ⟨e, rest, he, hr⟩
  · have hs := engineTick_registers s
    exact ⟨hs.params, .inl ⟨hs.regs, hs.written⟩⟩
  · rcases runEvent_registers hr with hs | ⟨r, v, rfl, rfl⟩ | ⟨rfl, rfl⟩
    · exact ⟨hs.params, .inl ⟨hs.regs, hs.written⟩⟩
    · exact ⟨rfl, .inr (.inl ⟨r, v, rest, he, rfl, rfl⟩)⟩
    · exact ⟨rfl, .inr (.inr ⟨rest, he, rfl⟩)⟩

/-! ## What each host transaction is -/

@[simp] theorem operandAt_offset (r : OperandReg) : operandAt r.offset = some r := by
  cases r <;> rfl

theorem offset_ne_statusOffset (r : OperandReg) : r.offset ≠ statusOffset := by
  cases r <;> decide

@[simp] theorem transaction_writeOperand (r : OperandReg) (v : Word64) :
    (WindowAccess.write r.offset 64 v).transaction = some (.writeOperand r v) := by
  simp [WindowAccess.transaction, offset_ne_statusOffset]

@[simp] theorem transaction_readOperand (r : OperandReg) :
    (WindowAccess.read r.offset 64).transaction = some (.readOperand r) := by
  simp [WindowAccess.transaction, offset_ne_statusOffset]

@[simp] theorem transaction_issue (v : Word64) :
    (WindowAccess.write 0x38 32 v).transaction = some (.issue (v.setWidth 32)) := rfl

@[simp] theorem transaction_readCommand :
    (WindowAccess.read 0x38 32).transaction = some .readCommand := rfl

@[simp] theorem transaction_readStatus :
    (WindowAccess.read 0x40 64).transaction = some .readStatus := rfl

@[simp] theorem transaction_writeStatus (v : Word64) :
    (WindowAccess.write 0x40 64 v).transaction = some .writeStatus := rfl

theorem windowAccess_of_transaction {a : WindowAccess} {tr : Transaction}
    (h : a.transaction = some tr) (s : State) : windowAccess a s = transact tr s := by
  simp only [windowAccess, h]

theorem whenIdle_idle {s : State} (h : s.busy = false) (t : State) : whenIdle s t = .next t := by
  simp [whenIdle, h]

/-- A busy engine answers no access to an operand register or CMD (60_exceptions R236). -/
theorem transact_busy {tr : Transaction} (ht : Transaction.touchesRegisters tr = true) {s : State}
    (hb : s.busy = true) : transact tr s = refuse .pv7 := by
  cases tr with
  | writeOperand | readOperand | readCommand => simp [transact, whenIdle, hb]
  | issue => simp [transact, writeCommand, hb]
  | readStatus | writeStatus => cases ht

/-! ## Reading back -/

theorem readOperand_written {r : OperandReg} {s : State} (h : s.written.get r = true) :
    readOperand r s = { s with reply := some (.word (s.regs.get r)) } := if_pos h

theorem readOperand_unwritten {r : OperandReg} {s : State} (h : s.written.get r = false) :
    readOperand r s =
      { s with reply := some (.word (Config.freeWord s.free)), free := s.free + 1 } :=
  if_neg (by simp [h])

theorem readCommand_written {s : State} (h : s.cmdWritten = true) :
    readCommand s = { s with reply := some (.command s.cmd) } := if_pos h

theorem readCommand_unwritten {s : State} (h : s.cmdWritten = false) :
    readCommand s =
      { s with reply := some (.command (Config.freeCommandWord s.free)), free := s.free + 1 } :=
  if_neg (by simp [h])

/-- A read of an operand register by an idle engine's window. -/
theorem windowAccess_readOperand {s : State} (hb : s.busy = false) (r : OperandReg) :
    windowAccess (.read r.offset 64) s = .next (readOperand r s) :=
  (windowAccess_of_transaction (transaction_readOperand r) s).trans (whenIdle_idle hb _)

theorem windowAccess_writeOperand {s : State} (hb : s.busy = false) (r : OperandReg) (v : Word64) :
    windowAccess (.write r.offset 64 v) s = .next (writeOperand r v s) :=
  (windowAccess_of_transaction (transaction_writeOperand r v) s).trans (whenIdle_idle hb _)

theorem windowAccess_readCommand {s : State} (hb : s.busy = false) :
    windowAccess (.read 0x38 32) s = .next (readCommand s) :=
  (windowAccess_of_transaction transaction_readCommand s).trans (whenIdle_idle hb _)

/-- Settles O42: at an idle window the accesses are writeOperand and the reads of a written register. -/
theorem registersReadBackWhatWasWritten : Obligations.RegistersReadBackWhatWasWritten := by
  intro s r v hb
  refine ⟨⟨writeOperand r v s, windowAccess_writeOperand hb r v, by simp, by simp,
    fun q hq => ?_, rfl⟩, fun hw => ?_, fun hw => ?_⟩
  · simp [OperandFile.get_set_other _ _ hq]
  · rw [windowAccess_readOperand hb, readOperand_written hw]
  · rw [windowAccess_readCommand hb, readCommand_written hw]

/-- Settles O43: the reads are those of an unwritten register. -/
theorem unwrittenRegistersReadFreeValues : Obligations.UnwrittenRegistersReadFreeValues := by
  intro s r hb
  constructor <;> intro hw
  · rw [windowAccess_readOperand hb, readOperand_unwritten hw]
  · rw [windowAccess_readCommand hb, readCommand_unwritten hw]

/-! ## STATUS -/

theorem statusWord_toNat (s : State) :
    (statusWord s).toNat = if s.busy = true then 1 else 0 := by
  unfold statusWord; split <;> rfl

theorem windowAccess_writeStatus (v : Word64) (s : State) :
    windowAccess (.write 0x40 64 v) s = .next s := rfl

/-- The host's duty does not bind an access that touches no operand register and not CMD. -/
theorem hostAccess_of_not_touches {a : WindowAccess}
    (ha : a.transaction.any Transaction.touchesRegisters = false) (s : State) :
    hostAccess a s = windowAccess a s := by
  simp [hostAccess, ha]

/-- Settles O44: STATUS is outside BUSY's guard at the window and outside the host's duty. -/
theorem statusShowsBusyAlone : Obligations.StatusShowsBusyAlone := by
  refine fun s => ⟨⟨statusWord s, rfl, statusWord_toNat s⟩, fun v => ⟨windowAccess_writeStatus v s, ?_⟩⟩
  exact (hostAccess_of_not_touches rfl s).trans (windowAccess_writeStatus v s)

/-! ## The host's duty (60_exceptions R236) -/

theorem inBusyWindow_iff {s : State} :
    inBusyWindow s = true ↔ s.busy = true ∨ s.unread = true := by
  simp [inBusyWindow]

/-- While its duty is open the host touches no operand register and not CMD. -/
theorem hostAccess_bound {a : WindowAccess} {s : State} (hd : inBusyWindow s = true)
    (ha : a.transaction.any Transaction.touchesRegisters = true) :
    hostAccess a s = refuse .pv7 := by
  simp [hostAccess, hd, ha]

/-- Nor does it call. -/
theorem hostCallWord_bound {s : State} (hd : inBusyWindow s = true) (G : Engine) (w : BitVec 32) :
    hostCallWord G w s = refuse .pv7 := if_pos hd

/-- With no duty open a host access is the window's. -/
theorem hostAccess_free {s : State} (hd : inBusyWindow s = false) (a : WindowAccess) :
    hostAccess a s = windowAccess a s := by
  simp [hostAccess, hd]

/-- The accesses of 30_encoding R86 to the operand registers and CMD. -/
theorem transaction_touches {r : OperandReg} {v : Word64} {a : WindowAccess}
    (ha : a ∈ [WindowAccess.write r.offset 64 v, .read r.offset 64, .write 0x38 32 v,
      .read 0x38 32]) :
    ∃ tr, a.transaction = some tr ∧ Transaction.touchesRegisters tr = true := by
  simp only [List.mem_cons, List.not_mem_nil, or_false] at ha
  rcases ha with rfl | rfl | rfl | rfl
  · exact ⟨_, transaction_writeOperand r v, rfl⟩
  · exact ⟨_, transaction_readOperand r, rfl⟩
  · exact ⟨_, transaction_issue v, rfl⟩
  · exact ⟨_, transaction_readCommand, rfl⟩

/-- A STATUS read that ends an open duty has returned 0. -/
theorem readStatus_ends {s : State} (hu : s.unread = true) (h : (readStatus s).unread = false) :
    (readStatus s).reply = some (.word 0#64) := by
  have hb : s.busy = false := by simpa [hu] using h
  rw [readStatus_zero hb]

theorem readOperand_unread (r : OperandReg) (s : State) :
    (readOperand r s).unread = s.unread := by
  unfold readOperand; split <;> rfl

theorem readCommand_unread (s : State) : (readCommand s).unread = s.unread := by
  unfold readCommand; split <;> rfl

/-- Of the window accesses only a STATUS read ends an open duty. -/
theorem windowAccess_ends {a : WindowAccess} {s t : State} (hu : s.unread = true)
    (h : windowAccess a s = .next t) (ht : t.unread = false) :
    a = .read 0x40 64 ∧ t.reply = some (.word 0#64) := by
  have hkept : t.unread ≠ s.unread := by simp [hu, ht]
  rcases windowAccess_next h with ⟨r, v, _, _, rfl⟩ | ⟨r, _, _, rfl⟩ | ⟨v, i, _, _, _, rfl⟩ |
    ⟨_, _, rfl⟩ | ⟨ha, rfl⟩ | ⟨v, _, rfl⟩
  · exact absurd (writeOperand_unread r v s) hkept
  · exact absurd (readOperand_unread r s) hkept
  · exact absurd ht (by simp)
  · exact absurd (readCommand_unread s) hkept
  · exact ⟨ha, readStatus_ends hu ht⟩
  · exact absurd rfl hkept

/-- Of the events only a STATUS read that returns 0, by itself or in `wait`, and a reset end an open
duty: a call needs none open, and a phase action does not touch it. -/
theorem runEvent_ends {e : Event} {s t : State} (hu : s.unread = true)
    (h : runEvent hardware e s = .next t) (ht : t.unread = false) :
    ((e = .window (.read 0x40 64) ∨ e = .wait) ∧ t.reply = some (.word 0#64)) ∨ e = .reset := by
  have hkept : t.unread ≠ s.unread := by simp [hu, ht]
  rcases runEvent_next h with ⟨a, rfl, _, ha⟩ | ⟨w, i, _, _, hu', _⟩ | ⟨_, rfl⟩ | ⟨_, hb, rfl⟩ |
    ⟨he, _, rfl⟩ | ⟨a, bs, _, _, _, _, rfl⟩ | ⟨a, n, _, _, _, _, rfl⟩ | ⟨he, _⟩
  · obtain ⟨rfl, hr⟩ := windowAccess_ends hu ha ht
    exact .inl ⟨.inl rfl, hr⟩
  · simp [hu] at hu'
  · exact absurd (engineTick_unread s) hkept
  · refine absurd ?_ hkept
    exact (engineTick_unread (readStatus s)).trans (by simp [hb])
  · exact .inl ⟨.inr he, readStatus_ends hu ht⟩
  · exact absurd rfl hkept
  · exact absurd rfl hkept
  · exact .inr he

/-- Settles O45: the window's guard is BUSY and the host's is its duty, and runEvent_ends says what ends
that duty. -/
theorem hostKeepsOffUntilBusyReadsClear : Obligations.HostKeepsOffUntilBusyReadsClear := by
  refine ⟨fun s r v w a ha => ?_, fun s t hu h ht => ?_, fun s a hb hu => ?_⟩
  · obtain ⟨tr, htr, htouch⟩ := transaction_touches ha
    refine ⟨fun hb => ?_, fun hd => ⟨?_, ?_⟩⟩
    · exact (windowAccess_of_transaction htr s).trans (transact_busy htouch hb)
    · exact hostAccess_bound (inBusyWindow_iff.2 hd) (by simp [htr, htouch])
    · exact hostCallWord_bound (inBusyWindow_iff.2 hd) hardware w
  · rcases step_next h with ⟨_, rfl⟩ | ⟨e, rest, he, hr⟩
    · simp [hu] at ht
    · rcases runEvent_ends (s := { s with events := rest }) hu hr ht with ⟨rfl | rfl, hreply⟩ | rfl
      · exact .inl ⟨rest, .inl he, hreply⟩
      · exact .inl ⟨rest, .inr he, hreply⟩
      · exact .inr ⟨rest, he⟩
  · exact hostAccess_free (by simp [inBusyWindow, hb, hu]) a

/-! ## Issue and call of a command -/

/-- An idle engine takes the write of a legal word to CMD as its command. -/
theorem writeCommand_command {s : State} {w : BitVec 32} {i : Instr} (hb : s.busy = false)
    (hd : decode s.params.xtsDecPresent w = .command i)
    (run : Instr → State → Host.Outcome State Fault Refusal) :
    writeCommand run w s = run i s := by
  simp [writeCommand, hb, hd]

/-- Settles O5: with no duty open the call is the write to CMD, and the engine runs the command
whole. -/
theorem stepRunsTheDecodedCommand : Obligations.StepRunsTheDecodedCommand := by
  intro s w i rest he hb hu hd
  have hfree : inBusyWindow { s with events := rest } = false := by simp [inBusyWindow, hb, hu]
  have hcall : step s = hostCallWord hardware w { s with events := rest } := by
    simp only [step, stepOf, he, runEvent]
  rw [hcall, hostCallWord, if_neg (by simp [hfree])]
  exact writeCommand_command (s := { s with events := rest }) hb hd hardware.run

/-- The fields of a word with no bit set above them (30_encoding R80). -/
theorem toNat_of_zeroField {w : BitVec 32} (h : zeroField w = 0) :
    w.toNat = (modeField w).toNat + 8 * (dirField w).toNat + 16 * (kcField w).toNat := by
  have hz : (zeroField w).toNat = 0 := by simp [h]
  have hw := w.isLt
  simp only [zeroField, modeField, dirField, kcField, BitVec.extractLsb'_toNat,
    Nat.shiftRight_eq_div_pow] at hz ⊢
  omega

theorem keyClassOf_some {f : BitVec 2} {kc : KeyClass} (h : keyClassOf f = some kc) :
    kc.code = f.toNat := by
  unfold keyClassOf at h
  split at h
  case h_4 => cases h
  all_goals
    next hf =>
    obtain rfl := Option.some.inj h
    exact hf.symm

/-- The case table of 30_encoding R81 keeps the fields. -/
theorem commandOf_fields {x : Bool} {d m : Nat} {kc : KeyClass} {i : Instr} (hd : d < 2)
    (h : commandOf x d m kc = .command i) :
    i.mode.code = m ∧ i.dir.code = d ∧ i.keyClass = kc := by
  have hone : d ≠ 0 → d = 1 := by omega
  unfold commandOf at h
  split at h
  case h_1 | h_3 | h_5 | h_7 =>
    obtain rfl := Decoded.command.inj h
    exact ⟨rfl, rfl, rfl⟩
  case h_2 hd0 | h_4 hd0 =>
    obtain rfl := Decoded.command.inj h
    exact ⟨rfl, (hone hd0).symm, rfl⟩
  case h_6 | h_9 => cases h
  case h_8 hd0 =>
    split at h
    · obtain rfl := Decoded.command.inj h
      exact ⟨rfl, (hone hd0).symm, rfl⟩
    · cases h

/-- A word that decodes to a command is its encoding (30_encoding R81, R82). -/
theorem encode_of_decode {x : Bool} {w : BitVec 32} {i : Instr} (h : decode x w = .command i) :
    w = encode i := by
  unfold decode at h
  split at h
  · cases h
  next hz =>
  split at h
  · cases h
  next kc hk =>
  obtain ⟨hm, hd, rfl⟩ := commandOf_fields (dirField w).isLt h
  have hw := toNat_of_zeroField (not_not.1 hz)
  apply BitVec.eq_of_toNat_eq
  rw [encode, BitVec.toNat_ofNat, hm, hd, keyClassOf_some hk, ← hw, Nat.mod_eq_of_lt w.isLt]

/-- Settles O40: the access is the issue of the decoded command, whose encoding is the word written. -/
theorem issueLatchesAndStarts : Obligations.IssueLatchesAndStarts := by
  intro s v i hd hr
  have hgo : windowAccess (.write 0x38 32 v) s = .next { issue i s with unread := true } := by
    rw [windowAccess_of_transaction (transaction_issue v), transact,
      writeCommand_command hr.idle hd, issueAction, ifDefined, issueViolations_nil.2 hr]
  refine ⟨_, hgo, rfl, rfl, ?_⟩
  rw [encode_of_decode hd]
  exact ⟨rfl, rfl, get_latchListed _ _ _, rfl, rfl, rfl, rfl⟩

/-! ## Reset -/

/-- Settles O39: an idle engine and empty memory. -/
theorem resetMeetsTheInvariant : Obligations.ResetMeetsTheInvariant := by
  intro p
  refine ⟨Memory.wf_nil, ?_, ?_, ?_, ?_⟩ <;> simp [State.resetWith]

/-- A command over a register that nothing has written is refused as PV9 alone. -/
theorem exec_unwritten {i : Instr} {s : State} (hb : s.busy = false)
    (hp : i.wf s.params.xtsDecPresent = true) {r : OperandReg} (hr : r ∈ modeOperands i.mode)
    (hw : s.written.get r = false) : exec i s = .refused (.violated .pv9 []) := by
  have hbad : unwrittenBad i.mode s.written = true := unwrittenBad_iff.2 ⟨r, hr, hw⟩
  have hv : issueViolations i s = [.pv9] := by simp [issueViolations, hb, hp, hbad]
  rw [exec_eq, runCommand, ifDefined, hv]

/-- Every command lists SRC (10_state R21). -/
theorem src_mem_modeOperands (m : Mode) : .src ∈ modeOperands m := by
  cases m <;> simp [modeOperands]

/-- Settles O49: memory is kept as BUSY is clear, and SRC, which every command lists, is unwritten. -/
theorem resetLeavesAFreshEngine : Obligations.ResetLeavesAFreshEngine := by
  intro s hb
  have hw : ∀ r, (engineReset s).written.get r = false := OperandFile.get_fill false
  refine ⟨rfl, rfl, rfl, hw, rfl, by simp [engineReset, hb], rfl, fun i hi => ?_⟩
  exact exec_unwritten rfl hi (src_mem_modeOperands i.mode) (hw .src)

end Sys2Proof.Machine
end

section
/-! PROOFS. Memory (spec/20_memory.md): MemRead and MemWrite, the frame of a command and of a step, what
the bytes a command writes depend on, and two commands clear of each other. -/

namespace Sys2Proof.Machine

open Sys2Proof.Config (Params RoundPrims)
open Sys2Proof.Safety

/-! ## MemRead and MemWrite -/

/-- A Block read is MemRead of 16 bytes (20_memory R51). -/
theorem readBlock_toList (m : Memory) (addr : Nat) :
    (readBlock m addr).toList = memRead m addr 16 := by
  refine List.ext_getElem (by simp) fun k _ _ => ?_
  simp [memRead_getElem]

/-- Settles O51, from the laws of memRead and memWrite. -/
theorem memReadAndMemWrite : Obligations.MemReadAndMemWrite := by
  intro m addr n v hw
  refine ⟨memRead_length m addr n, fun k hk => ?_, rfl, readBlock_toList m addr, fun k hk => ?_,
    fun a ha => get_memWrite_outside hw ha, rfl, memWrite_wf hw addr v⟩
  · rw [List.getElem?_eq_getElem (by simpa using hk), memRead_getElem]
  · rw [List.getElem?_eq_getElem hk, get_memWrite_inside hw hk]

/-! ## The frame of a command -/

/-- What a command that completed has done to memory. -/
theorem exec_next_output {i : Instr} {s t : State} (hw : s.mem.Wf) (h : exec i s = .next t) :
    Output (outputByteOf aes (rounds s.params i.keyClass) i s.regs s.mem) s.mem s.regs.dst.toNat
      s.regs.len.toNat t.mem := by
  obtain ⟨hr, rfl⟩ := exec_next h
  obtain ⟨_, _, rfl, ho⟩ := exec_output hr hw
  exact ho

/-- Settles O13: the frame of the command's effect on memory. -/
theorem commandsWriteOnlyTheOutputRange : Obligations.CommandsWriteOnlyTheOutputRange :=
  fun _ _ _ hw h => (exec_next_output hw h).frame

/-! ## What the output depends on -/

/-- The round counts are those of the parameters (00_scope R8). -/
theorem rounds_congr {p q : Params} (h : p.nr = q.nr) (kc : KeyClass) : rounds p kc = rounds q kc := by
  cases kc <;> simp only [rounds, h]

section SameKeys

variable {m m' : Memory} {ka ka' nr : Nat} (h : ∀ r, r ≤ nr → roundKey m ka r = roundKey m' ka' r)
include h

theorem roundsUpTo_of_keys (f : Block → Block → Block) (x : Block) :
    roundsUpTo f m ka nr x = roundsUpTo f m' ka' nr x := by
  induction nr with
  | zero => rfl
  | succ n ih => simp only [roundsUpTo, h (n + 1) le_rfl, ih fun r hr => h r (by omega)]

/-- E depends on its input and round keys alone, wherever the schedule stands (40_block_core R105). -/
theorem blockE_of_keys (P : RoundPrims) (x : Block) : blockE P m ka nr x = blockE P m' ka' nr x := by
  have hmid := roundsUpTo_of_keys (nr := nr - 1) fun r hr => h r (by omega)
  rw [blockE, blockE, h 0 (Nat.zero_le _), h nr le_rfl, hmid]

/-- So does D. -/
theorem blockD_of_keys (P : RoundPrims) (x : Block) : blockD P m ka nr x = blockD P m' ka' nr x := by
  have hmid := roundsUpTo_of_keys (nr := nr - 1) fun r hr => h r (by omega)
  rw [blockD, blockD, h 0 (Nat.zero_le _), h nr le_rfl, hmid]

end SameKeys

/-- A command of mode `md` over operands `f` in memory `m` finds the length, the offset and the contents
of input, seed and schedules that one over `g` in `m'` finds. The addresses may differ. -/
structure SameReads (md : Mode) (nr : Nat) (f : OperandFile Word64) (m : Memory)
    (g : OperandFile Word64) (m' : Memory) : Prop where
  len   : f.len = g.len
  off   : md = .xts → f.off = g.off
  input : ∀ k, k < f.len.toNat → m.get (f.src.toNat + k) = m'.get (g.src.toNat + k)
  seed  : md ≠ .ecb → seedBlock f m = seedBlock g m'
  key1  : ∀ r, r ≤ nr → roundKey m f.key1.toNat r = roundKey m' g.key1.toNat r
  key2  : md = .xts → ∀ r, r ≤ nr → roundKey m f.key2.toNat r = roundKey m' g.key2.toNat r

namespace SameReads

variable {md : Mode} {nr : Nat} {f g : OperandFile Word64} {m m' : Memory}

theorem inputBlock_eq (h : SameReads md nr f m g m') {j : Nat} (hj : 16 * (j + 1) ≤ f.len.toNat) :
    inputBlock f m j = inputBlock g m' j := by
  refine Vector.ext fun k hk => ?_
  simp only [inputBlock, readBlock_getElem, Nat.add_assoc]
  exact h.input _ (by omega)

theorem keystreamBlock_eq (h : SameReads .ctr nr f m g m') (P : RoundPrims) (j : Nat) :
    keystreamBlock P nr f m j = keystreamBlock P nr g m' j := by
  rw [keystreamBlock, keystreamBlock, h.seed (by decide), blockE_of_keys h.key1]

theorem tweakOf_eq (h : SameReads .xts nr f m g m') (P : RoundPrims) (j : Nat) :
    tweakOf P nr f m j = tweakOf P nr g m' j := by
  rw [tweakOf, tweakOf, h.off rfl, h.seed (by decide), blockE_of_keys (h.key2 rfl)]

theorem cbcChain_eq (h : SameReads .cbc nr f m g m') (P : RoundPrims) (iv : Block) {j : Nat}
    (hj : 16 * j ≤ f.len.toNat) : cbcChain P nr f m iv j = cbcChain P nr g m' iv j := by
  induction j with
  | zero => rfl
  | succ j ih => rw [cbcChain, cbcChain, ih (by omega), h.inputBlock_eq hj, blockE_of_keys h.key1]

theorem previousBlock_eq (h : SameReads md nr f m g m') (iv : Block) {j : Nat}
    (hj : 16 * j ≤ f.len.toNat) : previousBlock f m iv j = previousBlock g m' iv j := by
  cases j with
  | zero => rfl
  | succ j => exact h.inputBlock_eq hj

/-- A full output block depends on what SameReads lists. -/
theorem outputBlockOf_eq {i : Instr} (h : SameReads i.mode nr f m g m') (P : RoundPrims) {j : Nat}
    (hj : 16 * (j + 1) ≤ f.len.toNat) :
    outputBlockOf P nr i f m j = outputBlockOf P nr i g m' j := by
  have hin := h.inputBlock_eq hj
  cases i with
  | ecbEnc kc => simp only [outputBlockOf, hin, blockE_of_keys h.key1]
  | ecbDec kc => simp only [outputBlockOf, hin, blockD_of_keys h.key1]
  | cbcEnc kc =>
    rw [outputBlockOf, outputBlockOf, h.seed (by simp [Instr.mode]), cbcChain_eq h P _ hj]
  | cbcDec kc =>
    rw [outputBlockOf, outputBlockOf, h.seed (by simp [Instr.mode]), hin, blockD_of_keys h.key1,
      h.previousBlock_eq _ (by omega)]
  | ctr kc => rw [outputBlockOf, outputBlockOf, hin, keystreamBlock_eq h]
  | xtsEnc kc => simp only [outputBlockOf, hin, tweakOf_eq h, blockE_of_keys h.key1]
  | xtsDec kc => simp only [outputBlockOf, hin, tweakOf_eq h, blockD_of_keys h.key1]

/-- So does every output byte, those of the partial block of `ctr` included (44_ctr R169). -/
theorem outputByteOf_eq {i : Instr} (h : SameReads i.mode nr f m g m') (P : RoundPrims)
    (hl : i.mode ≠ .ctr → f.len.toNat % 16 = 0) {k : Nat} (hk : k < f.len.toNat) :
    outputByteOf P nr i f m k = outputByteOf P nr i g m' k := by
  by_cases hm : i.mode = .ctr
  · cases i <;> simp only [Instr.mode, reduceCtorEq] at hm
    have hbyte : 16 * (k / 16) + k % 16 = k := Nat.div_add_mod k 16
    simp only [outputByteOf, outputBlockOf, xor16_getElem, inputBlock, readBlock_getElem,
      Nat.add_assoc, hbyte, h.input k hk, keystreamBlock_eq h]
  · have := hl hm
    simp only [outputByteOf, h.outputBlockOf_eq P (j := k / 16) (by omega)]

end SameReads

/-- Settles O32: both commands write their closed forms, which read what SameReads lists. -/
theorem outputIsAFunctionOfTheBytesRead : Obligations.OutputIsAFunctionOfTheBytesRead := by
  intro i s u hws hwu hs hu hnr hlen hoff hinput hseed hkey1 hkey2
  obtain ⟨t, ht, -, hot⟩ := exec_output hs hws
  obtain ⟨v, hv, -, hov⟩ := exec_output hu hwu
  have hsame : SameReads i.mode (rounds s.params i.keyClass) s.regs s.mem u.regs u.mem :=
    ⟨hlen, hoff, hinput, hseed, hkey1, hkey2⟩
  refine ⟨t, v, ht, hv, fun k hk => ?_⟩
  calc t.mem.get (s.regs.dst.toNat + k)
      = outputByteOf aes (rounds s.params i.keyClass) i s.regs s.mem k := hot.inside k hk
    _ = outputByteOf aes (rounds s.params i.keyClass) i u.regs u.mem k :=
      hsame.outputByteOf_eq aes hs.operands.length hk
    _ = outputByteOf aes (rounds u.params i.keyClass) i u.regs u.mem k := by
      rw [rounds_congr hnr]
    _ = v.mem.get (u.regs.dst.toNat + k) := (hov.inside k (hlen ▸ hk)).symm

/-! ## Two commands clear of each other -/

section ReadRegions

variable (md : Mode) (nr : Nat) (f : OperandFile Word64)

theorem inputRegion_mem_readRegions : inputRegion f ∈ readRegions md nr f := List.mem_cons_self ..

theorem key1_mem_readRegions : ⟨f.key1.toNat, scheduleBytes nr⟩ ∈ readRegions md nr f := by
  cases md <;> simp [readRegions, scheduleRegions]

theorem key2_mem_readRegions (h : md = .xts) :
    ⟨f.key2.toNat, scheduleBytes nr⟩ ∈ readRegions md nr f := by
  simp [readRegions, scheduleRegions, h]

theorem seed_mem_readRegions (h : md ≠ .ecb) : ⟨f.seed.toNat, 16⟩ ∈ readRegions md nr f := by
  cases md <;> simp_all [readRegions, seedRegions]

end ReadRegions

/-- A command reads the same in memories that agree on its footprint's read ranges (20_memory R56). -/
theorem SameReads.of_agree {md : Mode} {nr : Nat} {f : OperandFile Word64} {m m' : Memory}
    (h : ∀ g ∈ readRegions md nr f, ∀ a, Inside g a → m.get a = m'.get a) :
    SameReads md nr f m f m' where
  len := rfl
  off _ := rfl
  input k hk := h _ (inputRegion_mem_readRegions md nr f) _ ⟨Nat.le_add_right .., by simpa [inputRegion]⟩
  seed hm := readBlock_congr fun k hk =>
    h _ (seed_mem_readRegions md nr f hm) _ ⟨Nat.le_add_right .., by simpa⟩
  key1 _ hr := roundKey_congr (fun a h1 h2 => h _ (key1_mem_readRegions md nr f) a ⟨h1, h2⟩) hr
  key2 hm _ hr := roundKey_congr (fun a h1 h2 => h _ (key2_mem_readRegions md nr f hm) a ⟨h1, h2⟩) hr

namespace Output

variable {Y Z : Nat → Byte} {m m1 m2 n1 n2 : Memory} {d l d' l' : Nat}

theorem get_eq (h : Output Y m d l m1) (a : Nat) :
    m1.get a = if d ≤ a ∧ a < d + l then Y (a - d) else m.get a := by
  split
  · next ha => rw [← h.inside (a - d) (by omega), Nat.add_sub_cancel' ha.1]
  · next ha => exact h.frame a ha

theorem congr (h : Output Y m d l m1) (hYZ : ∀ k, k < l → Y k = Z k) : Output Z m d l m1 :=
  ⟨h.wf, fun k hk => (h.inside k hk).trans (hYZ k hk), h.frame, h.listed⟩

/-- Two outputs to ranges that share no byte commute. -/
theorem comm (h1 : Output Y m d l m1) (h2 : Output Z m1 d' l' m2) (g1 : Output Z m d' l' n1)
    (g2 : Output Y n1 d l n2) (hd : ¬ ShareByte ⟨d, l⟩ ⟨d', l'⟩) : m2 = n2 := by
  refine Memory.ext_get h2.wf g2.wf fun a => ?_
  rw [h2.get_eq, h1.get_eq, g2.get_eq, g1.get_eq]
  by_cases hf : d ≤ a ∧ a < d + l
  · have hg : ¬ (d' ≤ a ∧ a < d' + l') := fun hg => hd ⟨a, hf, hg⟩
    rw [if_neg hg, if_pos hf, if_pos hf]
  · rw [if_neg hf, if_neg hf]

end Output

/-- A command stays Ready in a state that differs in neither parameters, registers nor marks and is
idle: readiness does not ask for memory. -/
theorem ready_of_registers {i : Instr} {s t : State} (h : Ready i s) (hr : SameRegisters s t)
    (hb : t.busy = false) : Ready i t :=
  ⟨hb, by rw [hr.params]; exact h.present, by rw [hr.written]; exact h.written,
    by rw [hr.params, hr.regs]; exact h.operands⟩

theorem exec_idle {i : Instr} {s t : State} (h : exec i s = .next t) : t.busy = false := by
  obtain ⟨_, rfl⟩ := exec_next h
  exact complete_busy _

/-- After a command that wrote clear of its footprint a Ready command still completes, and writes what it
would have written before. -/
theorem exec_after {i j : Instr} {s t : State} {f g : OperandFile Word64} (hw : s.mem.Wf)
    (hi : exec i { s with regs := f } = .next t) (hj : Ready j { s with regs := g })
    (hclear : ∀ h ∈ readRegions j.mode (rounds s.params j.keyClass) g, ¬ ShareByte (outputRegion f) h) :
    ∃ u, exec j { t with regs := g } = .next u ∧
      Output (outputByteOf aes (rounds s.params j.keyClass) j g s.mem) t.mem g.dst.toNat g.len.toNat
        u.mem := by
  have hot := exec_next_output (s := { s with regs := f }) hw hi
  have hregs := exec_registers hi
  have hidle := exec_idle hi
  have hready : Ready j { t with regs := g } :=
    ready_of_registers hj ⟨hregs.params, rfl, hregs.written⟩ hidle
  obtain ⟨u, hu, -, hou⟩ := exec_output hready hot.wf
  have hsame : SameReads j.mode (rounds s.params j.keyClass) g t.mem g s.mem :=
    .of_agree fun h hh a ha => hot.frame a fun hf => hclear h hh ⟨a, hf, ha⟩
  refine ⟨u, hu, hou.congr fun k hk => ?_⟩
  change outputByteOf aes (rounds t.params j.keyClass) j g t.mem k = _
  rw [hregs.params]
  exact hsame.outputByteOf_eq aes hj.operands.length hk

/-- Settles O33: each command reads and writes the same whether first or second, and outputs to ranges
that share no byte commute. -/
theorem disjointCommandsCommute : Obligations.DisjointCommandsCommute := by
  intro i j s f g hw hi hj hfg hgf
  obtain ⟨t1, ht1, -, hot1⟩ := exec_output hi hw
  obtain ⟨u1, hu1, -, hou1⟩ := exec_output hj hw
  obtain ⟨t2, ht2, hot2⟩ := exec_after hw ht1 hj fun h hh => hfg h (List.mem_cons_of_mem _ hh)
  obtain ⟨u2, hu2, hou2⟩ := exec_after hw hu1 hi fun h hh => hgf h (List.mem_cons_of_mem _ hh)
  exact ⟨t1, t2, u1, u2, ht1, ht2, hu1, hu2,
    hot1.comm hot2 hou1 hou2 (hfg (outputRegion g) (List.mem_cons_self ..))⟩

/-! ## Which steps change a byte -/

theorem memWrite_changes {m : Memory} (hw : m.Wf) {addr a : Nat} {bs : List Byte}
    (h : (memWrite m addr bs).get a ≠ m.get a) : Inside ⟨addr, bs.length⟩ a :=
  by_contra fun ha => h (get_memWrite_outside hw ha)

theorem exec_changes {i : Instr} {s t : State} (hw : s.mem.Wf) (hi : exec i s = .next t) {a : Nat}
    (h : t.mem.get a ≠ s.mem.get a) : Inside (outputRegion s.regs) a :=
  by_contra fun ha => h ((exec_next_output hw hi).frame a ha)

/-- A reset changes bytes of the abandoned command's output range alone (70_reset_and_hazards R261,
R263). -/
theorem engineReset_changes {s : State} (hw : s.mem.Wf) {a : Nat}
    (h : (engineReset s).mem.get a ≠ s.mem.get a) :
    s.busy = true ∧ Inside (outputRegion s.work.lat) a := by
  unfold engineReset at h
  cases hb : s.busy with
  | false => simp [hb] at h
  | true =>
    simp only [hb, if_true, clobber] at h
    exact ⟨rfl, by simpa using memWrite_changes hw h⟩

/-- The block at IDX lies in the output range of the command in flight. -/
theorem block_inside {s : State} (hf : InFlight s) (hp : s.phase = .blk) {a : Nat}
    (ha : Inside ⟨blockAddr s.work.lat.dst s.work.idx, 16⟩ a) : Inside (outputRegion s.work.lat) a := by
  obtain ⟨hnb, _⟩ := hf.counts (by simp [hp])
  have hidx := hf.blocks hp
  simp only [Inside, blockAddr, outputRegion] at ha ⊢
  omega

/-- So do the bytes of the partial block. -/
theorem tail_inside {s : State} (hf : InFlight s) (hp : s.phase = .tail) {a : Nat} {bs : List Byte}
    (hbs : bs.length ≤ s.work.rem.toNat)
    (ha : Inside ⟨tailAddr s.work.lat.dst s.work.nb, bs.length⟩ a) :
    Inside (outputRegion s.work.lat) a := by
  obtain ⟨hnb, hrem⟩ := hf.counts (by simp [hp])
  simp only [Inside, tailAddr, outputRegion] at ha ⊢
  omega

theorem tweakAdvancePhase_mem (s : State) : (tweakAdvancePhase s).mem = s.mem := by
  unfold tweakAdvancePhase
  split <;> simp [tweakAdvance]

/-- A phase action changes bytes of the output range of the command in flight alone (20_memory R57). -/
theorem engineTick_changes {s : State} (hinv : Inv s) {a : Nat}
    (h : (engineTick s).mem.get a ≠ s.mem.get a) :
    s.busy = true ∧ Inside (outputRegion s.work.lat) a := by
  have hbusy : s.phase ≠ .idle → s.busy = true := fun hp =>
    Bool.eq_true_of_not_eq_false fun hb => hp (hinv.idle.1 hb)
  cases hp : s.phase with
  | idle => exact absurd (by simp only [engineTick, phaseAction, hp]) h
  | load => exact absurd (by simp [engineTick_load hp]) h
  | twkEnc => exact absurd (by simp [engineTick_twkEnc hp, tweakEncryptPhase, tweakEncrypt]) h
  | twkAdv => exact absurd (by rw [engineTick_twkAdv hp, tweakAdvancePhase_mem]) h
  | blk =>
    have hb := hbusy (by simp [hp])
    rw [engineTick_blk hp, afterBlock_mem] at h
    exact ⟨hb, block_inside (hinv.flight hb) hp
      (by_contra fun ha => h (blockStep_mem_get_outside aes hinv.memory ha))⟩
  | tail =>
    have hb := hbusy (by simp [hp])
    rw [engineTick_tail hp, complete_mem, ctrTail_mem] at h
    exact ⟨hb, tail_inside (hinv.flight hb) hp (by simp) (memWrite_changes hinv.memory h)⟩

/-- A phase action does the same to memory whatever the host's side of the state is. -/
theorem engineTick_around_mem (b : Bool) (ev : List Event) (r : Option Reply) (s : State) :
    (engineTick (around b ev r s)).mem = (engineTick s).mem := by
  rw [engineTick, phaseAction_blind aes b ev r s]; rfl

theorem readOperand_mem (r : OperandReg) (s : State) : (readOperand r s).mem = s.mem := by
  unfold readOperand; split <;> rfl

theorem readCommand_mem (s : State) : (readCommand s).mem = s.mem := by
  unfold readCommand; split <;> rfl

/-- No window access touches memory: the write to CMD is the issue alone (10_state R27). -/
theorem windowAccess_mem {w : WindowAccess} {s t : State} (h : windowAccess w s = .next t) :
    t.mem = s.mem := by
  rcases windowAccess_next h with ⟨r, v, _, _, rfl⟩ | ⟨r, _, _, rfl⟩ | ⟨v, i, _, _, _, rfl⟩ |
    ⟨_, _, rfl⟩ | ⟨_, rfl⟩ | ⟨v, _, rfl⟩
  · exact writeOperand_mem r v s
  · exact readOperand_mem r s
  · exact issue_mem i s
  · exact readCommand_mem s
  · exact readStatus_mem s
  · rfl

/-- Settles O38: a byte changed by a phase action or a reset lies in the output range in flight, by a
call in that of its command, by a store in the bytes stored; no other event changes one. -/
theorem memoryChangesOnlyWhereSomeoneWrites : Obligations.MemoryChangesOnlyWhereSomeoneWrites := by
  intro s t a hinv h hne
  rcases step_next h with ⟨_, rfl⟩ | ⟨e, rest, he, hr⟩
  · exact .inl (engineTick_changes hinv hne)
  rcases runEvent_next hr with ⟨w, _, _, hw⟩ | ⟨w, i, rfl, hb, _, _, hi⟩ | ⟨_, rfl⟩ | ⟨_, _, rfl⟩ |
    ⟨_, _, rfl⟩ | ⟨addr, bs, rfl, _, _, _, rfl⟩ | ⟨_, _, _, _, _, _, rfl⟩ | ⟨_, rfl⟩
  · exact absurd (by rw [windowAccess_mem hw]) hne
  · exact .inr (.inl ⟨hb, exec_changes (s := { s with events := rest }) hinv.memory hi hne, w, rest, he⟩)
  · refine .inl (engineTick_changes hinv ?_)
    rwa [← engineTick_around_mem s.unread rest s.reply]
  · refine .inl (engineTick_changes hinv ?_)
    rwa [← engineTick_around_mem (s.unread && s.busy) rest (some (.word (statusWord s)))]
  · exact absurd (by simp) hne
  · exact .inr (.inr ⟨addr, bs, rest, he, memWrite_changes hinv.memory hne⟩)
  · exact absurd rfl hne
  · exact .inl (engineReset_changes (s := { s with events := rest }) hinv.memory hne)

end Sys2Proof.Machine
end

section
/-! PROOFS. The command word (spec/30_encoding.md): its fields, the decoder against the encoder and the
opcode table, the window accesses that are no host transaction, and the host's `wait`. -/

namespace Sys2Proof.Machine

open Sys2Proof.Safety

/-! ## The fields of a word (30_encoding R80) -/

theorem modeField_toNat (w : BitVec 32) : (modeField w).toNat = w.toNat % 8 := by
  simp [modeField]

theorem dirField_toNat (w : BitVec 32) : (dirField w).toNat = w.toNat / 8 % 2 := by
  simp [dirField, Nat.shiftRight_eq_div_pow]

theorem kcField_toNat (w : BitVec 32) : (kcField w).toNat = w.toNat / 16 % 4 := by
  simp [kcField, Nat.shiftRight_eq_div_pow]

theorem zeroField_eq_zero_iff (w : BitVec 32) : zeroField w = 0 ↔ w.toNat / 64 = 0 := by
  have hw := w.isLt
  have hz : (zeroField w).toNat = w.toNat / 64 := by
    simp only [zeroField, BitVec.extractLsb'_toNat, Nat.shiftRight_eq_div_pow]
    omega
  rw [← hz]
  exact BitVec.toNat_inj.symm

/-! ## The decoder undoes the encoder (30_encoding R81, R82) -/

/-- The fields of a command's word are those of the command (30_encoding R80). -/
theorem encode_fields (i : Instr) : Laws.EncodedFields.Statement i := by
  cases i with
  | ecbEnc kc => exact Laws.EncodedFields.ecbEnc kc
  | ecbDec kc => exact Laws.EncodedFields.ecbDec kc
  | cbcEnc kc => exact Laws.EncodedFields.cbcEnc kc
  | cbcDec kc => exact Laws.EncodedFields.cbcDec kc
  | ctr kc => exact Laws.EncodedFields.ctr kc
  | xtsEnc kc => exact Laws.EncodedFields.xtsEnc kc
  | xtsDec kc => exact Laws.EncodedFields.xtsDec kc

theorem keyClassOf_code {f : BitVec 2} {kc : KeyClass} (h : f.toNat = kc.code) :
    keyClassOf f = some kc := by
  cases kc <;> simp only [keyClassOf, h, KeyClass.code]

/-- The case table of 30_encoding R81 has every command of the build. -/
theorem commandOf_code {x : Bool} {i : Instr} (h : i.wf x = true) :
    commandOf x i.dir.code i.mode.code i.keyClass = .command i := by
  cases i with
  | xtsDec kc => exact if_pos h
  | _ => rfl

/-- It has no other command. -/
theorem wf_of_commandOf {x : Bool} {d m : Nat} {kc : KeyClass} {i : Instr}
    (h : commandOf x d m kc = .command i) : i.wf x = true := by
  unfold commandOf at h
  split at h
  case h_6 | h_9 => cases h
  case h_8 =>
    split at h
    · next hx =>
      obtain rfl := Decoded.command.inj h
      exact hx
    · cases h
  all_goals
    obtain rfl := Decoded.command.inj h
    rfl

/-- A word without bits above the fields and of a key class is the case table's. -/
theorem decode_of_fields {x : Bool} {w : BitVec 32} {kc : KeyClass} (hz : zeroField w = 0)
    (hk : keyClassOf (kcField w) = some kc) :
    decode x w = commandOf x (dirField w).toNat (modeField w).toNat kc := by
  simp [decode, hz, hk]

theorem decode_encode {x : Bool} {i : Instr} (h : i.wf x = true) :
    decode x (encode i) = .command i := by
  obtain ⟨hz, hk, hd, hm⟩ := encode_fields i
  rw [decode_of_fields hz (keyClassOf_code hk), hd, hm, commandOf_code h]

/-- A word decodes only to a command that the build has. -/
theorem wf_of_decode {x : Bool} {w : BitVec 32} {i : Instr} (h : decode x w = .command i) :
    i.wf x = true := by
  unfold decode at h
  split at h
  · cases h
  · split at h
    · cases h
    · exact wf_of_commandOf h

/-- Settles O1: a decoded word has the fields that encode writes, and a command's word the fields that
decode reads. -/
theorem legalWordsAreTheEncodings : Obligations.LegalWordsAreTheEncodings := by
  refine fun x w i => ⟨fun h => ⟨wf_of_decode h, encode_of_decode h⟩, ?_⟩
  rintro ⟨hwf, rfl⟩
  exact decode_encode hwf

/-! ## The reserved words (30_encoding R84) -/

theorem keyClassOf_eq_none_iff (f : BitVec 2) : keyClassOf f = none ↔ f.toNat = 3 := by
  revert f; decide

/-- The reserved entries of the case table. -/
theorem commandOf_reserved_iff {d : Nat} (hd : d < 2) (x : Bool) (m : Nat) (kc : KeyClass) :
    (∃ why, commandOf x d m kc = .reserved why) ↔
      4 ≤ m ∨ (m = 2 ∧ d = 1) ∨ (m = 3 ∧ d = 1 ∧ x = false) := by
  obtain rfl | rfl : d = 0 ∨ d = 1 := by omega
  all_goals
    match m with
    | 0 | 1 | 2 | _ + 4 => simp [commandOf]
    | 3 => cases x <;> simp [commandOf]

/-- A word is reserved for a bit above its fields, for its key class, or by the case table. -/
theorem decode_reserved_iff (x : Bool) (w : BitVec 32) :
    (∃ why, decode x w = .reserved why) ↔
      zeroField w ≠ 0 ∨ (kcField w).toNat = 3 ∨ 4 ≤ (modeField w).toNat ∨
        ((modeField w).toNat = 2 ∧ (dirField w).toNat = 1) ∨
        ((modeField w).toNat = 3 ∧ (dirField w).toNat = 1 ∧ x = false) := by
  by_cases hz : zeroField w = 0
  · cases hk : keyClassOf (kcField w) with
    | none => simp [decode, hz, hk, (keyClassOf_eq_none_iff _).1 hk]
    | some kc =>
      have hk3 : (kcField w).toNat ≠ 3 := fun h => by simp [(keyClassOf_eq_none_iff _).2 h] at hk
      rw [decode_of_fields hz hk, commandOf_reserved_iff (dirField w).isLt]
      simp [hz, hk3]
  · exact iff_of_true ⟨.nonZeroBits, if_pos hz⟩ (.inl hz)

/-- The same over the word's number. -/
theorem decode_reserved_iff_toNat (x : Bool) (w : BitVec 32) :
    (∃ why, decode x w = .reserved why) ↔
      (w.toNat / 64 ≠ 0 ∨ w.toNat / 16 % 4 = 3 ∨ 4 ≤ w.toNat % 8 ∨
        (w.toNat % 8 = 2 ∧ w.toNat / 8 % 2 = 1) ∨
        (w.toNat % 8 = 3 ∧ w.toNat / 8 % 2 = 1 ∧ x = false)) := by
  rw [decode_reserved_iff, Ne, zeroField_eq_zero_iff, kcField_toNat, modeField_toNat,
    dirField_toNat]

/-- An idle engine refuses the write of a reserved word to CMD (30_encoding R84). -/
theorem writeCommand_reserved {s : State} {w : BitVec 32} {why : Reserved} (hb : s.busy = false)
    (hd : decode s.params.xtsDecPresent w = .reserved why)
    (run : Instr → State → Host.Outcome State Fault Refusal) :
    writeCommand run w s = refuse .pv1 := by
  simp [writeCommand, hb, hd]

/-- Settles O2: the fields say which words are reserved, and the write to CMD is the issue of the word
on the low half of the bus. -/
theorem reservedWordsAreRefused : Obligations.ReservedWordsAreRefused := by
  refine ⟨decode_reserved_iff_toNat, fun s w why hb hd => ?_⟩
  have hbus : (w.setWidth 64).setWidth 32 = w := by simp
  exact (windowAccess_of_transaction (transaction_issue _) s).trans
    (writeCommand_reserved hb (hbus.symm ▸ hd) issueAction)

/-! ## The opcode table (30_encoding R81, R82) -/

/-- The row of a command: its word without the key class, under the mask of every row. -/
def rowOf (i : Instr) : OpcodeRow :=
  ⟨i.mnemonic, BitVec.ofNat 32 (i.mode.code + 8 * i.dir.code), 0xFFFFFFCF#32⟩

theorem rowOf_mem_opcodeRows (i : Instr) : rowOf i ∈ opcodeRows := by
  cases i <;> simp [rowOf, opcodeRows, Instr.mnemonic, Instr.mode, Instr.dir, Mode.code, Dir.code]

/-- The mask of the rows clears field KC and nothing else (30_encoding R82). -/
theorem toNat_and_rowMask (w : BitVec 32) :
    (w &&& 0xFFFFFFCF#32).toNat = w.toNat / 64 * 64 + w.toNat % 16 := by
  have hw := w.isLt
  rw [BitVec.toNat_and]
  have hlow : (w.toNat &&& 0xFFFFFFCF) % 2 ^ 4 = w.toNat % 16 := by
    rw [Nat.and_mod_two_pow]
    exact (Nat.and_two_pow_sub_one_eq_mod _ 4).trans (Nat.mod_mod _ _)
  have hkc : (w.toNat &&& 0xFFFFFFCF) / 2 ^ 4 % 2 ^ 2 = 0 := by
    rw [Nat.and_div_two_pow, Nat.and_mod_two_pow]
    exact Nat.and_zero _
  have hhigh : (w.toNat &&& 0xFFFFFFCF) / 2 ^ 6 = w.toNat / 64 := by
    rw [Nat.and_div_two_pow]
    refine (Nat.and_two_pow_sub_one_eq_mod _ 26).trans (Nat.mod_eq_of_lt (by omega))
  show w.toNat &&& 0xFFFFFFCF = _
  omega

theorem and_rowMask_eq_iff (w : BitVec 32) {p : Nat} (hp : p < 16) :
    w &&& 0xFFFFFFCF#32 = BitVec.ofNat 32 p ↔ w.toNat / 64 = 0 ∧ w.toNat % 16 = p := by
  rw [← BitVec.toNat_inj, toNat_and_rowMask, BitVec.toNat_ofNat]
  omega

theorem mode_code_lt (m : Mode) : m.code < 4 := by cases m <;> decide

/-- The word of a command has the pattern of its row under the mask. -/
theorem encode_and_mask (i : Instr) : encode i &&& (rowOf i).mask = (rowOf i).pattern := by
  obtain ⟨hz, hk, hd, hm⟩ := encode_fields i
  have hw := toNat_of_zeroField hz
  have hk4 := (kcField (encode i)).isLt
  have hd2 := (dirField (encode i)).isLt
  have hm4 := mode_code_lt i.mode
  rw [hd, hm] at hw
  refine (and_rowMask_eq_iff _ (by omega)).2 ⟨?_, ?_⟩ <;> omega

/-- Settles O3: the pattern under the mask is the word without field KC, so the seven rows leave
out exactly the MODE and DIR that are reserved in every build. -/
theorem decoderSelectsTheOpcodeRow : Obligations.DecoderSelectsTheOpcodeRow := by
  refine fun x w => ⟨fun i h => ?_, ?_⟩
  · obtain rfl := encode_of_decode h
    obtain ⟨_, hk, _, _⟩ := encode_fields i
    exact ⟨by rw [← hk, kcField_toNat], rowOf i, rowOf_mem_opcodeRows i, rfl, encode_and_mask i⟩
  · rw [decode_reserved_iff_toNat]
    simp only [opcodeRows, List.forall_mem_cons, List.not_mem_nil, false_imp_iff, implies_true,
      and_true, Ne, and_rowMask_eq_iff, Nat.reduceLT]
    cases x
    · simp only [and_true]
      omega
    · simp only [Bool.true_eq_false, and_false, or_false]
      omega

/-- Settles O4: the map is 21 fixed words, and the decoder computes on each. -/
theorem opcodeMapWordsDecode : Obligations.OpcodeMapWordsDecode := by
  unfold Obligations.OpcodeMapWordsDecode
  decide

/-! ## Accesses that are no host transaction (30_encoding R86) -/

/-- An operand register lies at a multiple of 8 below CMD (30_encoding R85). -/
theorem offset_bounds (r : OperandReg) : r.offset % 8 = 0 ∧ r.offset ≤ 0x30 := by
  cases r <;> decide

/-- Where in the window an access is. -/
def accessOffset : WindowAccess → Nat
  | .write offset _ _ => offset
  | .read offset _ => offset

/-- Its width in bits. -/
def accessWidth : WindowAccess → Nat
  | .write _ width _ => width
  | .read _ width => width

/-- The width and the offset of a host transaction. -/
theorem transaction_place {a : WindowAccess} {t : Transaction} (h : a.transaction = some t) :
    (accessWidth a = 64 ∧ accessOffset a % 8 = 0 ∧ (accessOffset a ≤ 0x30 ∨ accessOffset a = 0x40)) ∨
    (accessWidth a = 32 ∧ accessOffset a = 0x38) := by
  rcases transaction_some h with ⟨r, v, rfl, _⟩ | ⟨r, rfl, _⟩ | ⟨v, rfl, _⟩ | ⟨rfl, _⟩ | ⟨rfl, _⟩ |
    ⟨v, rfl, _⟩
  · exact .inl ⟨rfl, (offset_bounds r).1, .inl (offset_bounds r).2⟩
  · exact .inl ⟨rfl, (offset_bounds r).1, .inl (offset_bounds r).2⟩
  · exact .inr ⟨rfl, rfl⟩
  · exact .inr ⟨rfl, rfl⟩
  · exact .inl ⟨rfl, Nat.mod_eq_zero_of_dvd ⟨8, rfl⟩, .inr rfl⟩
  · exact .inl ⟨rfl, Nat.mod_eq_zero_of_dvd ⟨8, rfl⟩, .inr rfl⟩

/-- An access of another width or at another offset is PV12. -/
theorem windowAccess_other {a : WindowAccess}
    (h64 : ¬ (accessWidth a = 64 ∧ accessOffset a % 8 = 0 ∧
      (accessOffset a ≤ 0x30 ∨ accessOffset a = 0x40)))
    (h32 : ¬ (accessWidth a = 32 ∧ accessOffset a = 0x38)) (s : State) :
    windowAccess a s = refuse .pv12 := by
  have hnone : a.transaction = none :=
    Option.eq_none_iff_forall_ne_some.2 fun t ht => (transaction_place ht).elim h64 h32
  simp only [windowAccess, hnone]

/-- Settles O46: no host transaction has that offset and width. -/
theorem otherWindowAccessesAreRefused : Obligations.OtherWindowAccessesAreRefused :=
  fun s o w v h64 h32 => ⟨windowAccess_other (a := .write o w v) h64 h32 s,
    windowAccess_other (a := .read o w) h64 h32 s⟩

/-! ## The host's wait (30_encoding R89) -/

theorem engineTick_around (b : Bool) (ev : List Event) (r : Option Reply) :
    Function.Commute engineTick (around b ev r) := phaseAction_blind aes b ev r

/-- A poll of a busy engine is one phase action, the `wait` still the next event. -/
theorem step_of_wait_busy {s : State} {rest : List Event} (h : s.events = .wait :: rest)
    (hb : s.busy = true) :
    step s = .next (around s.unread (.wait :: rest) (some (.word 1#64)) (engineTick s)) := by
  have hpoll := hostWait_busy (G := hardware) (s := withEvents rest s) hb
  rw [readStatus_one (s := withEvents rest s) hb] at hpoll
  have htick := engineTick_around s.unread rest (some (.word 1#64)) s
  simp only [step, stepOf, h, runEvent]
  refine congrArg _ (hpoll.trans ?_)
  exact congrArg (withEvents (.wait :: rest)) htick

/-- The poll of an idle engine ends the `wait`. -/
theorem step_of_wait_idle {s : State} {rest : List Event} (h : s.events = .wait :: rest)
    (hb : s.busy = false) :
    step s = .next (around false rest (some (.word 0#64)) s) := by
  have hpoll := hostWait_idle (G := hardware) (s := withEvents rest s) hb
  rw [readStatus_zero (s := withEvents rest s) hb] at hpoll
  simp only [step, stepOf, h, runEvent]
  exact congrArg _ hpoll

/-- A bound on the phase actions left is of the engine alone. -/
theorem around_endsWithin {n : Nat} {s : State} (h : EndsWithin n s) (b : Bool) (ev : List Event)
    (r : Option Reply) : EndsWithin n (around b ev r s) := ⟨h.idle, h.blocks, h.left⟩

/-- The polls of a `wait` take phase actions until the command ends; one poll more ends the `wait`. -/
theorem run_of_wait {n : Nat} {s : State} {rest : List Event} (hn : EndsWithin n s)
    (h : s.events = .wait :: rest) :
    ∃ k, (engineTick^[k] s).busy = false ∧
      core.run (k + 1) s = .next (around false rest (some (.word 0#64)) (engineTick^[k] s)) := by
  induction n generalizing s with
  | zero =>
    have hb : s.busy = false := hn.idle.2 hn.phase_idle
    exact ⟨0, hb, run_succ (step_of_wait_idle h hb) 0⟩
  | succ n ih =>
    cases hb : s.busy with
    | false => exact ⟨0, hb, run_succ (step_of_wait_idle h hb) 0⟩
    | true =>
      have hleft : EndsWithin n (around s.unread (.wait :: rest) (some (.word 1#64)) (engineTick s)) :=
        around_endsWithin (phaseAction_endsWithin aes hn) _ _ _
      obtain ⟨k, hk, hrun⟩ := ih hleft rfl
      rw [(engineTick_around _ _ _).iterate_left k (engineTick s)] at hk hrun
      exact ⟨k + 1, hk, (run_succ (step_of_wait_busy h hb) (k + 1)).trans hrun⟩

/-- Settles O48: the invariant bounds the phase actions left, so the polls end. -/
theorem waitEndsWithTheCommand : Obligations.WaitEndsWithTheCommand := by
  intro s rest hinv h
  obtain ⟨k, hidle, hrun⟩ := run_of_wait (inv_endsWithin hinv) h
  exact ⟨k + 1, k, hidle, hrun⟩

/-! ## The placing of a table word (log entries 6, 7) -/

theorem toOption_eq_some_iff {d : Decoded} {i : Instr} :
    d.toOption = some i ↔ d = .command i := by
  cases d <;> simp [Decoded.toOption]

/-- A table word of 32 bits is the encoding of its command. -/
theorem encode_of_tableWord {w : Nat} {i : Instr} (h : decodeTableWord 32 w = some i) :
    BitVec.ofNat 32 (w % 2 ^ 32) = encode i := by
  unfold decodeTableWord at h
  split at h
  · exact encode_of_decode (toOption_eq_some_iff.1 h)
  · cases h

/-- The build that the placing selects has the command. -/
theorem wf_withFetchWord {s : State} {w : Nat} {i : Instr} (h : decodeTableWord 32 w = some i) :
    i.wf (s.withFetchWord 32 w).params.xtsDecPresent = true := by
  cases i with
  | xtsDec kc => simp [State.withFetchWord, placeCommand, h, Instr.wf]
  | _ => rfl

/-- Settles O6: the placed call is of the command's encoding, which the build placed with it decodes. -/
theorem fetchWordStepRunsTheCommand : Obligations.FetchWordStepRunsTheCommand := by
  refine fun s w i h => ⟨?_, rfl, rfl⟩
  have hd := decode_encode (wf_withFetchWord (s := s) h)
  rw [← encode_of_tableWord h] at hd
  exact stepRunsTheDecodedCommand _ _ i s.events rfl rfl rfl hd

end Sys2Proof.Machine
end

section
/-! PROOFS. The Block Core (spec/40_block_core.md): the sequence of E from its round keys, and the worked
trace of R111 over the generated schedule of the zero key. -/

namespace Sys2Proof.Machine

/-! ## The states of a sequence of rounds (R101, R102) -/

/-- A sequence of states that starts at the input and goes on by the round of each next round key is
what the rounds leave. -/
theorem roundsUpTo_eq_of_states {f : Block → Block → Block} {m : Memory} {ka n r : Nat}
    {states : Nat → Block} (h : ∀ r < n, f (states r) (roundKey m ka (r + 1)) = states (r + 1))
    (hr : r ≤ n) : roundsUpTo f m ka r (states 0) = states r := by
  induction r with
  | zero => rfl
  | succ r ih => rw [roundsUpTo, ih (by omega), h r (by omega)]

/-! ## The worked trace (R111) -/

/-- KA.E of 95_test_vectors section 3, round key `r` at index `r`. -/
def zeroKeySchedule : List Block :=
  [toBe128 0x00000000000000000000000000000000, toBe128 0x62636363626363636263636362636363,
   toBe128 0x9b9898c9f9fbfbaa9b9898c9f9fbfbaa, toBe128 0x90973450696ccffaf2f457330b0fac99,
   toBe128 0xee06da7b876a1581759e42b27e91ee2b, toBe128 0x7f2e2b88f8443e098dda7cbbf34b9290,
   toBe128 0xec614b851425758c99ff09376ab49ba7, toBe128 0x217517873550620bacaf6b3cc61bf09b,
   toBe128 0x0ef903333ba9613897060a04511dfa9f, toBe128 0xb1d4d8e28a7db9da1d7bb3de4c664941,
   toBe128 0xb4ef5bcb3e92e21123e951cf6f8f188e]

/-- The states of R111 before the last round, step `r` at index `r`. -/
def zeroKeyTrace : List Block :=
  [toBe128 0x00000000000000000000000000000000, toBe128 0x01000000010000000100000001000000,
   toBe128 0xc6e4e48ba48787e8c6e4e48ba48787e8, toBe128 0x282df3c46af386254a4e90a70890e546,
   toBe128 0xabd2cdfe375ab54950a0afc0759a6a5f, toBe128 0xd46f4f6c55b896337e05bb3d7979de23,
   toBe128 0x04f2ca9707782845e22f019649c5d710, toBe128 0xb7aae4c51d252d4f6c920f8194e58150,
   toBe128 0x23e78c3c132163dbaac0c6572e03cb95, toBe128 0x7ffe0e9551a566350e347c472929eccb]

/-- The generator lays out the printed schedule (46 R215). -/
theorem encryptionKey_zero : ∀ r < 11,
    encryptionKey .k128 (List.replicate 16 0#8) r = zeroKeySchedule.getD r zeroBlock := by
  decide +kernel

theorem zeroKeyTrace_keyMix :
    xor16 zeroBlock (zeroKeySchedule.getD 0 zeroBlock) = zeroKeyTrace.getD 0 zeroBlock := by
  decide +kernel

theorem zeroKeyTrace_round : ∀ r < 9,
    aes.round (zeroKeyTrace.getD r zeroBlock) (zeroKeySchedule.getD (r + 1) zeroBlock) =
      zeroKeyTrace.getD (r + 1) zeroBlock := by
  decide +kernel

theorem zeroKeyTrace_lastRound :
    aes.lastRound (zeroKeyTrace.getD 9 zeroBlock) (zeroKeySchedule.getD 10 zeroBlock) =
      toBe128 0x66e94bd4ef8a2c3b884cfa59ca342b2e := by
  decide +kernel

/-- Settles O59: the schedule in memory reads back as printed, and each printed state is the round of
the one before it. -/
theorem zeroKeyZeroBlockTrace : Obligations.ZeroKeyZeroBlockTrace := by
  unfold Obligations.ZeroKeyZeroBlockTrace
  intro m
  have hkey : ∀ r < 11, roundKey m 0 r = zeroKeySchedule.getD r zeroBlock := fun r hr =>
    (roundKey_storeSchedule Memory.wf_nil (by omega)).trans (encryptionKey_zero r hr)
  have hround : ∀ r < 9, aes.round (zeroKeyTrace.getD r zeroBlock) (roundKey m 0 (r + 1)) =
      zeroKeyTrace.getD (r + 1) zeroBlock := fun r hr =>
    hkey (r + 1) (by omega) ▸ zeroKeyTrace_round r hr
  have hstart : xor16 zeroBlock (roundKey m 0 0) = zeroKeyTrace.getD 0 zeroBlock := by
    rw [hkey 0 (by decide), zeroKeyTrace_keyMix]
  have hstate : ∀ r ≤ 9, roundsUpTo aes.round m 0 r (xor16 zeroBlock (roundKey m 0 0)) =
      zeroKeyTrace.getD r zeroBlock := fun r hr =>
    hstart ▸ roundsUpTo_eq_of_states hround hr
  constructor
  · calc (List.range 10).map (fun r => roundsUpTo aes.round m 0 r (xor16 zeroBlock (roundKey m 0 0)))
      _ = (List.range 10).map (fun r => zeroKeyTrace.getD r zeroBlock) :=
        List.map_congr_left fun r hr => hstate r (Nat.le_of_lt_succ (List.mem_range.1 hr))
      _ = zeroKeyTrace := rfl
  · rw [blockE, hstate 9 le_rfl, hkey 10 (by decide)]
    exact zeroKeyTrace_lastRound

end Sys2Proof.Machine
end

section
/-! PROOFS. The arithmetic units (spec/41_arith_units.md): the laws of the XOR unit, the counter
increment modulo 2^128, and GF(2^128) doubling in its three forms with its iteration. -/

namespace Sys2Proof.Machine

/-! ## The XOR unit (R120, R121) -/

@[simp] theorem zeroBlock_getElem (i : Nat) (h : i < 16) : zeroBlock[i] = 0#8 := by
  simp [zeroBlock]

@[simp] theorem xor16_self (a : Block) : xor16 a a = zeroBlock := by
  ext i h
  simp

@[simp] theorem xor16_zeroBlock (a : Block) : xor16 a zeroBlock = a := by
  ext i h
  simp

theorem xor16_comm (a b : Block) : xor16 a b = xor16 b a := by
  ext i h
  simp [BitVec.xor_comm]

theorem xor16_assoc (a b c : Block) : xor16 (xor16 a b) c = xor16 a (xor16 b c) := by
  ext i h
  simp [BitVec.xor_assoc]

theorem xorn_length {a b : Block} {n : Nat} (h : n ≤ 16) : (xorn a b n).length = n := by
  simp [xorn, h]

theorem xorn_getElem? {a b : Block} {n i : Nat} (h : i < 16) (hi : i < n) :
    (xorn a b n)[i]? = some (a[i] ^^^ b[i]) := by
  rw [xorn, List.getElem?_take_of_lt hi, List.getElem?_eq_getElem (by simpa using h)]
  simp

theorem xorn_sixteen (a b : Block) : xorn a b 16 = (xor16 a b).toList :=
  List.take_of_length_le (by simp)

/-- Settles O52: each law is the law of exclusive-or of bytes at every index. -/
theorem xorUnitLaws : Obligations.XorUnitLaws := fun a b c _ =>
  ⟨xor16_getElem a b, xor16_self a, xor16_zeroBlock a, xor16_cancel_right a b, xor16_comm a b,
    xor16_assoc a b c, fun hn => ⟨xorn_length hn, fun _ h hi => xorn_getElem? h hi⟩,
    xorn_sixteen a b, List.take_zero⟩

/-! ## The counter increment (R125 to R128) -/

theorem incCarry_eq_one_iff (lo' : Word64) : incCarry lo' = 1#64 ↔ lo' = 0#64 := by
  unfold incCarry
  split <;> simp [*]

/-- The low segment wraps to 0 exactly from its last value (R126). -/
theorem lowSegment_wraps_iff (lo : Word64) : lo + 1#64 = 0#64 ↔ lo.toNat = 2 ^ 64 - 1 := by
  have hlo := lo.isLt
  rw [← BitVec.toNat_inj, BitVec.toNat_add, BitVec.toNat_ofNat, BitVec.toNat_ofNat]
  omega

/-- The counter goes on from 0 after `2^128 - 1` (R127). -/
theorem toWire_inc128_last :
    toWire (inc128 (toArith (Vector.replicate 16 0xFF#8))) = zeroBlock := by
  have hlast : be128 (Vector.replicate 16 0xFF#8) = 2 ^ 128 - 1 := by decide
  have hzero : toBe128 0 = zeroBlock := by decide
  rw [toWire_eq, value_inc128, toArith_value, hlast]
  exact hzero

/-- Settles O54: the carry is set where the low segment wraps, so the value goes up by one modulo
`2^128`, and the closed forms are its iteration. -/
theorem counterIncrementsModulo2Pow128 : Obligations.CounterIncrementsModulo2Pow128 :=
  ⟨fun c => ⟨value_inc128 c, (incCarry_eq_one_iff _).trans (lowSegment_wraps_iff c.lo),
      incCarry_eq_one_iff _, rfl⟩,
    value_inc128_iterate, toWire_iterate, toWire_inc128_last⟩

/-! ## A Block and its integer -/

theorem le128_injective : Function.Injective le128 :=
  Function.LeftInverse.injective toLe128_le128

/-- There are finitely many Blocks: each is an integer below `2^128`. -/
theorem finite_block : Finite Block :=
  Finite.of_injective (fun b => (⟨le128 b, le128_lt b⟩ : Fin (2 ^ 128))) fun _ _ h =>
    le128_injective (congrArg Fin.val h)

/-- Byte `i` of a Block as a digit of its little-endian integer. -/
theorem toNat_getElem_eq_le128 (b : Block) (i : Nat) (h : i < 16) :
    b[i].toNat = le128 b / 256 ^ i % 256 := by
  have hbyte := leNat_byte b.toList i (by simpa using h)
  rw [Vector.getElem_toList] at hbyte
  rw [← hbyte, BitVec.toNat_ofNat, le128]

theorem toLe128_xor (x y : Nat) : toLe128 (x ^^^ y) = xor16 (toLe128 x) (toLe128 y) := by
  refine Vector.ext fun i h => ?_
  have hpow : 256 ^ i = 2 ^ (8 * i) := Nat.pow_mul 2 8 i ▸ rfl
  simp [toLe128, hpow, Nat.xor_div_two_pow, BitVec.ofNat_xor]

/-- The XOR unit is exclusive-or of the Blocks' integers (R120). -/
theorem le128_xor16 (a b : Block) : le128 (xor16 a b) = le128 a ^^^ le128 b := by
  rw [← le128_toLe128 (Nat.xor_lt_two_pow (le128_lt a) (le128_lt b)), toLe128_xor, toLe128_le128,
    toLe128_le128]

/-! ## Doubling as an integer (R129) -/

/-- What the carry out of the shift adds: the reduction constant or nothing (R129). -/
def reduction (c : Nat) : Nat := if c = 1 then 0x87 else 0

theorem reduction_lt (c : Nat) : reduction c < 2 ^ 8 := by
  unfold reduction
  split <;> decide

/-- The reduction constant is odd, so its low bit is the carry. -/
theorem reduction_mod_two {c : Nat} (h : c < 2) : reduction c % 2 = c := by
  interval_cases c <;> rfl

theorem reduction_xor {c d : Nat} (hc : c < 2) (hd : d < 2) :
    reduction (c ^^^ d) = reduction c ^^^ reduction d := by
  interval_cases c <;> interval_cases d <;> rfl

theorem topBit_lt (b : Block) : le128 b / 2 ^ 127 < 2 := by
  have h := le128_lt b
  omega

/-- The doubled Block's integer (R129). -/
theorem le128_dbl (b : Block) :
    le128 (dbl b) = (2 * le128 b % 2 ^ 128) ^^^ reduction (le128 b / 2 ^ 127) := by
  have hred : reduction (le128 b / 2 ^ 127) < 2 ^ 128 :=
    (reduction_lt _).trans (by decide)
  have hshift : 2 * le128 b % 2 ^ 128 < 2 ^ 128 := Nat.mod_lt _ (by decide)
  rw [← le128_toLe128 (Nat.xor_lt_two_pow hshift hred), dbl, dblCarry, reduction]
  split
  · rfl
  · rw [Nat.xor_zero]

/-- Above the low byte, doubling is the shift alone. -/
theorem le128_dbl_div {b : Block} {n : Nat} (h : 8 ≤ n) :
    le128 (dbl b) / 2 ^ n = 2 * le128 b % 2 ^ 128 / 2 ^ n := by
  have hred : reduction (le128 b / 2 ^ 127) / 2 ^ n = 0 :=
    Nat.div_eq_of_lt ((reduction_lt _).trans_le (Nat.pow_le_pow_right (by decide) h))
  rw [le128_dbl, Nat.xor_div_two_pow, hred, Nat.xor_zero]

/-- At the low end the reduction comes in whole. -/
theorem le128_dbl_mod {b : Block} {n : Nat} (h : 8 ≤ n) (hn : n ≤ 128) :
    le128 (dbl b) % 2 ^ n = (2 * le128 b % 2 ^ n) ^^^ reduction (le128 b / 2 ^ 127) := by
  have hred : reduction (le128 b / 2 ^ 127) < 2 ^ n :=
    (reduction_lt _).trans_le (Nat.pow_le_pow_right (by decide) h)
  rw [le128_dbl, Nat.xor_mod_two_pow, Nat.mod_eq_of_lt hred,
    Nat.mod_mod_of_dvd _ (Nat.pow_dvd_pow 2 hn)]

/-- Bit 0 of the doubled Block is the carry (R130). -/
theorem le128_dbl_mod_two (b : Block) : le128 (dbl b) % 2 = le128 b / 2 ^ 127 := by
  have hred := reduction_mod_two (topBit_lt b)
  rw [le128_dbl, Nat.xor_mod_two_eq]
  omega

/-! ## Doubling by bytes and by segments (R130, R131) -/

/-- The top bit of a Block is bit 7 of byte 15. -/
theorem topBit_eq_byte (b : Block) : le128 b / 2 ^ 127 = b[15].toNat / 128 := by
  have h := le128_lt b
  have hbyte := toNat_getElem_eq_le128 b 15 (by decide)
  omega

theorem dbl_byte_zero (b : Block) :
    (dbl b)[0].toNat = (2 * b[0].toNat % 256) ^^^ reduction (b[15].toNat / 128) := by
  have hlow : (dbl b)[0].toNat = le128 (dbl b) % 2 ^ 8 := by
    simpa using toNat_getElem_eq_le128 (dbl b) 0 (by decide)
  have hbyte := toNat_getElem_eq_le128 b 0 (by decide)
  have hshift : 2 * le128 b % 2 ^ 8 = 2 * b[0].toNat % 256 := by omega
  rw [hlow, le128_dbl_mod (by decide) (by decide), topBit_eq_byte, hshift]

theorem dbl_byte_zero_mod_two (b : Block) : (dbl b)[0].toNat % 2 = b[15].toNat / 128 := by
  have hred := reduction_mod_two (topBit_lt b)
  rw [dbl_byte_zero, Nat.xor_mod_two_eq, ← topBit_eq_byte]
  omega

/-- A byte above the lowest of a doubled integer: its own seven low bits and the top bit of the byte
below. -/
theorem double_digit (t i : Nat) :
    2 * t / 256 ^ (i + 1) % 256 =
      2 * (t / 256 ^ (i + 1) % 256) % 256 + t / 256 ^ i % 256 / 128 := by
  have hhalf : 2 * t / 256 ^ (i + 1) = t / 256 ^ i / 128 := by
    rw [Nat.pow_succ, show 256 ^ i * 256 = 2 * (256 ^ i * 128) by omega,
      Nat.mul_div_mul_left _ _ (by decide), Nat.div_div_eq_div_mul]
  rw [hhalf, Nat.pow_succ, ← Nat.div_div_eq_div_mul]
  omega

theorem dbl_byte_succ (b : Block) (i : Nat) (h : i < 15) :
    (dbl b)[i + 1].toNat = 2 * b[i + 1].toNat % 256 + b[i].toNat / 128 := by
  have hpow : 256 ^ (i + 1) = 2 ^ (8 * (i + 1)) := Nat.pow_mul 2 8 (i + 1) ▸ rfl
  have hkept : 2 ^ 128 = 256 ^ (i + 1) * (256 * 256 ^ (14 - i)) := by
    rw [← Nat.pow_succ', ← Nat.pow_add, show i + 1 + (14 - i + 1) = 16 by omega]
    rfl
  rw [toNat_getElem_eq_le128 _ _ (by omega), toNat_getElem_eq_le128 b (i + 1) (by omega),
    toNat_getElem_eq_le128 b i (by omega), ← double_digit]
  calc le128 (dbl b) / 256 ^ (i + 1) % 256
    _ = 2 * le128 b % 2 ^ 128 / 256 ^ (i + 1) % 256 := by rw [hpow, le128_dbl_div (by omega)]
    _ = 2 * le128 b / 256 ^ (i + 1) % 256 := by
      rw [hkept, Nat.mod_mul_right_div_self, Nat.mod_mul_right_mod]

theorem dbl_high_segment (b : Block) :
    le128 (dbl b) / 2 ^ 64 =
      2 * (le128 b / 2 ^ 64) % 2 ^ 64 + le128 b % 2 ^ 64 / 2 ^ 63 := by
  rw [le128_dbl_div (by decide)]
  omega

theorem dbl_low_segment (b : Block) :
    le128 (dbl b) % 2 ^ 64 =
      (2 * (le128 b % 2 ^ 64) % 2 ^ 64) ^^^ reduction (le128 b / 2 ^ 64 / 2 ^ 63) := by
  rw [le128_dbl_mod (by decide) (by decide), Nat.div_div_eq_div_mul, ← Nat.pow_add,
    Nat.mul_mod_mod]

/-- Doubling can be undone: bit 0 gives back the carry, and the carry the reduction and the bit that
the shift drops (R130). -/
theorem dbl_injective : Function.Injective dbl := by
  intro a b h
  have htop : le128 a / 2 ^ 127 = le128 b / 2 ^ 127 := by
    rw [← le128_dbl_mod_two, h, le128_dbl_mod_two]
  have hshift : 2 * le128 a % 2 ^ 128 = 2 * le128 b % 2 ^ 128 := by
    have hle := congrArg le128 h
    rwa [le128_dbl, le128_dbl, htop, Nat.xor_left_inj] at hle
  apply le128_injective
  omega

theorem dbl_bijective : Function.Bijective dbl :=
  haveI := finite_block
  dbl_injective.bijective_of_finite

/-- Settles O55: the byte and the segment form read the integer form off at their digits, and an
injective map of the finitely many Blocks is a bijection. -/
theorem tweakDoublingInThreeForms : Obligations.TweakDoublingInThreeForms :=
  ⟨fun b => ⟨le128_dbl b, dbl_byte_zero b, dbl_byte_zero_mod_two b, dbl_byte_succ b,
    dbl_high_segment b, dbl_low_segment b⟩, dbl_bijective⟩

/-! ## Iterated doubling (R132) -/

theorem two_mul_xor (x y : Nat) : 2 * (x ^^^ y) = 2 * x ^^^ 2 * y := by
  simpa [Nat.shiftLeft_eq, Nat.mul_comm] using Nat.shiftLeft_xor_distrib (i := 1) (a := x) (b := y)

/-- The shift and the conditional reduction are both linear over XOR (R132). -/
theorem dbl_xor16 (a b : Block) : dbl (xor16 a b) = xor16 (dbl a) (dbl b) := by
  apply le128_injective
  simp only [le128_dbl, le128_xor16, two_mul_xor, Nat.xor_mod_two_pow, Nat.xor_div_two_pow,
    reduction_xor (topBit_lt a) (topBit_lt b)]
  ac_rfl

theorem dbl_zeroBlock : dbl zeroBlock = zeroBlock := by
  rw [← xor16_self zeroBlock, dbl_xor16, xor16_self, xor16_self]

/-- Settles O56: iteration composes, and keeps the two laws of one doubling. -/
theorem iteratedDoublingLaws : Obligations.IteratedDoublingLaws :=
  ⟨fun a b t => by rw [Nat.add_comm, Function.iterate_add_apply],
    Function.Semiconj₂.iterate dbl_xor16,
    Function.iterate_fixed dbl_zeroBlock⟩

end Sys2Proof.Machine
end

section
/-! PROOFS. The ECB driver (spec/42_ecb.md): what its commands compute, on one block and on none, the split
of a command into two, and the round trip. What is said of the halves of a range and of empty commands
holds of every mode. -/

namespace Sys2Proof.Machine

open Sys2Proof.Config (Params Region RoundPrims)
open Sys2Proof.Safety

/-! ## Output blocks (R141, R143) -/

/-- Each full block of the output range is that of the closed form. -/
theorem Output.outputBlock_eq {P : RoundPrims} {nr : Nat} {i : Instr} {f : OperandFile Word64}
    {m m' : Memory} (h : Output (outputByteOf P nr i f m) m f.dst.toNat f.len.toNat m') {j : Nat}
    (hj : j < blockCount f) : outputBlock f m' j = outputBlockOf P nr i f m j := by
  refine Vector.ext fun k hk => ?_
  have hlen : 16 * j + k < f.len.toNat := by rw [blockCount] at hj; omega
  have hdiv : (16 * j + k) / 16 = j := by omega
  have hmod : (16 * j + k) % 16 = k := by omega
  rw [outputBlock, readBlock_getElem, Nat.add_assoc, h.inside _ hlen]
  simp only [outputByteOf, hdiv, hmod]

/-- A Ready command completes, and its full output blocks are those of its closed form. -/
theorem exec_computes {i : Instr} {s : State} (hw : s.mem.Wf) (h : Ready i s) :
    ∃ t, exec i s = .next t ∧ ∀ j, j < blockCount s.regs → outputBlock s.regs t.mem j =
      outputBlockOf aes (rounds s.params i.keyClass) i s.regs s.mem j := by
  obtain ⟨t, ht, -, ho⟩ := exec_output h hw
  exact ⟨t, ht, fun _ => ho.outputBlock_eq⟩

/-- Settles O7: the closed form of `ecb.enc` is E of the input block. -/
theorem ecbEncComputes : Obligations.EcbEncComputes := fun _ _ => exec_computes

/-- Settles O8: the closed form of `ecb.dec` is D of the input block. -/
theorem ecbDecComputes : Obligations.EcbDecComputes := fun _ _ => exec_computes

/-! ## Commands over no block and over one (R145, R146) -/

/-- A body with neither a block nor a remainder to do writes nothing: the loop makes no turn, the tail is
skipped, and the tweak phases touch no memory. -/
theorem bodyOf_mem_of_empty (P : RoundPrims) (i : Instr) {s : State} (hnb : s.work.nb.toNat = 0)
    (hrem : s.work.rem = 0#4) : (bodyOf P i s).mem = s.mem := by
  have htweak : (tweakPhases P s).work.nb.toNat = 0 := by rw [(tweakPhases_control P s).nb, hnb]
  have hmem : (tweakPhases P s).mem = s.mem := (tweakPhases_spec P s).1
  cases i with
  | ecbEnc kc => simp only [bodyOf, ecbEncBody, hnb, Function.iterate_zero_apply]
  | ecbDec kc => simp only [bodyOf, ecbDecBody, hnb, Function.iterate_zero_apply]
  | cbcEnc kc => simp only [bodyOf, cbcEncBody, hnb, Function.iterate_zero_apply]
  | cbcDec kc => simp only [bodyOf, cbcDecBody, hnb, Function.iterate_zero_apply]
  | ctr kc => simp [bodyOf, ctrBody, ctrRemainder, hnb, hrem]
  | xtsEnc kc => simp only [bodyOf, xtsEncBody, xtsEncBlocks, htweak, Function.iterate_zero_apply, hmem]
  | xtsDec kc => simp only [bodyOf, xtsDecBody, xtsDecBlocks, htweak, Function.iterate_zero_apply, hmem]

/-- Settles O19: with LEN = 0 both NB and REM are 0. -/
theorem zeroLengthCommandsChangeNoMemory : Obligations.ZeroLengthCommandsChangeNoMemory := by
  intro i s h hlen
  have hnb : (loadPhase (issue i s)).work.nb.toNat = 0 := by rw [start_nb, blockCount, hlen]; rfl
  have hrem : (loadPhase (issue i s)).work.rem = 0#4 := by
    apply BitVec.eq_of_toNat_eq
    rw [start_rem, hlen]
    rfl
  refine ⟨_, exec_ready h, ?_⟩
  rw [complete_mem, bodyOf_mem_of_empty aes i hnb hrem, loadPhase_mem, issue_mem]

/-- The first block step of a body reads input block 0 and works under the data key of the registers at
issue. -/
theorem start_dataCore (P : RoundPrims) (d : Dir) (i : Instr) (s : State) :
    dataCore P d (loadPhase (issue i s)) (inputAt (loadPhase (issue i s))) =
      blockOp P d s.mem s.regs.key1.toNat (rounds s.params i.keyClass) (inputBlock s.regs s.mem 0) := by
  simp only [dataCore, inputAt, blockAddr_at (start_idx i s), inputBlock, loadPhase_mem, issue_mem,
    loadPhase_work_lat, issue_lat_key1, issue_lat_src, loadPhase_params, issue_params, loadPhase_work_kc,
    issue_kc]

/-- The first block step of a body writes block 0 of the output range. -/
theorem start_writes {i : Instr} {s t : State} {y : Block}
    (h : BlockEffect (loadPhase (issue i s)) t y) : t.mem = writeBlock s.mem s.regs.dst.toNat y := by
  rw [h.mem, blockAddr_at (start_idx i s), loadPhase_mem, issue_mem, loadPhase_work_lat, issue_lat_dst]
  rfl

/-- The body of a one-block ECB command makes one turn, which writes one Block. -/
theorem ecbBody_one_block (P : RoundPrims) {i : Instr} {s : State} (hi : i.mode = .ecb)
    (hlen : s.regs.len = 16#64) : (bodyOf P i (loadPhase (issue i s))).mem =
      writeBlock s.mem s.regs.dst.toNat
        (outputBlockOf P (rounds s.params i.keyClass) i s.regs s.mem 0) := by
  have hnb : (loadPhase (issue i s)).work.nb.toNat = 1 := by rw [start_nb, blockCount, hlen]; rfl
  cases i <;> simp only [Instr.mode, reduceCtorEq] at hi
  case ecbEnc kc =>
    rw [bodyOf, ecbEncBody, hnb, Function.iterate_one, start_writes (ecbEncBlock_effect P _),
      start_dataCore]
    rfl
  case ecbDec kc =>
    rw [bodyOf, ecbDecBody, hnb, Function.iterate_one, start_writes (ecbDecBlock_effect P _),
      start_dataCore]
    rfl

/-- A one-block ECB command writes its one output block and nothing else. -/
theorem exec_ecb_one_block {i : Instr} {s : State} (hi : i.mode = .ecb) (hlen : s.regs.len = 16#64)
    (h : Ready i s) : ∃ t, exec i s = .next t ∧ t.mem = writeBlock s.mem s.regs.dst.toNat
      (outputBlockOf aes (rounds s.params i.keyClass) i s.regs s.mem 0) :=
  ⟨_, exec_ready h, (complete_mem _).trans (ecbBody_one_block aes hi hlen)⟩

/-- Settles O20: both directions are the one turn of the loop. -/
theorem oneBlockEcbIsOneBlockOperation : Obligations.OneBlockEcbIsOneBlockOperation :=
  fun _ _ hlen => ⟨exec_ecb_one_block rfl hlen, exec_ecb_one_block rfl hlen⟩

/-! ## The two halves of a range -/

/-- The ranges `[x, x + n)` and `[y, y + k)` are the two halves of `[0, l)`, in either order. -/
def Halves (l x n y k : Nat) : Prop := l = n + k ∧ (x = 0 ∧ y = n ∨ y = 0 ∧ x = k)

theorem Halves.first {a b : Nat} : Halves (a + b) 0 a a b := ⟨rfl, .inl ⟨rfl, rfl⟩⟩

theorem Halves.symm {l x n y k : Nat} (h : Halves l x n y k) : Halves l y k x n :=
  ⟨by rw [h.1, Nat.add_comm], h.2.symm⟩

/-- Two outputs, one after the other, to the halves of a range make the output to the range. -/
theorem Output.of_halves {Y : Nat → Byte} {m m1 m2 mt : Memory} {d l x n y k : Nat}
    (h : Output Y m d l mt) (hxy : Halves l x n y k)
    (h1 : Output (fun j => Y (x + j)) m (d + x) n m1)
    (h2 : Output (fun j => Y (y + j)) m1 (d + y) k m2) : m2 = mt := by
  obtain ⟨hl, hor⟩ := hxy
  refine Memory.ext_get h2.wf h.wf fun a => ?_
  rw [h.get_eq, h2.get_eq, h1.get_eq]
  by_cases hy : d + y ≤ a ∧ a < d + y + k
  · rw [if_pos hy, if_pos (by omega), show y + (a - (d + y)) = a - d by omega]
  · rw [if_neg hy]
    by_cases hx : d + x ≤ a ∧ a < d + x + n
    · rw [if_pos hx, if_pos (by omega), show x + (a - (d + x)) = a - d by omega]
    · rw [if_neg hx, if_neg (by omega)]

section Kept

variable {p : Params} {md : Mode} {kc : KeyClass} {f : OperandFile Word64} (hf : OperandsLegal p md kc f)
  {Y : Nat → Byte} {m m1 : Memory} {x n : Nat} (ho : Output Y m (f.dst.toNat + x) n m1)
  (hfit : x + n ≤ f.len.toNat)
include hf ho hfit

/-- A command over part of a range leaves the input of the other parts as it was, in place or not
(20_memory R59). -/
theorem Output.input_kept {k : Nat} (hk : k < f.len.toNat) (hpart : k < x ∨ x + n ≤ k) :
    m1.get (f.src.toNat + k) = m.get (f.src.toNat + k) := by
  refine ho.frame _ fun hc => ?_
  rcases hf.overlap with h0 | h0 | h0
  · simp [h0] at hk
  · rw [h0] at hc; omega
  · refine h0 ⟨f.src.toNat + k, ?_, ?_⟩ <;> simp only [Inside, inputRegion, outputRegion] <;> omega

/-- It leaves the schedules as they were. -/
theorem Output.schedule_kept {g : Region} (hg : g ∈ scheduleRegions md (rounds p kc) f) {a : Nat}
    (ha : Inside g a) : m1.get a = m.get a := by
  refine ho.frame a fun hc => hf.schedules g hg ⟨a, ?_, ha⟩
  simp only [Inside, outputRegion]
  omega

end Kept

/-! ## An ECB command and its halves (R144) -/

/-- An ECB command over a portion has the output bytes of the whole command there: no block depends on
its place. -/
theorem outputByteOf_ecb_portion {f g : OperandFile Word64} {first bytes : Nat}
    (h : Portion f g first bytes) {i : Instr} (hi : i.mode = .ecb) (P : RoundPrims) (nr : Nat) (m : Memory)
    (k : Nat) : outputByteOf P nr i g m k = outputByteOf P nr i f m (16 * first + k) := by
  have hdiv : (16 * first + k) / 16 = first + k / 16 := by omega
  have hmod : (16 * first + k) % 16 = k % 16 := by omega
  have hin : inputBlock g m (k / 16) = inputBlock f m (first + k / 16) := by
    rw [inputBlock, inputBlock, h.src, Nat.mul_add, Nat.add_assoc]
  cases i <;> simp only [Instr.mode, reduceCtorEq] at hi
  case ecbEnc kc => simp only [outputByteOf, outputBlockOf, hdiv, hmod, hin, h.key1]
  case ecbDec kc => simp only [outputByteOf, outputBlockOf, hdiv, hmod, hin, h.key1]

/-- A Ready command over a portion, started in any memory, completes and outputs to the portion's range. -/
theorem exec_portion {i : Instr} {s g : State} {first bytes : Nat} {m : Memory} {Y : Nat → Byte}
    (hp : Portion s.regs g.regs first bytes) (hg : Ready i g) (hnr : g.params.nr = s.params.nr) (hm : m.Wf)
    (hY : ∀ k, k < bytes → outputByteOf aes (rounds s.params i.keyClass) i g.regs m k = Y k) :
    ∃ t, exec i { g with mem := m } = .next t ∧
      Output Y m (s.regs.dst.toNat + 16 * first) bytes t.mem := by
  have hready : Ready i { g with mem := m } := ready_of_registers hg ⟨rfl, rfl, rfl⟩ hg.idle
  obtain ⟨t, ht, -, ho⟩ := exec_output hready hm
  simp only [rounds_congr hnr, hp.dst, hp.len] at ho
  exact ⟨t, ht, ho.congr hY⟩

/-- The commands over the halves of an ECB command's range, one after the other, complete and leave the
memory that the whole command leaves. -/
theorem exec_ecb_halves {i : Instr} {s u w t : State} {x n y k : Nat} (hi : i.mode = .ecb) (hm : s.mem.Wf)
    (hs : exec i s = .next t) (hxy : Halves s.regs.len.toNat (16 * x) n (16 * y) k)
    (hpu : Portion s.regs u.regs x n) (hu : Ready i u) (hnu : u.params.nr = s.params.nr)
    (hpw : Portion s.regs w.regs y k) (hw : Ready i w) (hnw : w.params.nr = s.params.nr) :
    ∃ t1 t2, exec i { u with mem := s.mem } = .next t1 ∧
      exec i { w with mem := t1.mem } = .next t2 ∧ t2.mem = t.mem := by
  have ⟨hlen, hor⟩ := hxy
  have hlegal : OperandsLegal s.params i.mode i.keyClass s.regs := (exec_next hs).1.operands
  obtain ⟨t1, ht1, ho1⟩ := exec_portion hpu hu hnu hm fun j _ => outputByteOf_ecb_portion hpu hi aes _ _ j
  have hfit : 16 * x + n ≤ s.regs.len.toNat := by omega
  have hsame : SameReads i.mode (rounds s.params i.keyClass) w.regs t1.mem w.regs s.mem := by
    refine ⟨rfl, fun _ => rfl, fun j hj => ?_, fun h => absurd hi h, fun r hr => ?_,
      fun h => by simp [hi] at h⟩
    · rw [hpw.len] at hj
      rw [hpw.src, Nat.add_assoc]
      exact ho1.input_kept hlegal hfit (by omega) (by omega)
    · rw [hpw.key1]
      exact roundKey_congr (fun a h1 h2 => ho1.schedule_kept hlegal hfit
        (g := ⟨s.regs.key1.toNat, scheduleBytes (rounds s.params i.keyClass)⟩)
        (by simp [hi, scheduleRegions]) ⟨h1, h2⟩) hr
  obtain ⟨t2, ht2, ho2⟩ := exec_portion hpw hw hnw ho1.wf fun j hj =>
    (hsame.outputByteOf_eq aes hw.operands.length (hpw.len ▸ hj)).trans
      (outputByteOf_ecb_portion hpw hi aes _ _ j)
  exact ⟨t1, t2, ht1, ht2, (exec_next_output hm hs).of_halves hxy ho1 ho2⟩

/-- Settles O21: the halves in the order of their addresses, and in the other. -/
theorem ecbSplitsInEitherOrder : Obligations.EcbSplitsInEitherOrder := by
  intro i s u w a b hi hm hlen hnu hnw hpu hpw hs hu hw
  have hxy : Halves s.regs.len.toNat (16 * 0) (16 * a) (16 * a) (16 * b) := by
    rw [hlen, Nat.mul_add]
    exact .first
  exact ⟨_, exec_ready hs, exec_ecb_halves hi hm (exec_ready hs) hxy hpu hu hnu hpw hw hnw,
    exec_ecb_halves hi hm (exec_ready hs) hxy.symm hpw hw hnw hpu hu hnu⟩

/-! ## The round trip (R148) -/

/-- Settles O26: the input blocks of the second command are the output blocks of the first, and D undoes E
under the pair of schedules (40_block_core R106). -/
theorem ecbRoundTrip : Obligations.EcbRoundTrip := by
  intro kc s u t hm hs hnr hmem hu hsrc hlen ⟨hpair, _⟩
  have hot := exec_next_output hm hs
  obtain ⟨v, hv, hvblocks⟩ := exec_computes (hmem ▸ hot.wf) hu
  refine ⟨v, hv, fun j hj => ?_⟩
  have hin : inputBlock u.regs u.mem j =
      blockE aes s.mem s.regs.key1.toNat (rounds s.params kc) (inputBlock s.regs s.mem j) := by
    rw [inputBlock, hsrc, hmem]
    exact hot.outputBlock_eq hj
  calc outputBlock u.regs v.mem j
      = blockD aes u.mem u.regs.key1.toNat (rounds u.params kc) (inputBlock u.regs u.mem j) :=
        hvblocks j (by rwa [blockCount, hlen])
    _ = inputBlock s.regs s.mem j := by rw [hin, rounds_congr hnr, hpair]

end Sys2Proof.Machine
end

section
/-! PROOFS. The CBC driver (spec/43_cbc.md): the closed forms of its commands, a command and its two parts
in sequence, decryption block by block in any order, and the round trip. The parts and the one-block
commands are commands that continue another (`Continues`). -/

namespace Sys2Proof.Machine

open Sys2Proof.Config (Params Region RoundPrims)
open Sys2Proof.Safety

/-! ## The closed forms (R155) -/

/-- Settles O9: both closed forms are those of the master lemma, read off at block 0 and at a later
block. -/
theorem cbcClosedForm : Obligations.CbcClosedForm := by
  refine fun kc s hw => ⟨fun h => ?_, fun h => ?_⟩
  · obtain ⟨t, ht, hblocks⟩ := exec_computes hw h
    refine ⟨t, ht, fun j hj => ?_⟩
    cases j with
    | zero => exact hblocks 0 hj
    | succ j =>
      rw [if_neg j.succ_ne_zero, Nat.add_sub_cancel, hblocks j (by omega)]
      exact hblocks (j + 1) hj
  · obtain ⟨t, ht, hblocks⟩ := exec_computes hw h
    refine ⟨t, ht, fun j hj => ?_⟩
    cases j with
    | zero => exact hblocks 0 hj
    | succ j =>
      rw [if_neg j.succ_ne_zero, Nat.add_sub_cancel]
      exact hblocks (j + 1) hj

/-! ## A command that continues another (R157) -/

/-- The value FB holds before block `j` of a CBC command (R151, R153). -/
def feedbackOf (P : RoundPrims) (nr : Nat) (i : Instr) (f : OperandFile Word64) (m : Memory) (j : Nat) :
    Block :=
  match i.dir with
  | .encrypt => cbcChain P nr f m (seedBlock f m) j
  | .decrypt => previousBlock f m (seedBlock f m) j

section Feedback

variable (P : RoundPrims) (nr : Nat) (kc : KeyClass) (f : OperandFile Word64) (m : Memory) (j : Nat)

theorem feedbackOf_zero (i : Instr) : feedbackOf P nr i f m 0 = seedBlock f m := by
  unfold feedbackOf
  split <;> rfl

theorem feedbackOf_succ_enc :
    feedbackOf P nr (.cbcEnc kc) f m (j + 1) = outputBlockOf P nr (.cbcEnc kc) f m j := rfl

theorem feedbackOf_succ_dec : feedbackOf P nr (.cbcDec kc) f m (j + 1) = inputBlock f m j := rfl

theorem outputBlockOf_cbcEnc : outputBlockOf P nr (.cbcEnc kc) f m j =
    blockE P m f.key1.toNat nr (xor16 (inputBlock f m j) (feedbackOf P nr (.cbcEnc kc) f m j)) := rfl

theorem outputBlockOf_cbcDec : outputBlockOf P nr (.cbcDec kc) f m j =
    xor16 (blockD P m f.key1.toNat nr (inputBlock f m j)) (feedbackOf P nr (.cbcDec kc) f m j) := rfl

end Feedback

/-- A CBC command over operands `g` in memory `m'` does blocks `first` to `first + n - 1` of the command
over `f` in `m`: their input and the schedule are still there, and its seed is the feedback value before
block `first`. -/
structure Continues (P : RoundPrims) (nr : Nat) (i : Instr) (f : OperandFile Word64) (m : Memory)
    (first n : Nat) (g : OperandFile Word64) (m' : Memory) : Prop where
  portion : Portion f g first (16 * n)
  input   : ∀ k, 16 * first ≤ k → k < 16 * (first + n) →
    m'.get (f.src.toNat + k) = m.get (f.src.toNat + k)
  key1    : ∀ a, Inside ⟨f.key1.toNat, scheduleBytes nr⟩ a → m'.get a = m.get a
  seed    : seedBlock g m' = feedbackOf P nr i f m first

namespace Continues

variable {P : RoundPrims} {nr : Nat} {i : Instr} {f g : OperandFile Word64} {m m' : Memory}
  {first n k : Nat} (h : Continues P nr i f m first n g m')
include h

theorem inputBlock_eq (hk : k < n) : inputBlock g m' k = inputBlock f m (first + k) := by
  refine Vector.ext fun b hb => ?_
  simp only [inputBlock, readBlock_getElem, h.portion.src]
  rw [Nat.add_assoc _ (16 * (first + k)), ← h.input (16 * (first + k) + b) (by omega) (by omega)]
  congr 1
  omega

theorem blockE_eq (x : Block) : blockE P m' g.key1.toNat nr x = blockE P m f.key1.toNat nr x := by
  rw [h.portion.key1]
  exact blockE_congr (fun a h1 h2 => h.key1 a ⟨h1, h2⟩) x

theorem blockD_eq (x : Block) : blockD P m' g.key1.toNat nr x = blockD P m f.key1.toNat nr x := by
  rw [h.portion.key1]
  exact blockD_congr (fun a h1 h2 => h.key1 a ⟨h1, h2⟩) x

theorem feedbackOf_eq (hi : i.mode = .cbc) (hk : k ≤ n) :
    feedbackOf P nr i g m' k = feedbackOf P nr i f m (first + k) := by
  induction k with
  | zero => rw [feedbackOf_zero, h.seed, Nat.add_zero]
  | succ k ih =>
    have ih := ih (by omega)
    cases i <;> simp only [Instr.mode, reduceCtorEq] at hi
    case cbcEnc kc =>
      rw [← Nat.add_assoc, feedbackOf_succ_enc, feedbackOf_succ_enc, outputBlockOf_cbcEnc,
        outputBlockOf_cbcEnc, h.inputBlock_eq hk, ih, h.blockE_eq]
    case cbcDec kc =>
      rw [← Nat.add_assoc, feedbackOf_succ_dec, feedbackOf_succ_dec, h.inputBlock_eq hk]

theorem outputBlockOf_eq (hi : i.mode = .cbc) (hk : k < n) :
    outputBlockOf P nr i g m' k = outputBlockOf P nr i f m (first + k) := by
  have hin := h.inputBlock_eq hk
  have hfb := h.feedbackOf_eq hi hk.le
  cases i <;> simp only [Instr.mode, reduceCtorEq] at hi
  case cbcEnc kc => rw [outputBlockOf_cbcEnc, outputBlockOf_cbcEnc, hin, hfb, h.blockE_eq]
  case cbcDec kc => rw [outputBlockOf_cbcDec, outputBlockOf_cbcDec, hin, hfb, h.blockD_eq]

theorem outputByteOf_eq (hi : i.mode = .cbc) (hk : k < 16 * n) :
    outputByteOf P nr i g m' k = outputByteOf P nr i f m (16 * first + k) := by
  have hdiv : (16 * first + k) / 16 = first + k / 16 := by omega
  have hmod : (16 * first + k) % 16 = k % 16 := by omega
  simp only [outputByteOf, hdiv, hmod, h.outputBlockOf_eq hi (k := k / 16) (by omega)]

end Continues

/-- The output of the command over the first `a` blocks leaves for the next command, as its seed, the
feedback value of the whole command before block `a`. -/
theorem Continues.feedbackOf_lastBlock {P : RoundPrims} {nr : Nat} {i : Instr}
    {f g : OperandFile Word64} {m m1 : Memory} {a : Nat} (h : Continues P nr i f m 0 a g m)
    (hi : i.mode = .cbc) (ha : 0 < a)
    (ho : Output (outputByteOf P nr i g m) m g.dst.toNat g.len.toNat m1) :
    feedbackOf P nr i f m a = match i.dir with
      | .encrypt => outputBlock f m1 (a - 1)
      | .decrypt => inputBlock f m (a - 1) := by
  obtain ⟨c, rfl⟩ := Nat.exists_eq_add_one.2 ha
  cases i <;> simp only [Instr.mode, reduceCtorEq] at hi
  case cbcEnc kc =>
    have hcount : c < blockCount g := by rw [blockCount, h.portion.len]; omega
    have hdst : outputBlock g m1 c = outputBlock f m1 c := by rw [outputBlock, h.portion.dst]; rfl
    have hblock := h.outputBlockOf_eq rfl (Nat.lt_succ_self c)
    rw [Nat.zero_add] at hblock
    exact hblock.symm.trans ((ho.outputBlock_eq hcount).symm.trans hdst)
  case cbcDec kc => rfl

/-- A Ready command that continues another completes and outputs that one's bytes to its part of the
range. -/
theorem exec_continues {i : Instr} {s g : State} {m : Memory} {first n : Nat}
    (h : Continues aes (rounds s.params i.keyClass) i s.regs s.mem first n g.regs m) (hi : i.mode = .cbc)
    (hg : Ready i g) (hnr : g.params.nr = s.params.nr) (hm : m.Wf) :
    ∃ t, exec i { g with mem := m } = .next t ∧
      Output (fun k => outputByteOf aes (rounds s.params i.keyClass) i s.regs s.mem (16 * first + k)) m
        (s.regs.dst.toNat + 16 * first) (16 * n) t.mem :=
  exec_portion h.portion hg hnr hm fun _ => h.outputByteOf_eq hi

/-- Settles O22: both commands continue the whole one, the first at block 0 and the second at block `a`,
and their outputs are the halves of its output. -/
theorem cbcContinuesFromTheLastCiphertextBlock :
    Obligations.CbcContinuesFromTheLastCiphertextBlock := by
  intro i s u w t1 a b hi hm ha hlen hnu hnw hpu hpw hs hu hw hseed ht1 hlast
  have hlegal := hs.operands
  have hcu : Continues aes (rounds s.params i.keyClass) i s.regs s.mem 0 a u.regs s.mem :=
    ⟨hpu, fun _ _ _ => rfl, fun _ _ => rfl, hseed.trans (feedbackOf_zero ..).symm⟩
  obtain ⟨t1', ht1', ho1⟩ := exec_continues hcu hi hu hnu hm
  obtain rfl : t1' = t1 := Host.Outcome.next.inj (ht1'.symm.trans ht1)
  have hou := exec_next_output (s := { u with mem := s.mem }) hm ht1
  simp only [rounds_congr hnu] at hou
  have hcw : Continues aes (rounds s.params i.keyClass) i s.regs s.mem a b w.regs t1'.mem := by
    refine ⟨hpw, fun k h1 h2 => ho1.input_kept hlegal (by omega) (by omega) (by omega),
      fun x hx => ho1.schedule_kept hlegal (by omega) ?_ hx, ?_⟩
    · simp [hi, scheduleRegions]
    · exact hlast.trans (hcu.feedbackOf_lastBlock hi ha hou).symm
  obtain ⟨t2, ht2, ho2⟩ := exec_continues hcw hi hw hnw ho1.wf
  have hxy : Halves s.regs.len.toNat (16 * 0) (16 * a) (16 * a) (16 * b) := by
    rw [hlen, Nat.mul_add]
    exact .first
  exact ⟨_, t2, exec_ready hs, ht2, (exec_next_output hm (exec_ready hs)).of_halves hxy ho1 ho2⟩

/-! ## The operands of a one-block command (R156) -/

/-- `g` is a non-empty part of the range `h`. -/
structure PartOf (g h : Region) : Prop where
  nonempty : 0 < g.size
  base     : h.base ≤ g.base
  top      : g.base + g.size ≤ h.base + h.size

namespace PartOf

variable {g h : Region}

theorem refl (hg : 0 < g.size) : PartOf g g := ⟨hg, le_rfl, le_rfl⟩

theorem inside (hp : PartOf g h) {a : Nat} (ha : Inside g a) : Inside h a :=
  ⟨hp.base.trans ha.1, ha.2.trans_le hp.top⟩

theorem valid (hp : PartOf g h) {p : Params} (hv : Valid p h) : Valid p g :=
  ⟨hp.top.trans hv.1, fun a ha => hv.2 a (hp.inside ha)⟩

theorem shareByte {g' h' : Region} (hp : PartOf g h) (hp' : PartOf g' h') (hs : ShareByte g g') :
    ShareByte h h' := by
  obtain ⟨a, ha, ha'⟩ := hs
  exact ⟨a, hp.inside ha, hp'.inside ha'⟩

end PartOf

/-- Block `j` of a range of full blocks is part of it. -/
theorem partOf_block {base len j : Nat} (hj : 16 * j + 16 ≤ len) :
    PartOf ⟨base + 16 * j, 16⟩ ⟨base, len⟩ :=
  ⟨Nat.succ_pos 15, Nat.le_add_right .., by simp only; omega⟩

/-- A full block lies within its range. -/
theorem block_fits {f : OperandFile Word64} {j : Nat} (hj : j < blockCount f) :
    16 * j + 16 ≤ f.len.toNat := by
  rw [blockCount] at hj
  omega

/-- A legal length outside `ctr` is a number of full blocks (not PV2). -/
theorem legal_len_eq {p : Params} {md : Mode} {kc : KeyClass} {f : OperandFile Word64}
    (h : OperandsLegal p md kc f) (hm : md ≠ .ctr) : f.len.toNat = 16 * blockCount f := by
  have hlen := h.length hm
  rw [blockCount]
  omega

section BlockOperands

variable {p : Params} {kc : KeyClass} {f : OperandFile Word64} (hl : OperandsLegal p .cbc kc f)
  (haw : p.aw ≤ 64) {j : Nat} (hj : j < blockCount f)
include hl haw hj

/-- Block addresses of a legal range do not wrap in a 64-bit register (20_memory R53). -/
theorem toNat_blockAddress {base : Word64}
    (hg : ⟨base.toNat, f.len.toNat⟩ ∈ footprint .cbc (rounds p kc) f) {k : Nat} (hk : k ≤ j) :
    (base + BitVec.ofNat 64 (16 * k)).toNat = base.toNat + 16 * k := by
  have htop : base.toNat + f.len.toNat ≤ 2 ^ p.aw := (hl.valid _ hg).1
  have hspace : 2 ^ p.aw ≤ 2 ^ 64 := Nat.pow_le_pow_right (by decide) haw
  have hblock := block_fits hj
  rw [BitVec.toNat_add, BitVec.toNat_ofNat]
  omega

theorem cbcDecBlockOperands_src : (cbcDecBlockOperands f j).src.toNat = f.src.toNat + 16 * j :=
  toNat_blockAddress hl haw hj (by simp [footprint, readRegions, inputRegion]) le_rfl

theorem cbcDecBlockOperands_dst : (cbcDecBlockOperands f j).dst.toNat = f.dst.toNat + 16 * j :=
  toNat_blockAddress hl haw hj (by simp [footprint, outputRegion]) le_rfl

theorem cbcDecBlockOperands_portion : Portion f (cbcDecBlockOperands f j) j (16 * 1) :=
  ⟨cbcDecBlockOperands_src hl haw hj, cbcDecBlockOperands_dst hl haw hj, rfl, rfl⟩

theorem cbcDecBlockOperands_seed : (cbcDecBlockOperands f j).seed.toNat =
    if j = 0 then f.seed.toNat else f.src.toNat + 16 * (j - 1) := by
  rw [cbcDecBlockOperands]
  split
  · rfl
  · exact toNat_blockAddress hl haw hj (by simp [footprint, readRegions, inputRegion]) (Nat.sub_le ..)

/-- The seed of the command for block `j` is the ciphertext block before it. -/
theorem seedBlock_cbcDecBlockOperands (m : Memory) :
    seedBlock (cbcDecBlockOperands f j) m = previousBlock f m (seedBlock f m) j := by
  rw [seedBlock, cbcDecBlockOperands_seed hl haw hj]
  cases j <;> rfl

/-- Every range of the footprint of a one-block command is part of one of the whole command's. -/
theorem cbcDecBlockOperands_footprint {g : Region}
    (hg : g ∈ footprint .cbc (rounds p kc) (cbcDecBlockOperands f j)) :
    ∃ h ∈ footprint .cbc (rounds p kc) f, PartOf g h := by
  have hblock : ∀ k, k ≤ j → 16 * k + 16 ≤ f.len.toNat := fun k hk => block_fits (hk.trans_lt hj)
  simp only [footprint, readRegions, scheduleRegions, seedRegions, List.cons_append, List.nil_append,
    List.mem_cons, List.not_mem_nil, or_false, exists_eq_or_imp, exists_eq_left] at hg ⊢
  rcases hg with rfl | rfl | rfl | rfl
  · left
    rw [outputRegion, cbcDecBlockOperands_dst hl haw hj]
    exact partOf_block (hblock j le_rfl)
  · right; left
    rw [inputRegion, cbcDecBlockOperands_src hl haw hj]
    exact partOf_block (hblock j le_rfl)
  · right; right; left
    exact .refl (by simp [scheduleBytes])
  · rw [cbcDecBlockOperands_seed hl haw hj]
    split
    · right; right; right
      exact .refl (Nat.succ_pos 15)
    · right; left
      exact partOf_block (hblock _ (Nat.sub_le ..))

/-- The one-block commands are legal where the whole command is and does not write its own input. -/
theorem cbcDecBlockOperands_legal (hio : ¬ ShareByte (inputRegion f) (outputRegion f)) :
    OperandsLegal p .cbc kc (cbcDecBlockOperands f j) := by
  have hblock := block_fits hj
  have hin : PartOf (inputRegion (cbcDecBlockOperands f j)) (inputRegion f) := by
    rw [inputRegion, cbcDecBlockOperands_src hl haw hj]
    exact partOf_block hblock
  have hout : PartOf (outputRegion (cbcDecBlockOperands f j)) (outputRegion f) := by
    rw [outputRegion, cbcDecBlockOperands_dst hl haw hj]
    exact partOf_block hblock
  have hvalid : ∀ g ∈ footprint .cbc (rounds p kc) (cbcDecBlockOperands f j),
      0 < g.size ∧ Valid p g := by
    intro g hg
    obtain ⟨h, hh, hp⟩ := cbcDecBlockOperands_footprint hl haw hj hg
    exact ⟨hp.nonempty, hp.valid (hl.valid h hh)⟩
  exact {
    length := fun _ => by rw [(cbcDecBlockOperands_portion hl haw hj).len]
    overlap := .inr (.inr fun hs => hio (hin.shareByte hout hs))
    inSpace := fun g hg => (Nat.lt_add_of_pos_right (hvalid g hg).1).trans_le (hvalid g hg).2.1
    valid := fun g hg => (hvalid g hg).2
    schedules := by
      rintro g hg ⟨a, ha, hga⟩
      exact hl.schedules g hg ⟨a, hout.inside ha, hga⟩
    aligned := hl.aligned }

end BlockOperands

/-! ## One-block commands in any order (R156) -/

/-- Memory `m'` is `m` with the blocks of a list written, their bytes counted from `d` by `Y`. -/
structure WritesBlocks (Y : Nat → Byte) (m : Memory) (d : Nat) (js : List Nat) (m' : Memory) : Prop where
  wf  : m'.Wf
  get : ∀ a, m'.get a = if d ≤ a ∧ (a - d) / 16 ∈ js then Y (a - d) else m.get a

namespace WritesBlocks

variable {Y : Nat → Byte} {m m1 m2 : Memory} {d j n : Nat} {js : List Nat}

theorem nil (h : m.Wf) : WritesBlocks Y m d [] m := ⟨h, fun a => by simp⟩

/-- One block written, then those of a list. -/
theorem cons (h1 : Output (fun k => Y (16 * j + k)) m (d + 16 * j) 16 m1)
    (h2 : WritesBlocks Y m1 d js m2) : WritesBlocks Y m d (j :: js) m2 := by
  refine ⟨h2.wf, fun a => ?_⟩
  rw [h2.get, h1.get_eq]
  simp only [List.mem_cons]
  by_cases hjs : d ≤ a ∧ (a - d) / 16 ∈ js
  · rw [if_pos hjs, if_pos ⟨hjs.1, .inr hjs.2⟩]
  · rw [if_neg hjs]
    by_cases hj : d + 16 * j ≤ a ∧ a < d + 16 * j + 16
    · rw [if_pos hj, if_pos ⟨by omega, .inl (by omega)⟩,
        show 16 * j + (a - (d + 16 * j)) = a - d by omega]
    · rw [if_neg hj, if_neg]
      rintro ⟨hd, he | he⟩
      · omega
      · exact hjs ⟨hd, he⟩

/-- All the blocks of a range written, in any order, are the output to the range. -/
theorem eq_output (h : WritesBlocks Y m d js m2) (hjs : js.Perm (List.range n))
    (ho : Output Y m d (16 * n) m1) : m2 = m1 := by
  refine Memory.ext_get h.wf ho.wf fun a => ?_
  have hiff : (d ≤ a ∧ (a - d) / 16 ∈ js) ↔ (d ≤ a ∧ a < d + 16 * n) := by
    rw [hjs.mem_iff, List.mem_range]
    omega
  rw [h.get, ho.get_eq]
  simp only [hiff]

end WritesBlocks

/-- A Ready command of full blocks, over any round primitives, completes, keeps the registers, and outputs
its closed form. -/
theorem runCommand_output (P : RoundPrims) {i : Instr} {s : State} (h : Ready i s) (hw : s.mem.Wf)
    (hm : i.mode ≠ .ctr) : ∃ t, runCommand i (bodyOf P i) s = .next t ∧ SameRegisters s t ∧
      t.busy = false ∧ Output (outputByteOf P (rounds s.params i.keyClass) i s.regs s.mem) s.mem
        s.regs.dst.toNat s.regs.len.toNat t.mem := by
  have hc := (bodyOf_control P i (loadPhase (issue i s))).registers
  refine ⟨_, runCommand_ready h, ?_, complete_busy _, ?_⟩
  · constructor <;> simp [hc.params, hc.regs, hc.written]
  · rw [complete_mem]
    exact (body_progress P h hw hm).output (legal_len_eq h.operands hm)

/-- What the one-block commands of `cbc.dec` over the operands of `s` leave as it was: the engine idle, its
build and marks, and memory outside the output range. -/
structure Between (s v : State) : Prop where
  idle    : v.busy = false
  params  : v.params = s.params
  written : v.written = s.written
  wf      : v.mem.Wf
  frame   : ∀ a, ¬ Inside (outputRegion s.regs) a → v.mem.get a = s.mem.get a

section BlockCommands

variable (P : RoundPrims) {kc : KeyClass} {s v : State} (hs : Ready (.cbcDec kc) s)
  (haw : s.params.aw ≤ 64) (hio : ¬ ShareByte (inputRegion s.regs) (outputRegion s.regs))
  (hiv : ¬ ShareByte ⟨s.regs.seed.toNat, 16⟩ (outputRegion s.regs)) (hv : Between s v)
include hs haw hio hiv hv

/-- The one-block command for block `j` does that block of the whole command: nothing written so far is
its input, its schedule or its seed. -/
theorem cbcDecBlockOperands_continues {j : Nat} (hj : j < blockCount s.regs) :
    Continues P (rounds s.params kc) (.cbcDec kc) s.regs s.mem j 1 (cbcDecBlockOperands s.regs j) v.mem := by
  have hinput : ∀ k, k < s.regs.len.toNat →
      v.mem.get (s.regs.src.toNat + k) = s.mem.get (s.regs.src.toNat + k) := fun k hk =>
    hv.frame _ fun ha => hio ⟨_, ⟨Nat.le_add_right .., Nat.add_lt_add_left hk _⟩, ha⟩
  have hblock := block_fits hj
  refine ⟨cbcDecBlockOperands_portion hs.operands haw hj, fun k _ hk => hinput k (by omega),
    fun a ha => hv.frame a fun hout => ?_, ?_⟩
  · exact hs.operands.schedules _ (List.mem_singleton.2 rfl) ⟨a, hout, ha⟩
  · rw [seedBlock_cbcDecBlockOperands hs.operands haw hj]
    cases j with
    | zero =>
      exact readBlock_congr fun k hk => hv.frame _ fun ha =>
        hiv ⟨_, ⟨Nat.le_add_right .., Nat.add_lt_add_left hk _⟩, ha⟩
    | succ j =>
      refine readBlock_congr fun k hk => ?_
      rw [Nat.add_assoc]
      exact hinput _ (by omega)

/-- It completes, writes its block of the whole command's output, and leaves the engine as it found it. -/
theorem cbcDecBlock_command {j : Nat} (hj : j < blockCount s.regs) :
    ∃ t, runCommand (.cbcDec kc) (cbcDecBody P) { v with regs := cbcDecBlockOperands s.regs j } =
        .next t ∧
      Output (fun k => outputByteOf P (rounds s.params kc) (.cbcDec kc) s.regs s.mem (16 * j + k)) v.mem
        (s.regs.dst.toNat + 16 * j) 16 t.mem ∧ Between s t := by
  have hpart := cbcDecBlockOperands_continues P hs haw hio hiv hv hj
  have hready : Ready (.cbcDec kc) { v with regs := cbcDecBlockOperands s.regs j } := by
    refine ⟨hv.idle, ?_, ?_, ?_⟩
    · exact hv.params ▸ hs.present
    · exact hv.written ▸ hs.written
    · exact hv.params ▸ cbcDecBlockOperands_legal hs.operands haw hj hio
  obtain ⟨t, ht, hregs, hidle, ho⟩ := runCommand_output P hready hv.wf (by simp [Instr.mode])
  simp only [hv.params, hpart.portion.dst, hpart.portion.len] at ho
  have hblock := block_fits hj
  refine ⟨t, ht, ho.congr fun k hk => hpart.outputByteOf_eq rfl hk, hidle, hregs.params.trans hv.params,
    hregs.written.trans hv.written, ho.wf, fun a ha => ?_⟩
  exact (ho.frame a fun hc => ha ((partOf_block hblock).inside hc)).trans (hv.frame a ha)

/-- A list of one-block commands completes and writes the blocks of the list. -/
theorem runEach_cbcDecBlocks {js : List Nat} (hjs : ∀ j ∈ js, j < blockCount s.regs) :
    ∃ u, runEach (runCommand (.cbcDec kc) (cbcDecBody P)) (js.map (cbcDecBlockOperands s.regs)) v =
        .next u ∧
      WritesBlocks (outputByteOf P (rounds s.params kc) (.cbcDec kc) s.regs s.mem) v.mem s.regs.dst.toNat js
        u.mem := by
  induction js generalizing v with
  | nil => exact ⟨v, rfl, .nil hv.wf⟩
  | cons j js ih =>
    obtain ⟨hj, hjs⟩ := List.forall_mem_cons.1 hjs
    obtain ⟨t, ht, ho, hbt⟩ := cbcDecBlock_command P hs haw hio hiv hv hj
    obtain ⟨u, hu, hwrites⟩ := ih hbt hjs
    refine ⟨u, ?_, .cons ho hwrites⟩
    simp only [List.map_cons, runEach, ht, hu]

end BlockCommands

/-- Settles O25: in any order the one-block commands write the blocks of the whole command's output. -/
theorem cbcDecryptionIsOrderIndependent : Obligations.CbcDecryptionIsOrderIndependent := by
  intro P kc s order hw haw hs hio hiv horder
  obtain ⟨t, ht, -, -, ho⟩ := runCommand_output P hs hw (by simp [Instr.mode])
  obtain ⟨u, hu, hwrites⟩ := runEach_cbcDecBlocks P hs haw hio hiv
    ⟨hs.idle, rfl, rfl, hw, fun _ _ => rfl⟩ fun j hj => List.mem_range.1 (horder.mem_iff.1 hj)
  rw [legal_len_eq hs.operands (by simp [Instr.mode])] at ho
  exact ⟨t, u, ht, hu, hwrites.eq_output horder ho⟩

/-! ## The round trip (R159) -/

/-- Settles O27: the input blocks of the second command are the chain of the first, so D undoes E and the
two feedback values cancel. -/
theorem cbcRoundTrip : Obligations.CbcRoundTrip := by
  intro kc s u t hm hs hnr hmem hu hsrc hlen hseed ⟨hpair, _⟩
  have hot := exec_next_output hm hs
  obtain ⟨v, hv, hvblocks⟩ := exec_computes (hmem ▸ hot.wf) hu
  have hin : ∀ j, j < blockCount s.regs → inputBlock u.regs u.mem j =
      outputBlockOf aes (rounds s.params kc) (.cbcEnc kc) s.regs s.mem j := by
    intro j hj
    rw [inputBlock, hsrc, hmem]
    exact hot.outputBlock_eq hj
  have hfb : ∀ j, j < blockCount s.regs →
      feedbackOf aes (rounds u.params kc) (.cbcDec kc) u.regs u.mem j =
        feedbackOf aes (rounds s.params kc) (.cbcEnc kc) s.regs s.mem j := by
    intro j hj
    cases j with
    | zero => rw [feedbackOf_zero, feedbackOf_zero, hseed]
    | succ j => rw [feedbackOf_succ_dec, feedbackOf_succ_enc, hin j (by omega)]
  refine ⟨v, hv, fun j hj => ?_⟩
  calc outputBlock u.regs v.mem j
      = outputBlockOf aes (rounds u.params kc) (.cbcDec kc) u.regs u.mem j :=
        hvblocks j (by rwa [blockCount, hlen])
    _ = inputBlock s.regs s.mem j := by
      rw [outputBlockOf_cbcDec, hfb j hj, hin j hj, outputBlockOf_cbcEnc, rounds_congr hnr, hpair,
        xor16_cancel_right]

end Sys2Proof.Machine
end

section
/-! PROOFS. The CTR driver (spec/44_ctr.md): the output is the input XOR a keystream that depends on the
schedule, the seed and the byte's place alone. From that: the partial block, the round trip, keystream
reuse, and the split of a command into two. -/

namespace Sys2Proof.Machine

open Sys2Proof.Config (Params RoundPrims)
open Sys2Proof.Safety

/-! ## The keystream (R173) -/

/-- The counter Block `i` steps after the seed Block `b`, modulo 2^128 (41_arith_units R128). -/
def counterBlock (b : Block) (i : Nat) : Block := toBe128 ((be128 b + i) % 2 ^ 128)

theorem counterBlock_zero (b : Block) : counterBlock b 0 = b := by
  rw [counterBlock, Nat.add_zero, Nat.mod_eq_of_lt (be128_lt b), toBe128_be128]

/-- Counter steps add up, a wrap past 2^128 included (R176). -/
theorem counterBlock_counterBlock (b : Block) (i j : Nat) :
    counterBlock (counterBlock b i) j = counterBlock b (i + j) := by
  simp only [counterBlock]
  rw [be128_toBe128 (Nat.mod_lt _ (by decide)), Nat.mod_add_mod, Nat.add_assoc]

theorem keystreamBlock_eq_counterBlock (P : RoundPrims) (nr : Nat) (f : OperandFile Word64) (m : Memory)
    (i : Nat) : keystreamBlock P nr f m i =
      blockE P m f.key1.toNat nr (counterBlock (seedBlock f m) i) := rfl

/-- Keystream byte `k`: byte `k mod 16` of keystream block `k div 16` (R173). -/
def keystreamByte (P : RoundPrims) (nr : Nat) (f : OperandFile Word64) (m : Memory) (k : Nat) : Byte :=
  (keystreamBlock P nr f m (k / 16))[k % 16]'(Nat.mod_lt _ (by decide))

/-- The first keystream block is the seed Block encrypted. -/
theorem keystreamByte_of_lt (P : RoundPrims) (nr : Nat) (f : OperandFile Word64) (m : Memory) {k : Nat}
    (hk : k < 16) : keystreamByte P nr f m k = (blockE P m f.key1.toNat nr (seedBlock f m))[k] := by
  have hdiv : k / 16 = 0 := Nat.div_eq_of_lt hk
  have hmod : k % 16 = k := Nat.mod_eq_of_lt hk
  simp only [keystreamByte, hdiv, hmod, keystreamBlock_eq_counterBlock, counterBlock_zero]

/-- The closed form of `ctr`, byte by byte. -/
theorem outputByteOf_ctr (P : RoundPrims) (nr : Nat) (kc : KeyClass) (f : OperandFile Word64) (m : Memory)
    (k : Nat) : outputByteOf P nr (.ctr kc) f m k =
      m.get (f.src.toNat + k) ^^^ keystreamByte P nr f m k := by
  have hbyte : 16 * (k / 16) + k % 16 = k := Nat.div_add_mod k 16
  simp only [outputByteOf, outputBlockOf, keystreamByte, xor16_getElem, inputBlock, readBlock_getElem,
    Nat.add_assoc, hbyte]

/-- What a `ctr` command that completed has written. -/
theorem exec_ctr_byte {kc : KeyClass} {s t : State} (hw : s.mem.Wf) (h : exec (.ctr kc) s = .next t)
    {k : Nat} (hk : k < s.regs.len.toNat) : t.mem.get (s.regs.dst.toNat + k) =
      s.mem.get (s.regs.src.toNat + k) ^^^ keystreamByte aes (rounds s.params kc) s.regs s.mem k :=
  ((exec_next_output hw h).inside k hk).trans (outputByteOf_ctr ..)

/-- Settles O10: the bytes of the closed form, partial block included. -/
theorem ctrComputes : Obligations.CtrComputes :=
  fun _ _ hw h => ⟨_, exec_ready h, fun _ => exec_ctr_byte hw (exec_ready h)⟩

/-! ## The partial block (R175) -/

theorem xorn_padBlock_getElem? {bs : List Byte} {b : Block} {n k : Nat} (hn : n = bs.length) (h : k < 16)
    (hk : k < n) : (xorn (padBlock bs) b n)[k]? = some (bs[k] ^^^ b[k]) := by
  rw [xorn_getElem? h hk, padBlock_getElem, List.getD_eq_getElem _ _ (hn ▸ hk)]

/-- Settles O31: the keystream of a range of less than a block is that of its seed. -/
theorem ctrPartialBlock : Obligations.CtrPartialBlock := by
  intro kc s n hw h hlen hn
  have ho := exec_next_output hw (exec_ready h)
  refine ⟨_, exec_ready h, ?_, fun a ha => ho.frame a (by omega)⟩
  refine List.ext_getElem? fun k => ?_
  by_cases hk : k < n
  · have hk16 : k < 16 := hk.trans hn
    have hbyte := exec_ctr_byte hw (exec_ready h) (hlen ▸ hk)
    rw [xorn_padBlock_getElem? (memRead_length ..).symm hk16 hk,
      List.getElem?_eq_getElem (by rwa [memRead_length]), memRead_getElem, memRead_getElem, hbyte,
      keystreamByte_of_lt _ _ _ _ hk16]
  · rw [List.getElem?_eq_none (by simpa using hk),
      List.getElem?_eq_none (by rw [xorn_length hn.le]; exact Nat.le_of_not_lt hk)]

/-! ## Commands that share a keystream -/

/-- The keystream of operands `g` in memory `m'` is that of operands `f` in `m` from block `first` on:
their round keys are the same, and the seed is the counter that has made `first` steps. -/
structure KeystreamFrom (nr : Nat) (f : OperandFile Word64) (m : Memory) (first : Nat)
    (g : OperandFile Word64) (m' : Memory) : Prop where
  seed : seedBlock g m' = counterBlock (seedBlock f m) first
  key1 : ∀ r, r ≤ nr → roundKey m' g.key1.toNat r = roundKey m f.key1.toNat r

theorem KeystreamFrom.of_same_seed {nr : Nat} {f g : OperandFile Word64} {m m' : Memory}
    (hseed : seedBlock g m' = seedBlock f m)
    (hkey : ∀ r, r ≤ nr → roundKey m' g.key1.toNat r = roundKey m f.key1.toNat r) :
    KeystreamFrom nr f m 0 g m' := ⟨hseed.trans (counterBlock_zero _).symm, hkey⟩

theorem KeystreamFrom.keystreamByte_eq {nr : Nat} {f g : OperandFile Word64} {m m' : Memory} {first : Nat}
    (h : KeystreamFrom nr f m first g m') (P : RoundPrims) (k : Nat) :
    keystreamByte P nr g m' k = keystreamByte P nr f m (16 * first + k) := by
  have hdiv : (16 * first + k) / 16 = first + k / 16 := by omega
  have hmod : (16 * first + k) % 16 = k % 16 := by omega
  simp only [keystreamByte, hdiv, hmod, keystreamBlock_eq_counterBlock, h.seed,
    counterBlock_counterBlock, blockE_of_keys h.key1]

/-- A command over part of a range leaves the round keys of the data key as they were (20_memory R59). -/
theorem Output.roundKey_kept {p : Params} {md : Mode} {kc : KeyClass} {f : OperandFile Word64}
    {Y : Nat → Byte} {m m1 : Memory} {x n : Nat} (hf : OperandsLegal p md kc f)
    (ho : Output Y m (f.dst.toNat + x) n m1) (hfit : x + n ≤ f.len.toNat) {r : Nat} (hr : r ≤ rounds p kc) :
    roundKey m1 f.key1.toNat r = roundKey m f.key1.toNat r := by
  have hkey : ⟨f.key1.toNat, scheduleBytes (rounds p kc)⟩ ∈ scheduleRegions md (rounds p kc) f := by
    cases md <;> simp [scheduleRegions]
  exact roundKey_congr (fun a h1 h2 => ho.schedule_kept hf hfit hkey ⟨h1, h2⟩) hr

/-- A `ctr` command with the keystream of the command of `s` XORs that one's keystream to its own input. -/
theorem exec_ctr_byte_of_stream {kc : KeyClass} {s u v : State} (hw : u.mem.Wf)
    (h : exec (.ctr kc) u = .next v) (hnr : u.params.nr = s.params.nr)
    (hstream : KeystreamFrom (rounds s.params kc) s.regs s.mem 0 u.regs u.mem) {k : Nat}
    (hk : k < u.regs.len.toNat) : v.mem.get (u.regs.dst.toNat + k) =
      u.mem.get (u.regs.src.toNat + k) ^^^ keystreamByte aes (rounds s.params kc) s.regs s.mem k := by
  rw [exec_ctr_byte hw h hk, rounds_congr hnr, hstream.keystreamByte_eq, Nat.mul_zero, Nat.zero_add]

/-! ## The round trip (R172) -/

/-- Settles O29: the first command leaves the schedule alone, so both use one keystream, which cancels. -/
theorem ctrUndoesItself : Obligations.CtrUndoesItself := by
  intro kc s u t hw hs hnr hmem hu hsrc hlen hkey hseed
  have hot := exec_next_output hw hs
  have hstream : KeystreamFrom (rounds s.params kc) s.regs s.mem 0 u.regs u.mem := by
    refine .of_same_seed hseed fun r hr => ?_
    rw [hkey, hmem]
    exact hot.roundKey_kept (x := 0) (exec_next hs).1.operands (by omega) hr
  refine ⟨_, exec_ready hu, fun k hk => ?_⟩
  rw [exec_ctr_byte_of_stream (hmem ▸ hot.wf) (exec_ready hu) hnr hstream (hlen ▸ hk), hsrc, hmem,
    exec_ctr_byte hw hs hk, BitVec.xor_assoc, BitVec.xor_self, BitVec.xor_zero]

/-! ## Keystream reuse (R174) -/

/-- One keystream byte over two bytes cancels in their XOR. -/
theorem xor_keystream_cancel (x y z : Byte) : (x ^^^ z) ^^^ (y ^^^ z) = x ^^^ y := by
  rw [BitVec.xor_comm y z, BitVec.xor_assoc, xor_cancel_left]

/-- Settles O30: both commands XOR the same keystream to their input. -/
theorem ctrKeystreamReuse : Obligations.CtrKeystreamReuse := by
  intro kc s u hws hwu hnr hs hu hlen hseed hkey
  have hstream : KeystreamFrom (rounds s.params kc) s.regs s.mem 0 u.regs u.mem :=
    .of_same_seed hseed hkey
  refine ⟨_, _, exec_ready hs, exec_ready hu, fun k hk => ?_, fun heq k hk => ?_⟩
  · rw [exec_ctr_byte hws (exec_ready hs) hk,
      exec_ctr_byte_of_stream hwu (exec_ready hu) hnr hstream (hlen ▸ hk), xor_keystream_cancel]
  · rw [exec_ctr_byte hws (exec_ready hs) hk,
      exec_ctr_byte_of_stream hwu (exec_ready hu) hnr hstream (hlen ▸ hk), heq k hk]

/-! ## A command and its two parts (R177) -/

/-- A Ready command over a portion whose keystream goes on from there, the portion's input still in place,
completes and outputs the whole command's bytes to the portion's range. -/
theorem exec_ctr_portion {kc : KeyClass} {s g : State} {m : Memory} {first n : Nat}
    (hp : Portion s.regs g.regs first n) (hg : Ready (.ctr kc) g) (hnr : g.params.nr = s.params.nr)
    (hm : m.Wf) (hstream : KeystreamFrom (rounds s.params kc) s.regs s.mem first g.regs m)
    (hinput : ∀ k, k < n → m.get (s.regs.src.toNat + (16 * first + k)) =
      s.mem.get (s.regs.src.toNat + (16 * first + k))) :
    ∃ t, exec (.ctr kc) { g with mem := m } = .next t ∧
      Output (fun k => outputByteOf aes (rounds s.params kc) (.ctr kc) s.regs s.mem (16 * first + k)) m
        (s.regs.dst.toNat + 16 * first) n t.mem := by
  refine exec_portion hp hg hnr hm fun k hk => ?_
  rw [outputByteOf_ctr, outputByteOf_ctr, hp.src, Nat.add_assoc, hinput k hk]
  exact congrArg _ (hstream.keystreamByte_eq aes k)

/-- The commands over the halves of a `ctr` command's range, each from the counter of its first block, one
after the other, leave the memory that the whole command leaves. -/
theorem exec_ctr_halves {kc : KeyClass} {s u w t : State} {x n y k : Nat} (hm : s.mem.Wf)
    (hs : exec (.ctr kc) s = .next t) (hxy : Halves s.regs.len.toNat (16 * x) n (16 * y) k)
    (hpu : Portion s.regs u.regs x n) (hu : Ready (.ctr kc) u) (hnu : u.params.nr = s.params.nr)
    (hpw : Portion s.regs w.regs y k) (hw : Ready (.ctr kc) w) (hnw : w.params.nr = s.params.nr)
    (hcu : seedBlock u.regs s.mem = counterBlock (seedBlock s.regs s.mem) x) :
    ∃ t1, exec (.ctr kc) { u with mem := s.mem } = .next t1 ∧
      (seedBlock w.regs t1.mem = counterBlock (seedBlock s.regs s.mem) y →
        ∃ t2, exec (.ctr kc) { w with mem := t1.mem } = .next t2 ∧ t2.mem = t.mem) := by
  have ⟨hlen, hor⟩ := hxy
  have hlegal : OperandsLegal s.params .ctr kc s.regs := (exec_next hs).1.operands
  have hfit : 16 * x + n ≤ s.regs.len.toNat := by omega
  have hfirst : KeystreamFrom (rounds s.params kc) s.regs s.mem x u.regs s.mem :=
    ⟨hcu, fun r _ => by rw [hpu.key1]⟩
  obtain ⟨t1, ht1, ho1⟩ := exec_ctr_portion hpu hu hnu hm hfirst fun _ _ => rfl
  refine ⟨t1, ht1, fun hcw => ?_⟩
  have hstream : KeystreamFrom (rounds s.params kc) s.regs s.mem y w.regs t1.mem :=
    ⟨hcw, fun r hr => by rw [hpw.key1]; exact ho1.roundKey_kept hlegal hfit hr⟩
  obtain ⟨t2, ht2, ho2⟩ := exec_ctr_portion hpw hw hnw ho1.wf hstream fun j hj =>
    ho1.input_kept hlegal hfit (by omega) (by omega)
  exact ⟨t2, ht2, (exec_next_output hm hs).of_halves hxy ho1 ho2⟩

/-- Settles O23: the halves in the order of their addresses, and in the other. -/
theorem ctrSplitsInEitherOrder : Obligations.CtrSplitsInEitherOrder := by
  intro kc s u w a n hm hlen hnu hnw hpu hpw hs hu hw
  have hexec := exec_ready hs
  have hxy : Halves s.regs.len.toNat (16 * 0) (16 * a) (16 * a) n := hlen ▸ .first
  have hzero := counterBlock_zero (seedBlock s.regs s.mem)
  refine ⟨_, hexec, fun hseed => ?_, fun hseed => ?_⟩
  · exact exec_ctr_halves hm hexec hxy hpu hu hnu hpw hw hnw (hseed.trans hzero.symm)
  · obtain ⟨t1, ht1, hrest⟩ := exec_ctr_halves hm hexec hxy.symm hpw hw hnw hpu hu hnu hseed
    exact ⟨t1, ht1, fun hseed' => hrest (hseed'.trans hzero.symm)⟩

end Sys2Proof.Machine
end

section
/-! PROOFS. The XTS driver (spec/45_xts.md): the closed forms of both commands, the split of a command into
two with the offset advanced, and the round trip. The tweak of a block depends on the tweak schedule, the
raw tweak and OFF plus the block's place alone. -/

namespace Sys2Proof.Machine

open Sys2Proof.Config (RoundPrims)
open Sys2Proof.Safety

/-! ## The closed forms (R191, R192) -/

/-- Settles O11: the closed form of `xts.enc` is E between the two XORs with the tweak. -/
theorem xtsEncComputes : Obligations.XtsEncComputes := fun _ _ => exec_computes

/-- Settles O12: the closed form of `xts.dec` has D in the place of E, and the same tweak. -/
theorem xtsDecComputes : Obligations.XtsDecComputes := fun _ _ => exec_computes

/-! ## Commands under one tweak sequence -/

/-- With an offset greater by `first`, the raw tweak and the round keys of the tweak key being the same, the
tweaks are those from block `first` on (R191). -/
theorem tweakOf_advanced {nr : Nat} {f g : OperandFile Word64} {m m' : Memory} {first : Nat}
    (hoff : g.off.toNat = f.off.toNat + first) (hseed : seedBlock g m' = seedBlock f m)
    (hkey : ∀ r, r ≤ nr → roundKey m' g.key2.toNat r = roundKey m f.key2.toNat r) (P : RoundPrims)
    (j : Nat) : tweakOf P nr g m' j = tweakOf P nr f m (first + j) := by
  rw [tweakOf, tweakOf, hoff, Nat.add_assoc, hseed, blockE_of_keys hkey]

/-- Memories that agree on the schedules of an XTS command hold the same round keys of both its keys. -/
theorem xtsRoundKeys_congr {nr : Nat} {f : OperandFile Word64} {m m' : Memory}
    (h : ∀ g ∈ scheduleRegions .xts nr f, ∀ a, Inside g a → m.get a = m'.get a) {r : Nat} (hr : r ≤ nr) :
    roundKey m f.key1.toNat r = roundKey m' f.key1.toNat r ∧
      roundKey m f.key2.toNat r = roundKey m' f.key2.toNat r := by
  simp only [scheduleRegions, List.forall_mem_cons] at h
  obtain ⟨hdata, htweak, -⟩ := h
  exact ⟨roundKey_congr (fun a h1 h2 => hdata a ⟨h1, h2⟩) hr,
    roundKey_congr (fun a h1 h2 => htweak a ⟨h1, h2⟩) hr⟩

/-! ## A command and its two parts (R193) -/

/-- A portion of an XTS command: the tweak schedule is that of the whole, and the offset is advanced to the
portion's first block. -/
structure XtsPortion (f g : OperandFile Word64) (first bytes : Nat) : Prop
    extends Portion f g first bytes where
  key2 : g.key2 = f.key2
  off  : g.off.toNat = f.off.toNat + first

/-- With the whole command's raw tweak, an XTS command over a portion has the output bytes of the whole
command there. -/
theorem outputByteOf_xts_portion {f g : OperandFile Word64} {first bytes : Nat}
    (h : XtsPortion f g first bytes) {i : Instr} (hi : i.mode = .xts) {m : Memory}
    (hseed : seedBlock g m = seedBlock f m) (P : RoundPrims) (nr k : Nat) :
    outputByteOf P nr i g m k = outputByteOf P nr i f m (16 * first + k) := by
  have hdiv : (16 * first + k) / 16 = first + k / 16 := by omega
  have hmod : (16 * first + k) % 16 = k % 16 := by omega
  have hin : inputBlock g m (k / 16) = inputBlock f m (first + k / 16) := by
    rw [inputBlock, inputBlock, h.src, Nat.mul_add, Nat.add_assoc]
  have htweak : tweakOf P nr g m (k / 16) = tweakOf P nr f m (first + k / 16) :=
    tweakOf_advanced h.off hseed (fun r _ => by rw [h.key2]) P _
  cases i <;> simp only [Instr.mode, reduceCtorEq] at hi
  case xtsEnc kc => simp only [outputByteOf, outputBlockOf, hdiv, hmod, hin, htweak, h.key1]
  case xtsDec kc => simp only [outputByteOf, outputBlockOf, hdiv, hmod, hin, htweak, h.key1]

/-- A Ready command over a portion, in a memory that still has the portion's input, the schedules and the
raw tweak (wherever SEED now points), completes and outputs the whole command's bytes to the portion's
range. -/
theorem exec_xts_portion {i : Instr} {s g : State} {m : Memory} {first n : Nat} (hi : i.mode = .xts)
    (hp : XtsPortion s.regs g.regs first n) (hg : Ready i g) (hnr : g.params.nr = s.params.nr) (hm : m.Wf)
    (hseed : seedBlock g.regs m = seedBlock s.regs s.mem)
    (hinput : ∀ k, k < n → m.get (s.regs.src.toNat + (16 * first + k)) =
      s.mem.get (s.regs.src.toNat + (16 * first + k)))
    (hkeys : ∀ h ∈ scheduleRegions .xts (rounds s.params i.keyClass) s.regs, ∀ a, Inside h a →
      m.get a = s.mem.get a) :
    ∃ t, exec i { g with mem := m } = .next t ∧
      Output (fun k => outputByteOf aes (rounds s.params i.keyClass) i s.regs s.mem (16 * first + k)) m
        (s.regs.dst.toNat + 16 * first) n t.mem := by
  have hsame : SameReads i.mode (rounds s.params i.keyClass) g.regs m
      { g.regs with seed := s.regs.seed } s.mem := by
    refine ⟨rfl, fun _ => rfl, fun k hk => ?_, fun _ => hseed, fun r hr => ?_, fun _ r hr => ?_⟩
    · rw [hp.src, Nat.add_assoc]
      exact hinput k (hp.len ▸ hk)
    · rw [hp.key1]
      exact (xtsRoundKeys_congr hkeys hr).1
    · rw [hp.key2]
      exact (xtsRoundKeys_congr hkeys hr).2
  have hmoved : XtsPortion s.regs { g.regs with seed := s.regs.seed } first n :=
    ⟨⟨hp.src, hp.dst, hp.len, hp.key1⟩, hp.key2, hp.off⟩
  exact exec_portion hp.toPortion hg hnr hm fun k hk =>
    (hsame.outputByteOf_eq aes hg.operands.length (hp.len ▸ hk)).trans
      (outputByteOf_xts_portion hmoved hi rfl aes _ k)

/-- The commands over the halves of an XTS command's range, one after the other, leave the memory that the
whole command leaves. -/
theorem exec_xts_halves {i : Instr} {s u w t : State} {x n y k : Nat} (hi : i.mode = .xts) (hm : s.mem.Wf)
    (hs : exec i s = .next t) (hxy : Halves s.regs.len.toNat (16 * x) n (16 * y) k)
    (hpu : XtsPortion s.regs u.regs x n) (hu : Ready i u) (hnu : u.params.nr = s.params.nr)
    (hpw : XtsPortion s.regs w.regs y k) (hw : Ready i w) (hnw : w.params.nr = s.params.nr)
    (hseedu : seedBlock u.regs s.mem = seedBlock s.regs s.mem) :
    ∃ t1, exec i { u with mem := s.mem } = .next t1 ∧
      (seedBlock w.regs t1.mem = seedBlock s.regs s.mem →
        ∃ t2, exec i { w with mem := t1.mem } = .next t2 ∧ t2.mem = t.mem) := by
  have ⟨hlen, hor⟩ := hxy
  have hlegal : OperandsLegal s.params .xts i.keyClass s.regs := hi ▸ (exec_next hs).1.operands
  have hfit : 16 * x + n ≤ s.regs.len.toNat := by omega
  obtain ⟨t1, ht1, ho1⟩ := exec_xts_portion hi hpu hu hnu hm hseedu (fun _ _ => rfl) fun _ _ _ _ => rfl
  refine ⟨t1, ht1, fun hseedw => ?_⟩
  obtain ⟨t2, ht2, ho2⟩ := exec_xts_portion hi hpw hw hnw ho1.wf hseedw
    (fun j hj => ho1.input_kept hlegal hfit (by omega) (by omega))
    fun g hg a ha => ho1.schedule_kept hlegal hfit hg ha
  exact ⟨t2, ht2, (exec_next_output hm hs).of_halves hxy ho1 ho2⟩

/-- Settles O24: the halves in the order of their addresses, and in the other. -/
theorem xtsSplitsInEitherOrder : Obligations.XtsSplitsInEitherOrder := by
  intro i s u w a b hi hm hlen hnu hnw hpu hpw hkeyu hkeyw hoffu hoffw hs hu hw
  have hexec := exec_ready hs
  have hxy : Halves s.regs.len.toNat (16 * 0) (16 * a) (16 * a) (16 * b) := by
    rw [hlen, Nat.mul_add]
    exact .first
  have hxu : XtsPortion s.regs u.regs 0 (16 * a) := ⟨hpu, hkeyu, congrArg BitVec.toNat hoffu⟩
  have hxw : XtsPortion s.regs w.regs a (16 * b) := ⟨hpw, hkeyw, hoffw⟩
  exact ⟨_, hexec, exec_xts_halves hi hm hexec hxy hxu hu hnu hxw hw hnw,
    exec_xts_halves hi hm hexec hxy.symm hxw hw hnw hxu hu hnu⟩

/-! ## The round trip (R198) -/

/-- Settles O28: the first command leaves the tweak schedule alone, so both commands have one tweak for each
block; its XORs cancel around D undoing E. -/
theorem xtsRoundTrip : Obligations.XtsRoundTrip := by
  intro kc s u t hm hs hnr hmem hu hsrc hlen hkey hoff hseed ⟨hpair, _⟩
  have hot := exec_next_output hm hs
  have hkept : ∀ g ∈ scheduleRegions .xts (rounds s.params kc) s.regs, ∀ a, Inside g a →
      t.mem.get a = s.mem.get a := fun g hg a ha =>
    hot.schedule_kept (x := 0) (exec_next hs).1.operands (by omega) hg ha
  obtain ⟨v, hv, hvblocks⟩ := exec_computes (hmem ▸ hot.wf) hu
  refine ⟨v, hv, fun j hj => ?_⟩
  have hin : inputBlock u.regs u.mem j =
      outputBlockOf aes (rounds s.params kc) (.xtsEnc kc) s.regs s.mem j := by
    rw [inputBlock, hsrc, hmem]
    exact hot.outputBlock_eq hj
  have htweak : tweakOf aes (rounds s.params kc) u.regs u.mem j =
      tweakOf aes (rounds s.params kc) s.regs s.mem j := by
    rw [tweakOf_advanced (first := 0) (congrArg BitVec.toNat hoff) hseed (fun r hr => ?_), Nat.zero_add]
    rw [hkey, hmem]
    exact (xtsRoundKeys_congr hkept hr).2
  calc outputBlock u.regs v.mem j
      = outputBlockOf aes (rounds u.params kc) (.xtsDec kc) u.regs u.mem j :=
        hvblocks j (by rwa [blockCount, hlen])
    _ = inputBlock s.regs s.mem j := by
      rw [rounds_congr hnr, outputBlockOf, hin, htweak, outputBlockOf, xor16_cancel_right, hpair,
        xor16_cancel_right]

end Sys2Proof.Machine
end

section
/-! PROOFS. The AES record (spec/46_aes_round_reference.md): the multiplicative inverse is unique, so the
substitution table is read back through its formula; the relations of the round primitives; and the
generator's two schedules are related as R216 writes them. -/

namespace Sys2Proof.Machine

/-! ## The multiplicative inverse (R206) -/

/-- A map that is additive and commutes with multiplication by x passes through the left factor. -/
theorem map_gmul {f : Byte → Byte} (hadd : ∀ a b, f (a ^^^ b) = f a ^^^ f b)
    (hxtime : ∀ a, f (xtime a) = xtime (f a)) (a b : Byte) : f (gmul a b) = gmul (f a) b := by
  have hzero : f 0#8 = 0#8 := by simpa using hadd 0#8 0#8
  have hbits : ∀ n a b, f (gmulBits n a b) = gmulBits n (f a) b := by
    intro n
    induction n with
    | zero => exact fun _ _ => hzero
    | succ n ih =>
      intro a b
      rw [gmulBits, gmulBits, hadd, ih, hxtime, apply_ite f, hzero]
  exact hbits 8 a b

theorem xtime_gmul (a b : Byte) : xtime (gmul a b) = gmul (xtime a) b :=
  map_gmul xtime_xor (fun _ => rfl) a b

theorem gmul_right_comm (a b c : Byte) : gmul (gmul a b) c = gmul (gmul a c) b :=
  map_gmul (f := (gmul · c)) (fun x y => gmul_xor_left x y c) (fun x => (xtime_gmul x c).symm) a b

theorem one_gmul (a : Byte) : gmul 1#8 a = a :=
  forall_byte (p := fun a => gmul 1#8 a = a) (by decide +kernel) a

theorem gmul_inverse_unique {a b c : Byte} (hb : gmul a b = 1#8) (hc : gmul a c = 1#8) : b = c :=
  calc b = gmul (gmul a c) b := by rw [hc, one_gmul]
    _ = gmul (gmul a b) c := gmul_right_comm a c b
    _ = c := by rw [hb, one_gmul]

/-- The search of `ginv` finds the one inverse there is. -/
theorem ginv_eq_of_gmul_eq_one {a b : Byte} (h : gmul a b = 1#8) : ginv a = b := by
  rw [ginv]
  split
  next n hn => exact gmul_inverse_unique (by simpa using List.find?_some hn) h
  next hn =>
    have hb := List.find?_eq_none.1 hn b.toNat (List.mem_range.2 b.isLt)
    simp [h] at hb

/-! ## The substitution tables (R207, R208) -/

/-- The affine map that R207 applies to the inverse. -/
def sboxAffine (b : Byte) : Byte :=
  b ^^^ b.rotateLeft 1 ^^^ b.rotateLeft 2 ^^^ b.rotateLeft 3 ^^^ b.rotateLeft 4 ^^^ 0x63#8

theorem sboxFormula_eq (a : Byte) : sboxFormula a = sboxAffine (ginv a) := rfl

/-- The byte that the affine map of R207 takes to the table's entry. -/
def sboxPreimage (a : Byte) : Byte :=
  let t := sbox a
  t.rotateLeft 1 ^^^ t.rotateLeft 3 ^^^ t.rotateLeft 6 ^^^ 0x05#8

theorem sboxAffine_sboxPreimage (a : Byte) : sboxAffine (sboxPreimage a) = sbox a :=
  forall_byte (p := fun a => sboxAffine (sboxPreimage a) = sbox a) (by decide +kernel) a

/-- The preimage of an entry is an inverse of its index. -/
theorem gmul_sboxPreimage (a : Byte) : a ≠ 0#8 → gmul a (sboxPreimage a) = 1#8 :=
  forall_byte (p := fun a => a ≠ 0#8 → gmul a (sboxPreimage a) = 1#8) (by decide +kernel) a

theorem ginv_eq_sboxPreimage (a : Byte) : ginv a = sboxPreimage a := by
  by_cases h : a = 0#8
  · subst h
    decide +kernel
  · exact ginv_eq_of_gmul_eq_one (gmul_sboxPreimage a h)

theorem sbox_eq_sboxFormula (a : Byte) : sbox a = sboxFormula a := by
  rw [sboxFormula_eq, ginv_eq_sboxPreimage, sboxAffine_sboxPreimage]

/-- Settles O57: the formula through the unique inverse, and the tables against each other. -/
theorem substitutionTablesFollowTheirFormula : Obligations.SubstitutionTablesFollowTheirFormula :=
  fun _ _ => ⟨sbox_eq_sboxFormula _, invSbox_sbox _, sbox_invSbox _⟩

/-! ## The round primitives (R212 to R214) -/

/-- The inverse of LastRound removes the key first (R214 (a)). -/
theorem undoLastRound_aesLastRound (s k : Block) : undoLastRound (aesLastRound s k) k = s := by
  rw [undoLastRound, aesLastRound, xor16_cancel_right, invSubBytes_subBytes, invShiftRows_shiftRows]

/-- InvLastRound under the key of LastRound adds it too late: the state 0 under the key 1 is not restored
(R214 (a)). -/
theorem aesInvLastRound_aesLastRound_ne :
    aesInvLastRound (aesLastRound zeroBlock (toBe128 1)) (toBe128 1) ≠ zeroBlock := by
  decide +kernel

/-- InvRound under a transformed key is the straight inverse round under the plain one (R214 (b)). -/
theorem aesInvRound_invMixColumns (s k : Block) :
    aesInvRound s (invMixColumns k) = straightInvRound s k := by
  rw [aesInvRound, straightInvRound, invMixColumns_xor]

/-- Settles O58: the four samples by evaluation, then the three relations of R214. -/
theorem roundPrimitivesAndTheirRelations : Obligations.RoundPrimitivesAndTheirRelations := by
  refine ⟨⟨?round, ?lastRound, ?invRound, ?invLastRound⟩,
    ⟨zeroBlock, toBe128 1, aesInvLastRound_aesLastRound_ne⟩, undoLastRound_aesLastRound,
    aesInvRound_invMixColumns, invSubBytes_invShiftRows⟩
  case round => decide +kernel
  case lastRound => decide +kernel
  case invRound => decide +kernel
  case invLastRound => decide +kernel

/-! ## The generator's schedules (R216, R217) -/

theorem decryptionKey_first (kc : KeyClass) (nr : Nat) (key : List Byte) :
    decryptionKey kc nr key 0 = encryptionKey kc key nr := if_pos rfl

theorem decryptionKey_inner (kc : KeyClass) {nr r : Nat} (key : List Byte) (h : 0 < r) (hr : r < nr) :
    decryptionKey kc nr key r = invMixColumns (encryptionKey kc key (nr - r)) := by
  rw [decryptionKey, if_neg h.ne', if_pos hr]

theorem decryptionKey_last (kc : KeyClass) (nr : Nat) (key : List Byte) :
    decryptionKey kc nr key nr = encryptionKey kc key 0 := by
  cases nr with
  | zero => rfl
  | succ n => rw [decryptionKey, if_neg n.succ_ne_zero, if_neg (lt_irrefl _)]

/-- The generator's two schedules of one raw key, wherever they are laid out, are related. -/
theorem related_of_generator {kc : KeyClass} {nr ek dk : Nat} {key : List Byte} {m m' : Memory}
    (he : ∀ r, r ≤ nr → roundKey m ek r = encryptionKey kc key r)
    (hd : ∀ r, r ≤ nr → roundKey m' dk r = decryptionKey kc nr key r) : Related nr m ek m' dk where
  first := by rw [hd 0 nr.zero_le, he nr le_rfl, decryptionKey_first]
  inner r h hr := by rw [hd r hr.le, he (nr - r) (nr.sub_le r), decryptionKey_inner kc key h hr]
  last := by rw [hd nr le_rfl, he 0 nr.zero_le, decryptionKey_last]

/-- Settles O60: over related schedules D undoes E step by step, and they are a pair. -/
theorem generatorSchedulesArePairs : Obligations.GeneratorSchedulesArePairs := by
  intro kc nr key m m' ek dk _ he hd
  have hrelated : Related nr m ek m' dk := related_of_generator he hd
  exact ⟨decrypt_rounds hrelated, hrelated.pair⟩

end Sys2Proof.Machine
end

section
/-! PROOFS. The invariant of the machine (10_state R26, R30, 20_memory R50, R53, R57, 60_exceptions R236):
memory stays canonical and inside the address space under every write, and every phase action, command,
host transaction and reset keeps the rest. -/

namespace Sys2Proof.Machine

open Sys2Proof.Config (Params RoundPrims)
open Sys2Proof.Safety

/-! ## Memory inside the address space (20_memory R50, R53) -/

/-- The invariant's part about memory: in canonical form and inside the address space of a build. -/
structure MemoryFits (p : Params) (m : Memory) : Prop where
  wf      : m.Wf
  inSpace : ∀ c ∈ m, c.1 < 2 ^ p.aw

theorem MemoryFits.of_inv {s : State} (h : Inv s) : MemoryFits s.params s.mem := ⟨h.memory, h.inSpace⟩

/-- A write that ends inside the address space keeps memory there. -/
theorem MemoryFits.memWrite {p : Params} {m : Memory} (h : MemoryFits p m) {a : Nat} {bs : List Byte}
    (hend : a + bs.length ≤ 2 ^ p.aw) : MemoryFits p (memWrite m a bs) where
  wf := memWrite_wf h.wf a bs
  inSpace c hc := by
    rcases mem_memWrite hc with hc | hc
    · exact h.inSpace c hc
    · omega

/-- The output range of legal operands ends inside the address space. -/
theorem outputRegion_fits {p : Params} {m : Mode} {kc : KeyClass} {f : OperandFile Word64}
    (h : OperandsLegal p m kc f) : f.dst.toNat + f.len.toNat ≤ 2 ^ p.aw :=
  (h.valid _ (List.mem_cons_self ..)).1

/-- A command that completes keeps memory there. -/
theorem exec_memoryFits {i : Instr} {s t : State} (h : MemoryFits s.params s.mem)
    (he : exec i s = .next t) : MemoryFits s.params t.mem where
  wf := (exec_next_output h.wf he).wf
  inSpace c hc := by
    have hfits := outputRegion_fits (exec_next he).1.operands
    rcases (exec_next_output h.wf he).listed c hc with hc | hc
    · exact h.inSpace c hc
    · omega

/-- So does a reset, which writes the output range of a legal command in flight alone (70_reset_and_hazards
R261, R263). -/
theorem engineReset_memoryFits {s : State} (h : Inv s) : MemoryFits s.params (engineReset s).mem := by
  have hm := MemoryFits.of_inv h
  unfold engineReset
  cases hb : s.busy with
  | false => simpa using hm
  | true =>
    have hfits := outputRegion_fits (h.flight hb).operands
    exact hm.memWrite (by simpa [outputRegion] using hfits)

/-- The block a block step writes lies in the output range, as IDX is below NB. -/
theorem blockStep_memoryFits (P : RoundPrims) {s : State} (hm : MemoryFits s.params s.mem)
    (hf : InFlight s) (hp : s.phase = .blk) : MemoryFits s.params (blockStep P s).mem := by
  obtain ⟨y, hy⟩ := blockStep_effect P s
  have hfits := outputRegion_fits hf.operands
  obtain ⟨hnb, _⟩ := hf.counts (by simp [hp])
  have hidx := hf.blocks hp
  rw [hy.mem]
  refine hm.memWrite ?_
  simp only [blockAddr, Vector.length_toList]
  omega

/-- So do the REM bytes that TAIL writes. -/
theorem ctrTail_memoryFits (P : RoundPrims) {s : State} (hm : MemoryFits s.params s.mem)
    (hf : InFlight s) (hp : s.phase = .tail) : MemoryFits s.params (ctrTail P s).mem := by
  have hfits := outputRegion_fits hf.operands
  obtain ⟨hnb, hrem⟩ := hf.counts (by simp [hp])
  rw [ctrTail_mem]
  refine hm.memWrite ?_
  simp only [tailAddr, List.length_take, Vector.length_toList]
  omega

/-! ## A command in flight -/

/-- What the invariant says of a command past LOAD whatever its phase: legal operands, a command of this
build, and the counts of its length (10_state R29). -/
structure Loaded (s : State) : Prop where
  operands : OperandsLegal s.params s.work.mode s.work.kc s.work.lat
  direction : s.work.mode = .ctr → s.work.dir = .encrypt
  present : s.work.mode = .xts → s.work.dir = .decrypt → s.params.xtsDecPresent = true
  counts : s.work.nb.toNat = s.work.lat.len.toNat / 16 ∧ s.work.rem.toNat = s.work.lat.len.toNat % 16

theorem loaded_of_inFlight {s : State} (h : InFlight s) (hp : s.phase ≠ .load) : Loaded s :=
  ⟨h.operands, h.direction, h.present, h.counts hp⟩

/-- It speaks of the control fields alone. -/
theorem Loaded.of_control {s t : State} (h : Loaded s) (hc : SameControl s t) : Loaded t := by
  obtain ⟨hop, hdir, hpres, hcnt⟩ := h
  constructor <;> simpa only [hc.params, hc.lat, hc.mode, hc.dir, hc.kc, hc.nb, hc.rem]

/-- Phase LOAD counts the blocks of the operands latched (10_state R30). -/
theorem loaded_loadPhase {s : State} (h : InFlight s) : Loaded (loadPhase s) where
  operands := by simpa using h.operands
  direction := by simpa using h.direction
  present := by simpa using h.present
  counts := by
    rw [loadPhase_work_lat]
    exact ⟨loadPhase_nb_toNat s, loadPhase_rem_toNat s⟩

/-- A loaded command that is in flight past LOAD, given what its phase asks. -/
theorem Loaded.inFlight {s : State} (h : Loaded s)
    (tweaking : s.phase = .twkEnc ∨ s.phase = .twkAdv → s.work.mode = .xts)
    (advancing : s.phase = .twkAdv → s.work.idx.toNat ≤ s.work.lat.off.toNat)
    (blocks : s.phase = .blk → s.work.idx.toNat < s.work.nb.toNat)
    (tail : s.phase = .tail → s.work.mode = .ctr ∧ s.work.rem ≠ 0#4) : InFlight s :=
  ⟨h.operands, h.direction, h.present, fun _ => h.counts, tweaking, advancing, blocks, tail⟩

/-- TAIL is entered for a `ctr` with a remainder alone. -/
theorem Loaded.enterTail {s : State} (h : Loaded s) (hb : (enterTail s).busy = true) :
    InFlight (enterTail s) := by
  unfold Machine.enterTail at hb ⊢
  split
  · next hrem =>
    have ht : Loaded { s with phase := .tail } := ⟨h.operands, h.direction, h.present, h.counts⟩
    exact ht.inFlight (by simp) (by simp) (by simp) fun _ => hrem
  · next hrem => simp [hrem] at hb

/-- BLK is entered with IDX at 0 when there is a full block. -/
theorem Loaded.enterBlocks {s : State} (h : Loaded s) (hidx : s.work.idx = 0#64)
    (hb : (enterBlocks s).busy = true) : InFlight (enterBlocks s) := by
  unfold Machine.enterBlocks at hb ⊢
  split
  · next hnb =>
    have hpos : 0 < s.work.nb.toNat := Nat.pos_of_ne_zero fun h0 => hnb (BitVec.eq_of_toNat_eq h0)
    have ht : Loaded { s with phase := .blk } := ⟨h.operands, h.direction, h.present, h.counts⟩
    exact ht.inFlight (by simp) (by simp) (fun _ => by simpa [hidx] using hpos) (by simp)
  · next hnb => exact h.enterTail (by simpa only [if_neg hnb] using hb)

/-! ## Each phase action (10_state R30) -/

theorem load_inFlight {s : State} (hf : InFlight s) (hb : (afterLoad (loadPhase s)).busy = true) :
    InFlight (afterLoad (loadPhase s)) := by
  unfold afterLoad at hb ⊢
  split
  · next hm =>
    have hl := loaded_loadPhase hf
    have ht : Loaded { loadPhase s with phase := .twkEnc } :=
      ⟨hl.operands, hl.direction, hl.present, hl.counts⟩
    exact ht.inFlight (fun _ => hm) (by simp) (by simp) (by simp)
  · next hm => exact (loaded_loadPhase hf).enterBlocks (by simp) (by simpa only [if_neg hm] using hb)

theorem tweakEncryptPhase_inFlight (P : RoundPrims) {s : State} (hf : InFlight s)
    (hp : s.phase = .twkEnc) : InFlight (tweakEncryptPhase P s) := by
  have hc := tweakEncrypt_control P s
  have hl := (loaded_of_inFlight hf (by simp [hp])).of_control hc
  have ht : Loaded (tweakEncryptPhase P s) := ⟨hl.operands, hl.direction, hl.present, hl.counts⟩
  refine ht.inFlight (fun _ => hc.mode.trans (hf.tweaking (.inl hp))) (fun _ => ?_) ?_ ?_
  · simp [tweakEncryptPhase, tweakEncrypt]
  · simp [tweakEncryptPhase]
  · simp [tweakEncryptPhase]

theorem tweakAdvancePhase_inFlight {s : State} (hf : InFlight s) (hp : s.phase = .twkAdv)
    (hb : (tweakAdvancePhase s).busy = true) : InFlight (tweakAdvancePhase s) := by
  have hl := loaded_of_inFlight hf (by simp [hp])
  unfold tweakAdvancePhase at hb ⊢
  split
  · next hlt =>
    have hc := tweakAdvance_control s
    have hidx : (tweakAdvance s).work.idx.toNat = s.work.idx.toNat + 1 := by
      rw [← idx_advances (BitVec.lt_def.mp hlt)]
      simp [tweakAdvance]
    refine (hl.of_control hc).inFlight (fun _ => hc.mode.trans (hf.tweaking (.inr hp))) (fun _ => ?_)
      (by simp [hc.phase, hp]) (by simp [hc.phase, hp])
    rw [hidx, hc.lat]
    exact BitVec.lt_def.mp hlt
  · next hlt =>
    exact (hl.of_control (clearIndex_control s)).enterBlocks (by simp) (by simpa only [if_neg hlt] using hb)

theorem block_inFlight (P : RoundPrims) {s : State} (hf : InFlight s) (hp : s.phase = .blk)
    (hb : (afterBlock (blockStep P s)).busy = true) : InFlight (afterBlock (blockStep P s)) := by
  have hc := blockStep_control P s
  have hl := (loaded_of_inFlight hf (by simp [hp])).of_control hc
  unfold afterBlock at hb ⊢
  split
  · next hlt =>
    exact hl.inFlight (by simp [hc.phase, hp]) (by simp [hc.phase, hp])
      (fun _ => BitVec.lt_def.mp hlt) (by simp [hc.phase, hp])
  · next hlt => exact hl.enterTail (by simpa only [if_neg hlt] using hb)

/-- A phase action keeps a command that stays in flight legal and within its bounds. -/
theorem engineTick_inFlight {s : State} (hf : InFlight s) (hb : (engineTick s).busy = true)
    (hp : s.phase ≠ .idle) : InFlight (engineTick s) := by
  cases hph : s.phase with
  | idle => exact absurd hph hp
  | load => rw [engineTick_load hph] at hb ⊢; exact load_inFlight hf hb
  | twkEnc => rw [engineTick_twkEnc hph]; exact tweakEncryptPhase_inFlight aes hf hph
  | twkAdv => rw [engineTick_twkAdv hph] at hb ⊢; exact tweakAdvancePhase_inFlight hf hph hb
  | blk => rw [engineTick_blk hph] at hb ⊢; exact block_inFlight aes hf hph hb
  | tail => simp [engineTick_tail hph] at hb

/-- And memory inside the address space: BLK and TAIL write in the output range, the others nothing. -/
theorem engineTick_memoryFits {s : State} (hm : MemoryFits s.params s.mem) (hf : InFlight s) :
    MemoryFits s.params (engineTick s).mem := by
  cases hp : s.phase with
  | idle => simpa only [engineTick, phaseAction, hp] using hm
  | load => simpa [engineTick_load hp] using hm
  | twkEnc => simpa [engineTick_twkEnc hp, tweakEncryptPhase, tweakEncrypt] using hm
  | twkAdv => rwa [engineTick_twkAdv hp, tweakAdvancePhase_mem]
  | blk => rw [engineTick_blk hp, afterBlock_mem]; exact blockStep_memoryFits aes hm hf hp
  | tail => rw [engineTick_tail hp, complete_mem]; exact ctrTail_memoryFits aes hm hf hp

/-- An idle engine takes no action. -/
theorem engineTick_idle {s : State} (hp : s.phase = .idle) : engineTick s = s := by
  simp only [engineTick, phaseAction, hp]

/-- A phase action keeps the invariant. -/
theorem inv_engineTick {s : State} (h : Inv s) : Inv (engineTick s) := by
  by_cases hp : s.phase = .idle
  · rwa [engineTick_idle hp]
  · have hbusy : s.busy = true := by simpa using mt h.idle.1 hp
    have hmem := engineTick_memoryFits (.of_inv h) (h.flight hbusy)
    rw [← (engineTick_registers s).params] at hmem
    exact ⟨hmem.wf, hmem.inSpace, engineTick_idle_iff hbusy hp,
      fun _ => (engineTick_unread s).trans (h.bound hbusy),
      fun hb => engineTick_inFlight (h.flight hbusy) hb hp⟩

/-! ## Host transactions, commands, reset -/

/-- The fields the invariant reads of the engine and of memory are the same. -/
structure SameEngine (s t : State) : Prop where
  params : t.params = s.params
  busy   : t.busy = s.busy
  phase  : t.phase = s.phase
  work   : t.work = s.work
  mem    : t.mem = s.mem

/-- The invariant is kept by what changes none of them and leaves the host of a busy engine bound. -/
theorem inv_of_sameEngine {s t : State} (h : Inv s) (he : SameEngine s t)
    (hu : s.busy = true → s.unread = true → t.unread = true) : Inv t := by
  obtain ⟨hp, hb, hph, hw, hm⟩ := he
  refine ⟨by rw [hm]; exact h.memory, by rw [hm, hp]; exact h.inSpace, by rw [hb, hph]; exact h.idle,
    fun ht => ?_, fun ht => ?_⟩
  · have hs : s.busy = true := hb ▸ ht
    exact hu hs (h.bound hs)
  · have hf := h.flight (hb ▸ ht)
    constructor <;> rw [hw]
    · rw [hp]; exact hf.operands
    · exact hf.direction
    · rw [hp]; exact hf.present
    · rw [hph]; exact hf.counts
    · rw [hph]; exact hf.tweaking
    · rw [hph]; exact hf.advancing
    · rw [hph]; exact hf.blocks
    · rw [hph]; exact hf.tail

/-- Another list of events keeps the invariant. -/
theorem inv_withEvents {s : State} (h : Inv s) (ev : List Event) : Inv { s with events := ev } :=
  inv_of_sameEngine h ⟨rfl, rfl, rfl, rfl, rfl⟩ fun _ hu => hu

/-- So does a memory that fits. -/
theorem inv_withMemory {s : State} (h : Inv s) {m : Memory} (hm : MemoryFits s.params m) :
    Inv { s with mem := m } :=
  ⟨hm.wf, hm.inSpace, h.idle, h.bound, fun hb =>
    have hf := h.flight hb
    ⟨hf.operands, hf.direction, hf.present, hf.counts, hf.tweaking, hf.advancing, hf.blocks, hf.tail⟩⟩

/-- And so does an idle engine with such a memory. -/
theorem inv_of_idle {s : State} (hb : s.busy = false) (hp : s.phase = .idle)
    (hm : MemoryFits s.params s.mem) : Inv s :=
  ⟨hm.wf, hm.inSpace, by simp [hb, hp], by simp [hb], by simp [hb]⟩

/-- A STATUS read of a busy engine leaves the host bound. -/
theorem inv_readStatus {s : State} (h : Inv s) : Inv (readStatus s) :=
  inv_of_sameEngine h ⟨rfl, rfl, rfl, rfl, rfl⟩ fun hb hu => by simp [hb, hu]

theorem inv_readOperand {s : State} (h : Inv s) (r : OperandReg) : Inv (readOperand r s) := by
  unfold readOperand
  split <;> exact inv_of_sameEngine h ⟨rfl, rfl, rfl, rfl, rfl⟩ fun _ hu => hu

theorem inv_readCommand {s : State} (h : Inv s) : Inv (readCommand s) := by
  unfold readCommand
  split <;> exact inv_of_sameEngine h ⟨rfl, rfl, rfl, rfl, rfl⟩ fun _ hu => hu

/-- The table of commands has no `ctr` of direction 1 (30_encoding R82). -/
theorem dir_of_ctr {i : Instr} (h : i.mode = .ctr) : i.dir = .encrypt := by
  cases i with
  | ctr kc => rfl
  | _ => cases h

/-- An `xts` of direction 1 is of a build that has it. -/
theorem xtsDecPresent_of_wf {i : Instr} {x : Bool} (h : i.wf x = true) (hm : i.mode = .xts)
    (hd : i.dir = .decrypt) : x = true := by
  cases i with
  | xtsDec kc => exact h
  | xtsEnc kc => cases hd
  | _ => cases hm

/-- The issue of a Ready command starts it over legal operands, the host bound (10_state R27). -/
theorem inv_issue {s : State} (h : Inv s) {i : Instr} (hr : Ready i s) :
    Inv { issue i s with unread := true } where
  memory := h.memory
  inSpace := h.inSpace
  idle := by simp
  bound _ := rfl
  flight _ :=
    { operands := issue_legal hr
      direction := dir_of_ctr
      present := xtsDecPresent_of_wf hr.present
      counts := by simp
      tweaking := by simp
      advancing := by simp
      blocks := by simp
      tail := by simp }

/-- A window access keeps the invariant. -/
theorem inv_windowAccess {s t : State} (h : Inv s) {a : WindowAccess} (ha : windowAccess a s = .next t) :
    Inv t := by
  rcases windowAccess_next ha with ⟨r, v, _, _, rfl⟩ | ⟨r, _, _, rfl⟩ | ⟨v, i, _, _, hr, rfl⟩ |
    ⟨_, _, rfl⟩ | ⟨_, rfl⟩ | ⟨v, _, rfl⟩
  · exact inv_of_sameEngine h ⟨rfl, rfl, rfl, rfl, rfl⟩ fun _ hu => hu
  · exact inv_readOperand h r
  · exact inv_issue h hr
  · exact inv_readCommand h
  · exact inv_readStatus h
  · exact h

/-- A command that completes leaves an idle engine. -/
theorem inv_exec {s t : State} (h : Inv s) {i : Instr} (he : exec i s = .next t) : Inv t := by
  have hm := exec_memoryFits (.of_inv h) he
  rw [← (exec_registers he).params] at hm
  obtain ⟨_, rfl⟩ := exec_next he
  exact inv_of_idle rfl rfl hm

/-- An event keeps the invariant. -/
theorem inv_runEvent {s t : State} (h : Inv s) {e : Event} (he : runEvent hardware e s = .next t) :
    Inv t := by
  rcases runEvent_next he with ⟨a, _, _, ha⟩ | ⟨w, i, _, _, _, _, hi⟩ | ⟨_, rfl⟩ | ⟨_, _, rfl⟩ |
    ⟨_, _, rfl⟩ | ⟨a, bs, _, hend, _, _, rfl⟩ | ⟨a, n, _, _, _, _, rfl⟩ | ⟨_, rfl⟩
  · exact inv_windowAccess h ha
  · exact inv_exec h hi
  · exact inv_engineTick h
  · exact inv_withEvents (inv_engineTick (inv_readStatus h)) _
  · exact inv_readStatus h
  · exact inv_withMemory h ((MemoryFits.of_inv h).memWrite hend)
  · exact inv_of_sameEngine h ⟨rfl, rfl, rfl, rfl, rfl⟩ fun _ hu => hu
  · exact inv_of_idle rfl rfl (engineReset_memoryFits h : MemoryFits s.params _)

/-- Settles O36: with no event listed the step is a phase action, otherwise the event. -/
theorem stepKeepsTheInvariant : Obligations.StepKeepsTheInvariant := by
  intro s t h hs
  rcases step_next hs with ⟨_, rfl⟩ | ⟨e, rest, _, he⟩
  · exact inv_engineTick h
  · exact inv_runEvent (inv_withEvents h rest) he

end Sys2Proof.Machine
end

section
/-! PROOFS. The preconditions and the one fault (60_exceptions R230 to R238), the accesses of other agents
(R236, 20_memory R63) and the reset in flight (70_reset_and_hazards R263). -/

namespace Sys2Proof.Machine

open Sys2Proof.Config (Region Params)
open Sys2Proof.Safety

/-! ## When a command goes on -/

/-- Settles O16: a command goes on from a Ready state alone, and from every one. -/
theorem readyCommandsAndOnlyTheyComplete : Obligations.ReadyCommandsAndOnlyTheyComplete :=
  fun _ _ => ⟨fun ⟨_, h⟩ => (exec_next h).1, fun h => ⟨_, exec_ready h⟩⟩

/-! ## What a refusal names -/

/-- A command is refused with the violations that hold, when some do. -/
theorem exec_refused {i : Instr} {s : State} {v : Violation} {others : List Violation}
    (h : issueViolations i s = v :: others) : exec i s = .refused (.violated v others) := by
  rw [exec_eq, runCommand, ifDefined, h]

theorem issueViolations_busy {i : Instr} {s : State} (hb : s.busy = true) :
    issueViolations i s = [.pv7] := if_pos hb

theorem issueViolations_absent {i : Instr} {s : State} (hb : s.busy = false)
    (hp : i.wf s.params.xtsDecPresent = false) : issueViolations i s = [.pv1] := by
  simp [issueViolations, hb, hp]

/-- Over written registers of an idle engine that has the command, the operands are asked. -/
theorem issueViolations_written {i : Instr} {s : State} (hb : s.busy = false)
    (hp : i.wf s.params.xtsDecPresent = true) (hw : ∀ r ∈ modeOperands i.mode, s.written.get r = true) :
    issueViolations i s = operandViolations s.params i.mode i.keyClass s.regs := by
  have hgood : unwrittenBad i.mode s.written = false := by simpa [unwrittenBad] using hw
  simp [issueViolations, hb, hp, hgood]

/-- A violation is listed exactly when its check fails. -/
theorem mem_operandViolations {p : Params} {m : Mode} {kc : KeyClass} {f : OperandFile Word64}
    {v : Violation} : v ∈ operandViolations p m kc f ↔
      (v = .pv2 ∧ lengthBad m f = true) ∨ (v = .pv3 ∧ overlapBad f = true) ∨
      (v = .pv4 ∧ unbackedBad p m (rounds p kc) f = true) ∨
      (v = .pv5 ∧ scheduleBad m (rounds p kc) f = true) ∨
      (v = .pv10 ∧ alignBad p m (rounds p kc) f = true) := by
  have one : ∀ (b : Bool) (u : Violation),
      v ∈ (if b = true then [u] else []) ↔ v = u ∧ b = true := by
    intro b u
    cases b <;> simp
  simp only [operandViolations, List.mem_append, one, or_assoc]

/-- Settles O17: PV7, PV1 and PV9 are the only ones listed where they hold, and the checks of the operands
say what the preconditions say. -/
theorem refusalNamesTheViolatedPreconditions : Obligations.RefusalNamesTheViolatedPreconditions := by
  intro i s
  refine ⟨fun hb => exec_refused (issueViolations_busy hb),
    fun hb hp => exec_refused (issueViolations_absent hb hp),
    fun hb hp ⟨r, hr, hw⟩ => exec_unwritten hb hp hr hw, fun hb hp hw hbad => ?_⟩
  have hne := mt operandViolations_nil.1 hbad
  obtain ⟨v, others, hv⟩ := List.exists_cons_of_ne_nil hne
  refine ⟨v, others, exec_refused ((issueViolations_written hb hp hw).trans hv), ?_⟩
  simp only [← hv, mem_operandViolations, lengthBad_iff, overlapBad_iff, unbackedBad_iff, scheduleBad_iff,
    alignBad_iff]
  refine ⟨by simp, ?_, by simp, by simp, by simp, fun u hu => ?_⟩
  · have hlen : ShareByte (inputRegion s.regs) (outputRegion s.regs) → s.regs.len ≠ 0#64 :=
      fun h h0 => not_shareByte_of_len h0 h
    simp only [reduceCtorEq, true_and, false_and, false_or, or_false]
    exact ⟨fun ⟨hd, h⟩ => ⟨hlen h, hd, h⟩, fun ⟨_, hd, h⟩ => ⟨hd, h⟩⟩
  · rcases hu with ⟨rfl, _⟩ | ⟨rfl, _⟩ | ⟨rfl, _⟩ | ⟨rfl, _⟩ | ⟨rfl, _⟩ <;> simp

/-! ## Faults (60_exceptions R230) -/

theorem exec_not_fault (i : Instr) (s : State) (r : Fault) : exec i s ≠ .fault r := by
  rcases exec_cases i s with ⟨_, h⟩ | ⟨_, v, others, _, h⟩ <;> simp [h]

theorem ifDefined_not_fault (i : Instr) (s t : State) (r : Fault) : ifDefined i s t ≠ .fault r := by
  unfold ifDefined
  split <;> simp

theorem whenIdle_not_fault (s t : State) (r : Fault) : whenIdle s t ≠ .fault r := by
  unfold whenIdle
  split <;> simp [refuse]

theorem writeCommand_not_fault {run : Instr → State → Host.Outcome State Fault Refusal} {r : Fault}
    (h : ∀ i s, run i s ≠ .fault r) (w : BitVec 32) (s : State) : writeCommand run w s ≠ .fault r := by
  unfold writeCommand
  split
  · simp [refuse]
  · split
    · simp [refuse]
    · exact h _ s

theorem transact_not_fault (tr : Transaction) (s : State) (r : Fault) : transact tr s ≠ .fault r := by
  cases tr with
  | writeOperand q v => exact whenIdle_not_fault s _ r
  | readOperand q => exact whenIdle_not_fault s _ r
  | issue w => exact writeCommand_not_fault (fun i s => ifDefined_not_fault i s _ r) w s
  | readCommand => exact whenIdle_not_fault s _ r
  | readStatus => simp [transact]
  | writeStatus => simp [transact]

/-- No access of the host to the window faults. -/
theorem hostAccess_not_fault (a : WindowAccess) (s : State) (r : Fault) : hostAccess a s ≠ .fault r := by
  unfold hostAccess
  split
  · simp [refuse]
  · unfold windowAccess
    split
    · simp [refuse]
    · exact transact_not_fault _ s r

/-- Nor does a call. -/
theorem hostCallWord_not_fault (w : BitVec 32) (s : State) (r : Fault) :
    hostCallWord hardware w s ≠ .fault r := by
  unfold hostCallWord
  split
  · simp [refuse]
  · exact writeCommand_not_fault (fun i s => exec_not_fault i s r) w s

/-- An agent's access that faults passes the top of the address space (20_memory R50; log entry 17). -/
theorem agentAccess_fault {g : Region} {forbidden : List Region} {s t : State} {r : Fault}
    (h : agentAccess g forbidden s t = .fault r) : 2 ^ s.params.aw < g.base + g.size := by
  by_contra hend
  unfold agentAccess at h
  rw [if_neg hend] at h
  split at h
  · cases h
  · split at h <;> cases h

/-- Settles O18: of the events only another agent's store and load reach an outcome that is a fault. -/
theorem onlyAgentsFault : Obligations.OnlyAgentsFault := by
  refine ⟨exec_not_fault, fun s r h => ?_⟩
  unfold step stepOf at h
  split at h
  · cases h
  next e rest he =>
  refine ⟨e, rest, he, ?_⟩
  cases e with
  | window a => exact absurd h (hostAccess_not_fault a _ r)
  | call w => exact absurd h (hostCallWord_not_fault w _ r)
  | tick => cases h
  | wait => cases h
  | store a bs => exact .inl ⟨a, bs, rfl, agentAccess_fault h⟩
  | load a n => exact .inr ⟨a, n, rfl, agentAccess_fault h⟩
  | reset => cases h

/-! ## Other agents' accesses (60_exceptions R236, PV8) -/

/-- The accesses to backed memory that PV8 forbids are refused; the others have their effect. -/
theorem agentAccess_valid {g : Region} {s : State} (hg : Valid s.params g) (forbidden : List Region)
    (t : State) :
    ((s.busy = true ∨ s.unread = true) ∧ (∃ h ∈ forbidden, ShareByte g h) →
      agentAccess g forbidden s t = .refused (.violated .pv8 [])) ∧
    (¬ ((s.busy = true ∨ s.unread = true) ∧ ∃ h ∈ forbidden, ShareByte g h) →
      agentAccess g forbidden s t = .next t) := by
  have hmeet : (inBusyWindow s && forbidden.any (regionsMeet g)) = true ↔
      (s.busy = true ∨ s.unread = true) ∧ ∃ h ∈ forbidden, ShareByte g h := by
    simp [inBusyWindow_iff, regionsMeet_iff]
  have hgo : agentAccess g forbidden s t =
      if (inBusyWindow s && forbidden.any (regionsMeet g)) = true then refuse .pv8 else .next t := by
    rw [agentAccess, if_neg hg.1.not_gt, if_neg (by simp [regionValid_iff.2 hg])]
  rw [hgo, ← hmeet]
  exact ⟨fun h => if_pos h, fun h => if_neg h⟩

/-- Settles O47: a store keeps clear of the whole footprint, a load of the output range alone. -/
theorem agentsKeepClearOfTheFootprint : Obligations.AgentsKeepClearOfTheFootprint := by
  intro s a n bs
  refine ⟨fun hv => agentAccess_valid hv _ _, fun hv => ?_⟩
  have hload := agentAccess_valid hv [outputRegion s.work.lat]
    { s with reply := some (.bytes (memRead s.mem a n)) }
  simp only [List.mem_singleton, exists_eq_left] at hload
  exact hload

/-! ## Reset in flight (70_reset_and_hazards R263) -/

/-- A clobbered range holds the free values of a draw, each byte its own, and nothing else changes. -/
theorem get_clobber {m : Memory} (hw : m.Wf) (n : Nat) (g : Region) (a : Nat) :
    (Inside g a → (clobber n g m).get a = Config.freeByte n a) ∧
    (¬ Inside g a → (clobber n g m).get a = m.get a) := by
  refine ⟨fun ha => ?_, fun ha => get_memWrite_outside hw (by simpa [Inside] using ha)⟩
  obtain ⟨k, rfl⟩ : ∃ k, a = g.base + k := ⟨a - g.base, by have := ha.1; omega⟩
  have hk : k < g.size := by have := ha.2; omega
  rw [clobber, get_memWrite_inside hw (by simpa using hk)]
  simp

/-- Settles O50: the reset of a busy engine clobbers the latched output range. -/
theorem resetInFlightLosesTheOutputRange : Obligations.ResetInFlightLosesTheOutputRange := by
  intro s hw hb
  have hmem : (engineReset s).mem = clobber s.free (outputRegion s.work.lat) s.mem := if_pos hb
  rw [hmem]
  exact ⟨rfl, rfl, rfl, OperandFile.get_fill false, rfl, fun a => (get_clobber hw s.free _ a).1,
    fun a => (get_clobber hw s.free _ a).2⟩

end Sys2Proof.Machine
end

section
/-! PROOFS. The phase machine against the whole command (10_state R30, R35, 60_exceptions R235, R237): the
phase actions of a command one after the other, counted, over any round primitives. -/

namespace Sys2Proof.Machine

open Sys2Proof.Config (RoundPrims)
open Sys2Proof.Safety

/-! ## Operations that do not see the phase -/

/-- The state in another phase. -/
def atPhase (p : Phase) (s : State) : State := { s with phase := p }

theorem fetchBlock_atPhase (p : Phase) : Function.Commute fetchBlock (atPhase p) := fun _ => rfl

theorem emitBlock_atPhase (out : Working → Block) (p : Phase) :
    Function.Commute (emitBlock out) (atPhase p) := fun _ => rfl

theorem nextIndex_atPhase (p : Phase) : Function.Commute nextIndex (atPhase p) := fun _ => rfl

theorem clearIndex_atPhase (p : Phase) : Function.Commute clearIndex (atPhase p) := fun _ => rfl

theorem setFeedback_atPhase (value : Working → Block) (p : Phase) :
    Function.Commute (setFeedback value) (atPhase p) := fun _ => rfl

theorem setTweak_atPhase (value : Working → Block) (p : Phase) :
    Function.Commute (setTweak value) (atPhase p) := fun _ => rfl

theorem advanceCounter_atPhase (p : Phase) : Function.Commute advanceCounter (atPhase p) := fun _ => rfl

theorem runCore_atPhase (P : RoundPrims) (sel : KeySelect) (d : Dir) (input : Working → Block) (p : Phase) :
    Function.Commute (runCore P sel d input) (atPhase p) := fun _ => by cases sel <;> rfl

theorem keystream_atPhase (P : RoundPrims) (p : Phase) : Function.Commute (keystream P) (atPhase p) :=
  fun _ => rfl

theorem ctrTail_atPhase (P : RoundPrims) (p : Phase) : Function.Commute (ctrTail P) (atPhase p) :=
  fun _ => rfl

theorem tweakAdvance_atPhase (p : Phase) : Function.Commute tweakAdvance (atPhase p) := fun _ => rfl

theorem blockStep_atPhase (P : RoundPrims) (p : Phase) :
    Function.Commute (blockStep P) (atPhase p) := fun s => by
  unfold blockStep
  simp only [show (atPhase p s).work = s.work from rfl]
  split
  all_goals
    simp only [ecbEncBlock, ecbDecBlock, cbcEncBlock, cbcDecBlock, ctrBlock, xtsEncBlock, xtsDecBlock,
      (fetchBlock_atPhase p).eq, (runCore_atPhase P _ _ _ p).eq, (emitBlock_atPhase _ p).eq,
      (setFeedback_atPhase _ p).eq, (setTweak_atPhase _ p).eq, (keystream_atPhase P p).eq,
      (advanceCounter_atPhase p).eq, (nextIndex_atPhase p).eq]

/-- Completion forgets the phase. -/
theorem complete_atPhase (p : Phase) (s : State) : complete (atPhase p s) = complete s := rfl

/-! ## Counted phase actions -/

/-- `n` phase actions lead from one state to another, the engine busy before each of them. -/
inductive Takes (P : RoundPrims) : Nat → State → State → Prop where
  | done (s : State) : Takes P 0 s s
  | act {n : Nat} {s t : State} : s.busy = true → Takes P n (phaseAction P s) t → Takes P (n + 1) s t

theorem Takes.trans {P : RoundPrims} {m n : Nat} {s t u : State} (h : Takes P m s t)
    (g : Takes P n t u) : Takes P (m + n) s u := by
  induction h with
  | done s => rwa [Nat.zero_add]
  | act hb _ ih => rw [Nat.add_right_comm]; exact .act hb (ih g)

/-- One phase action of a busy engine. -/
theorem Takes.one {P : RoundPrims} {s : State} (hb : s.busy = true) : Takes P 1 s (phaseAction P s) :=
  .act hb (.done _)

/-- Counted phase actions are iterates, and before each the engine is busy. -/
theorem Takes.iterate {P : RoundPrims} {n : Nat} {s t : State} (h : Takes P n s t) :
    (phaseAction P)^[n] s = t ∧ ∀ k, k < n → ((phaseAction P)^[k] s).busy = true := by
  induction h with
  | done s => exact ⟨rfl, fun k hk => absurd hk k.not_lt_zero⟩
  | act hb _ ih =>
    refine ⟨ih.1, fun k hk => ?_⟩
    cases k with
    | zero => exact hb
    | succ k => exact ih.2 k (Nat.lt_of_succ_lt_succ hk)

/-! ## What each phase still takes (10_state R30) -/

/-- What is left of a body after its full blocks: the tail of a `ctr` with a remainder. -/
def afterBlocks (P : RoundPrims) (s : State) : State :=
  if s.work.mode = .ctr ∧ s.work.rem ≠ 0#4 then ctrTail P s else s

/-- How many phase actions the tail takes. -/
def tailActions (s : State) : Nat := if s.work.mode = .ctr ∧ s.work.rem ≠ 0#4 then 1 else 0

theorem SameControl.tailActions {s t : State} (h : SameControl s t) : tailActions t = tailActions s := by
  simp only [Machine.tailActions, h.mode, h.rem]

/-- The blocks and the tail of a body. -/
def blocksAndTail (P : RoundPrims) (s : State) : State :=
  afterBlocks P ((blockStep P)^[s.work.nb.toNat] s)

theorem afterBlocks_atPhase (P : RoundPrims) (p : Phase) :
    Function.Commute (afterBlocks P) (atPhase p) := fun s => by
  unfold afterBlocks
  simp only [show (atPhase p s).work = s.work from rfl]
  split
  · exact ctrTail_atPhase P p s
  · rfl

/-- After the last full block. -/
theorem takes_enterTail (P : RoundPrims) {s : State} (hb : s.busy = true) :
    Takes P (tailActions s) (enterTail s) (complete (afterBlocks P s)) := by
  unfold tailActions enterTail afterBlocks
  split
  · exact .one (s := atPhase .tail s) hb
  · exact .done _

theorem blocksAndTail_atPhase (P : RoundPrims) (p : Phase) :
    Function.Commute (blocksAndTail P) (atPhase p) := fun s => by
  unfold blocksAndTail
  rw [((blockStep_atPhase P p).iterate_left _).eq, (afterBlocks_atPhase P p).eq]
  rfl

theorem blockSteps_control (P : RoundPrims) (n : Nat) (s : State) :
    SameControl s ((blockStep P)^[n] s) := .iterate (blockStep_control P) n s

/-- IDX below NB advances by one without a wrap. -/
theorem blockStep_idx_toNat (P : RoundPrims) {s : State} (h : s.work.idx.toNat < s.work.nb.toNat) :
    (blockStep P s).work.idx.toNat = s.work.idx.toNat + 1 := by
  rw [blockStep_idx, idx_advances h]

/-- The action of BLK. -/
theorem phaseAction_blk (P : RoundPrims) {s : State} (hp : s.phase = .blk)
    (h : s.work.idx.toNat < s.work.nb.toNat) : phaseAction P s =
      if s.work.idx.toNat + 1 < s.work.nb.toNat then blockStep P s else enterTail (blockStep P s) := by
  simp only [phaseAction, hp, afterBlock, BitVec.lt_def, blockStep_idx_toNat P h,
    (blockStep_control P s).nb]

/-- The blocks from IDX on, at least one. -/
theorem takes_blocks (P : RoundPrims) {m : Nat} {s : State} (hb : s.busy = true) (hp : s.phase = .blk)
    (hidx : s.work.idx.toNat + (m + 1) = s.work.nb.toNat) :
    Takes P (m + 1) s (enterTail ((blockStep P)^[m + 1] s)) := by
  induction m generalizing s with
  | zero =>
    refine .act hb ?_
    rw [phaseAction_blk P hp (by omega), if_neg (by omega)]
    exact .done _
  | succ m ih =>
    have hc := blockStep_control P s
    refine .act hb ?_
    rw [phaseAction_blk P hp (by omega), if_pos (by omega)]
    exact ih (hc.busy.trans hb) (hc.phase.trans hp)
      (by rw [blockStep_idx_toNat P (by omega), hc.nb]; omega)

/-- What follows LOAD or the tweak: all full blocks, then the tail. -/
theorem takes_enterBlocks (P : RoundPrims) {s : State} (hb : s.busy = true) (hidx : s.work.idx = 0#64) :
    Takes P (s.work.nb.toNat + tailActions s) (enterBlocks s) (complete (blocksAndTail P s)) := by
  unfold enterBlocks
  split
  · next hnb =>
    obtain ⟨m, hm⟩ : ∃ m, s.work.nb.toNat = m + 1 :=
      Nat.exists_eq_succ_of_ne_zero fun h0 => hnb (BitVec.eq_of_toNat_eq h0)
    have hblocks := takes_blocks P (m := m) (s := atPhase .blk s) hb rfl (by simp [atPhase, hidx, hm])
    have hc := blockSteps_control P (m + 1) (atPhase .blk s)
    have htail := takes_enterTail P (hc.busy.trans hb)
    rw [hc.tailActions] at htail
    have hend : complete (afterBlocks P ((blockStep P)^[m + 1] (atPhase .blk s))) =
        complete (blocksAndTail P s) := by
      rw [((blockStep_atPhase P .blk).iterate_left _).eq, (afterBlocks_atPhase P .blk).eq,
        complete_atPhase, blocksAndTail, hm]
    rw [hend] at htail
    rw [hm]
    exact hblocks.trans htail
  · next hnb =>
    have h0 : s.work.nb.toNat = 0 := by simpa using congrArg BitVec.toNat (not_not.1 hnb)
    rw [blocksAndTail, h0, Nat.zero_add]
    exact takes_enterTail P hb

/-- The action of TWK_ADV. -/
theorem phaseAction_twkAdv (P : RoundPrims) {s : State} (hp : s.phase = .twkAdv) : phaseAction P s =
    if s.work.idx.toNat < s.work.lat.off.toNat then tweakAdvance s else enterBlocks (clearIndex s) := by
  simp only [phaseAction, hp, tweakAdvancePhase, BitVec.lt_def]

/-- The doublings from IDX on and the action that ends them. -/
theorem takes_tweakAdvance (P : RoundPrims) {m : Nat} {s : State} (hb : s.busy = true)
    (hp : s.phase = .twkAdv) (hidx : s.work.idx.toNat + m = s.work.lat.off.toNat) :
    Takes P (m + 1) s (enterBlocks (clearIndex (tweakAdvance^[m] s))) := by
  induction m generalizing s with
  | zero =>
    refine .act hb ?_
    rw [phaseAction_twkAdv P hp, if_neg (by omega)]
    exact .done _
  | succ m ih =>
    have hc := tweakAdvance_control s
    have hnext : (tweakAdvance s).work.idx.toNat = s.work.idx.toNat + 1 := by
      rw [← idx_advances (n := s.work.lat.off) (by omega)]
      simp [tweakAdvance]
    refine .act hb ?_
    rw [phaseAction_twkAdv P hp, if_pos (by omega)]
    exact ih (hc.busy.trans hb) (hc.phase.trans hp) (by rw [hnext, hc.lat]; omega)

/-- The tweak of a body: computed and advanced by OFF in XTS, nothing in the other modes. -/
def tweaked (P : RoundPrims) (s : State) : State := if s.work.mode = .xts then tweakPhases P s else s

/-- How many phase actions the tweak takes: its encryption, OFF doublings, and the action that ends them. -/
def tweakActions (s : State) : Nat := if s.work.mode = .xts then s.work.lat.off.toNat + 2 else 0

/-- What follows LOAD: the tweak of an XTS command, then the blocks and the tail. -/
theorem takes_afterLoad (P : RoundPrims) {s : State} (hb : s.busy = true) (hidx : s.work.idx = 0#64) :
    Takes P (tweakActions s + (s.work.nb.toNat + tailActions s)) (afterLoad s)
      (complete (blocksAndTail P (tweaked P s))) := by
  unfold tweakActions afterLoad tweaked
  split
  · have he := tweakEncrypt_control P s
    have hc := tweakPhases_control P s
    have hencrypt : Takes P 1 (atPhase .twkEnc s) (atPhase .twkAdv (tweakEncrypt P s)) :=
      .one (s := atPhase .twkEnc s) hb
    have hadvance := takes_tweakAdvance P (s := atPhase .twkAdv (tweakEncrypt P s))
      (m := (tweakEncrypt P s).work.lat.off.toNat) (he.busy.trans hb) rfl (by simp [atPhase, tweakEncrypt])
    rw [((tweakAdvance_atPhase _).iterate_left _).eq, (clearIndex_atPhase _).eq, he.lat] at hadvance
    have hblocks := takes_enterBlocks P (s := atPhase .twkAdv (tweakPhases P s)) (hc.busy.trans hb)
      (tweakPhases_spec P s).2.1
    rw [(blocksAndTail_atPhase P .twkAdv).eq, complete_atPhase] at hblocks
    rw [← hc.nb, ← hc.tailActions, show s.work.lat.off.toNat + 2 = 1 + (s.work.lat.off.toNat + 1) by omega]
    exact (hencrypt.trans hadvance).trans hblocks
  · rw [Nat.zero_add]
    exact takes_enterBlocks P hb hidx

/-! ## The body of a command is what its phases compute -/

/-- The block of a command's driver. -/
def blockOf (P : RoundPrims) (i : Instr) : State → State :=
  match i with
  | .ecbEnc _ => ecbEncBlock P
  | .ecbDec _ => ecbDecBlock P
  | .cbcEnc _ => cbcEncBlock P
  | .cbcDec _ => cbcDecBlock P
  | .ctr _ => ctrBlock P
  | .xtsEnc _ => xtsEncBlock P
  | .xtsDec _ => xtsDecBlock P

/-- A command's latched mode and direction select its driver's block. -/
theorem blockStep_eq (P : RoundPrims) {i : Instr} {s : State} (hm : s.work.mode = i.mode)
    (hd : s.work.dir = i.dir) : blockStep P s = blockOf P i s := by
  unfold blockStep
  rw [hm, hd]
  cases i <;> rfl

theorem blockSteps_eq (P : RoundPrims) {i : Instr} {s : State} (hm : s.work.mode = i.mode)
    (hd : s.work.dir = i.dir) (n : Nat) : (blockStep P)^[n] s = (blockOf P i)^[n] s := by
  induction n generalizing s with
  | zero => rfl
  | succ n ih =>
    have hc := blockStep_control P s
    rw [Function.iterate_succ_apply, Function.iterate_succ_apply, ← blockStep_eq P hm hd]
    exact ih (hc.mode.trans hm) (hc.dir.trans hd)

/-- Outside CTR the blocks are all. -/
theorem blocksAndTail_of_ne (P : RoundPrims) {i : Instr} {s : State} (hm : s.work.mode = i.mode)
    (hd : s.work.dir = i.dir) (hne : i.mode ≠ .ctr) :
    blocksAndTail P s = (blockOf P i)^[s.work.nb.toNat] s := by
  have hc := blockSteps_control P s.work.nb.toNat s
  rw [blocksAndTail, afterBlocks, if_neg fun h => hne ((hc.mode.trans hm).symm.trans h.1),
    blockSteps_eq P hm hd]

/-- In CTR the tail follows them. -/
theorem blocksAndTail_ctr (P : RoundPrims) {kc : KeyClass} {s : State} (hm : s.work.mode = .ctr)
    (hd : s.work.dir = .encrypt) : blocksAndTail P s = ctrBody P s := by
  have hc := blockSteps_control P s.work.nb.toNat s
  rw [blocksAndTail, afterBlocks, ctrBody, ctrRemainder]
  simp only [hc.mode.trans hm, true_and]
  rw [blockSteps_eq P (i := .ctr kc) hm hd, blockOf]

/-- The body of a latched command is its tweak, its driver's blocks and its tail. -/
theorem blocksAndTail_tweaked (P : RoundPrims) {i : Instr} {s : State} (hm : s.work.mode = i.mode)
    (hd : s.work.dir = i.dir) : blocksAndTail P (tweaked P s) = bodyOf P i s := by
  have hc := tweakPhases_control P s
  unfold tweaked
  rw [hm]
  cases i with
  | ctr kc => exact blocksAndTail_ctr P (kc := kc) hm hd
  | xtsEnc kc => exact blocksAndTail_of_ne P (i := .xtsEnc kc) (hc.mode.trans hm) (hc.dir.trans hd) nofun
  | xtsDec kc => exact blocksAndTail_of_ne P (i := .xtsDec kc) (hc.mode.trans hm) (hc.dir.trans hd) nofun
  | _ => exact blocksAndTail_of_ne P hm hd nofun

/-- The phase actions the operands give are those of the latched command. -/
theorem phaseActions_eq (i : Instr) (s : State) : phaseActions i.mode s.regs =
    tweakActions (loadPhase (issue i s)) + (blockCount s.regs + tailActions (loadPhase (issue i s))) + 1 := by
  have htail : tailActions (loadPhase (issue i s)) =
      if i.mode = .ctr ∧ s.regs.len.toNat % 16 ≠ 0 then 1 else 0 := by
    simp only [tailActions, loadPhase_rem_ne_zero, loadPhase_work_mode, issue_mode, issue_lat_len]
  have htweak : tweakActions (loadPhase (issue i s)) =
      if i.mode = .xts then s.regs.off.toNat + 2 else 0 := by
    simp only [tweakActions, loadPhase_work_mode, issue_mode, loadPhase_work_lat]
    split
    · next hm => rw [issue_lat_off s hm]
    · rfl
  rw [phaseActions, htail, htweak]
  omega

/-- An issued command takes its phase actions to the completion of its body (10_state R30). -/
theorem takes_command (P : RoundPrims) (i : Instr) (s : State) :
    Takes P (phaseActions i.mode s.regs) (issue i s)
      (complete (bodyOf P i (loadPhase (issue i s)))) := by
  have hrest := takes_afterLoad P (s := loadPhase (issue i s)) (by simp) (by simp)
  rw [blocksAndTail_tweaked P (i := i) (by simp) (by simp), start_nb] at hrest
  rw [phaseActions_eq]
  exact .act rfl hrest

/-- Settles O34: the phase actions end in the completion of the same body. -/
theorem phasesRefineTheWholeCommand : Obligations.PhasesRefineTheWholeCommand := by
  refine ⟨fun P i s hr => ?_, fun i s => ?_, fun s => ⟨rfl, ?_⟩⟩
  · obtain ⟨hend, hbusy⟩ := (takes_command P i s).iterate
    refine ⟨?_, hbusy⟩
    rw [hend, runWith_eq, runCommand_ready hr]
  · rw [exec_eq, runWith_eq]
  · rw [step, stepWith, hardware_eq]

end Sys2Proof.Machine
end
